-- ==== Sys2Proof/Word.lean ====
section
/-! DEFINITION. The word types of the GF256-QR core and the plainest reading of a word's fields. -/

namespace Sys2Proof

/-- An 8-bit field element, codeword or character code (40_gf.md R100). -/
abbrev Byte := BitVec 8

/-- A 32-bit command word or bus word (20_memory.md R60, 30_encoding.md R80). -/
abbrev Word := BitVec 32

/-- `w[hi:lo]` as an unsigned number (00_scope.md R7). -/
def slice (w : Word) (hi lo : Nat) : Nat := w.toNat / 2 ^ lo % 2 ^ (hi + 1 - lo)

end Sys2Proof
end

