-- ==== Sys2Proof/Syntax.lean ====
section
/-! DEFINITION. The command set as syntax: one constructor per row of spec/opcode_table.json
(30_encoding.md R81-R83), and the assembler's pseudo-instructions (R88). -/

namespace Sys2Proof

/-- The encoding mode operand of SER.HDR, in the source's order 0 … 3 (30_encoding.md R82). -/
inductive EncMode where
  | numeric
  | alphaNumeric
  | byte
  | kanji
deriving DecidableEq, Repr

/-- A command. Register numbers are `Fin 16`. Counts, degrees and bit positions are numbers, whose field widths
`Instr.wf` checks; their legal ranges are checked when the command runs (30_encoding.md R86). -/
inductive Instr where
  | nop
  | gfLi (rd : Fin 16) (imm8 : Byte)
  | gfAdd (rd ra rb : Fin 16)
  | gfMul (rd ra rb : Fin 16)
  | gfDiv (rd ra rb : Fin 16)
  | gfInv (rd ra : Fin 16)
  | gfExp (rd ra : Fin 16)
  | gfLog (rd ra : Fin 16)
  | bbClr
  | bbApp (n : Nat) (imm16 : BitVec 16)
  | bbAppr (n : Nat) (ra : Fin 16)
  | bbRd (n : Nat) (pos : Nat)
  | rsGen (d : Nat)
  | rsEnc (n : Nat) (e : Nat)
  | rsSyn (n : Nat) (e : Nat)
  | serHdr (mode : EncMode)
  | serAln
  | serPad
  | blkEcc
  | blkWeave
  | plInit
  | plPlace
  | plMask (m : Fin 8)
  | plFmt (m : Fin 8)
deriving DecidableEq, Repr

namespace Pseudo

/-- `gf.sub rd, ra, rb` (30_encoding.md R88). -/
def gfSub (rd ra rb : Fin 16) : List Instr := [.gfAdd rd ra rb]

/-- `gf.clr rd` (30_encoding.md R88). -/
def gfClr (rd : Fin 16) : List Instr := [.gfLi rd 0]

/-- `gf.one rd` (30_encoding.md R88). -/
def gfOne (rd : Fin 16) : List Instr := [.gfLi rd 1]

/-- `bb.appb imm8` (30_encoding.md R88). -/
def bbAppb (imm8 : Byte) : List Instr := [.bbApp 8 (imm8.setWidth 16)]

/-- `bb.bit b` (30_encoding.md R88). -/
def bbBit (b : Bool) : List Instr := [.bbApp 1 ((BitVec.ofBool b).setWidth 16)]

/-- `ser.encode` (30_encoding.md R88). -/
def serEncode : List Instr := [.serHdr .alphaNumeric, .serAln, .serPad]

/-- `blk.run` (30_encoding.md R88). -/
def blkRun : List Instr := [.blkEcc, .blkWeave]

end Pseudo

end Sys2Proof
end

