-- ==== Sys2Proof/WellFormed.lean ====
section
/-! DEFINITION. Which instructions have a word: every field fits the bits its format gives it
(30_encoding.md R81, R82). A field value out of its command's legal range is well-formed: the command raises the
error its rule names when it runs (R86). -/

namespace Sys2Proof

/-- Every numeric field fits its format's bits (30_encoding.md R81). -/
def Instr.wf : Instr → Bool
  | .nop => true
  | .gfLi _ _ => true
  | .gfAdd _ _ _ => true
  | .gfMul _ _ _ => true
  | .gfDiv _ _ _ => true
  | .gfInv _ _ => true
  | .gfExp _ _ => true
  | .gfLog _ _ => true
  | .bbClr => true
  | .bbApp n _ => decide (n < 32)
  | .bbAppr n _ => decide (n < 32)
  | .bbRd n pos => decide (n < 32) && decide (pos < 32768)
  | .rsGen d => decide (d < 32)
  | .rsEnc n e => decide (n < 256) && decide (e < 32)
  | .rsSyn n e => decide (n < 256) && decide (e < 32)
  | .serHdr _ => true
  | .serAln => true
  | .serPad => true
  | .blkEcc => true
  | .blkWeave => true
  | .plInit => true
  | .plPlace => true
  | .plMask _ => true
  | .plFmt _ => true

end Sys2Proof
end

