-- ==== Sys2Proof/Decode.lean ====
section
/-! DEFINITION. Command words to instructions, total, rejecting by name, and back (30_encoding.md R80-R86). -/

namespace Sys2Proof

/-- Why a word is no command; both raise ILLEGAL_COMMAND when the word runs (30_encoding.md R84). -/
inductive DecodeError where
  /-- case (a): the opcode is not in the table of R83 -/
  | unknownOpcode
  /-- case (b): a reserved-zero bit of the format is 1 -/
  | reservedBits
deriving DecidableEq, Repr

/-- A row of the opcode map: the opcode, the mnemonic and the reserved-zero mask (30_encoding.md R83). -/
structure OpRow where
  opcode : Nat
  mnemonic : String
  reserved : Word
deriving DecidableEq, Repr

/-- The 24 assigned opcodes with their reserved-zero masks, as 30_encoding.md R83 prints them. -/
def opcodeMap : List OpRow :=
  [⟨0x00, "NOP", 0x03FFFFFF⟩, ⟨0x01, "GF.LI", 0x00003FFF⟩, ⟨0x02, "GF.ADD", 0x00003FFF⟩,
   ⟨0x03, "GF.MUL", 0x00003FFF⟩, ⟨0x04, "GF.DIV", 0x00003FFF⟩, ⟨0x05, "GF.INV", 0x0003FFFF⟩,
   ⟨0x06, "GF.EXP", 0x0003FFFF⟩, ⟨0x07, "GF.LOG", 0x0003FFFF⟩] ++
  [⟨0x10, "BB.CLR", 0x03FFFFFF⟩, ⟨0x11, "BB.APP", 0x001F0000⟩, ⟨0x12, "BB.APPR", 0x0001FFFF⟩,
   ⟨0x13, "BB.RD", 0x001F8000⟩, ⟨0x18, "RS.GEN", 0x03FC1FFF⟩, ⟨0x19, "RS.ENC", 0x00001FFF⟩,
   ⟨0x1A, "RS.SYN", 0x00001FFF⟩, ⟨0x20, "SER.HDR", 0x00FFFFFF⟩] ++
  [⟨0x21, "SER.ALN", 0x03FFFFFF⟩, ⟨0x22, "SER.PAD", 0x03FFFFFF⟩, ⟨0x28, "BLK.ECC", 0x03FFFFFF⟩,
   ⟨0x29, "BLK.WEAVE", 0x03FFFFFF⟩, ⟨0x30, "PL.INIT", 0x03FFFFFF⟩, ⟨0x31, "PL.PLACE", 0x03FFFFFF⟩,
   ⟨0x32, "PL.MASK", 0x007FFFFF⟩, ⟨0x33, "PL.FMT", 0x007FFFFF⟩]

/-- Row `r` selects word `w`: `w & mask = match`, with `match = opcode << 26` and
`mask = 0xFC000000 | reserved-zero mask` (30_encoding.md R83). -/
def OpRow.selects (r : OpRow) (w : Word) : Bool :=
  w &&& (0xFC000000 ||| r.reserved) == BitVec.ofNat 32 (r.opcode * 2 ^ 26)

/-- A decoded instruction, unless a reserved-zero bit is set: `zeros` lists the fields that must be 0, each as
(hi, lo) (30_encoding.md R81, R86). -/
def unlessReserved (w : Word) (zeros : List (Nat × Nat)) (i : Instr) : Except DecodeError Instr :=
  if zeros.all (fun z => slice w z.1 z.2 == 0) then .ok i else .error .reservedBits

/-- The register number in `w[lo+3:lo]` (30_encoding.md R82). -/
def regField (w : Word) (lo : Nat) : Fin 16 := Fin.ofNat 16 (slice w (lo + 3) lo)

/-- The mode in `w[25:24]` (30_encoding.md R82). -/
def modeField (w : Word) : EncMode :=
  match slice w 25 24 with
  | 0 => .numeric
  | 1 => .alphaNumeric
  | 2 => .byte
  | _ => .kanji

/-- The mask number in `w[25:23]` (30_encoding.md R82). -/
def maskField (w : Word) : Fin 8 := Fin.ofNat 8 (slice w 25 23)

/-- Format N: `[25:0] = 0` (30_encoding.md R81). -/
def decodeN (w : Word) (i : Instr) : Except DecodeError Instr := unlessReserved w [(25, 0)] i

/-- Format R: rd, ra, rb, `[13:0] = 0` (30_encoding.md R81). -/
def decodeR (w : Word) (mk : Fin 16 → Fin 16 → Fin 16 → Instr) : Except DecodeError Instr :=
  unlessReserved w [(13, 0)] (mk (regField w 22) (regField w 18) (regField w 14))

/-- Format R1: rd, ra, `[17:0] = 0` (30_encoding.md R81). -/
def decodeR1 (w : Word) (mk : Fin 16 → Fin 16 → Instr) : Except DecodeError Instr :=
  unlessReserved w [(17, 0)] (mk (regField w 22) (regField w 18))

/-- Format RE: n, e, `[12:0] = 0` (30_encoding.md R81). -/
def decodeRE (w : Word) (mk : Nat → Nat → Instr) : Except DecodeError Instr :=
  unlessReserved w [(12, 0)] (mk (slice w 25 18) (slice w 17 13))

/-- Format PM: m, `[22:0] = 0` (30_encoding.md R81). -/
def decodePM (w : Word) (mk : Fin 8 → Instr) : Except DecodeError Instr :=
  unlessReserved w [(22, 0)] (mk (maskField w))

/-- Decoding a command word: opcode, then reserved bits, then the fields (30_encoding.md R86). -/
def decode (w : Word) : Except DecodeError Instr :=
  match slice w 31 26 with
  | 0x00 => decodeN w .nop
  | 0x01 => unlessReserved w [(13, 0)] (.gfLi (regField w 22) (BitVec.ofNat 8 (slice w 21 14)))
  | 0x02 => decodeR w .gfAdd
  | 0x03 => decodeR w .gfMul
  | 0x04 => decodeR w .gfDiv
  | 0x05 => decodeR1 w .gfInv
  | 0x06 => decodeR1 w .gfExp
  | 0x07 => decodeR1 w .gfLog
  | 0x10 => decodeN w .bbClr
  | 0x11 => unlessReserved w [(20, 16)] (.bbApp (slice w 25 21) (BitVec.ofNat 16 (slice w 15 0)))
  | 0x12 => unlessReserved w [(16, 0)] (.bbAppr (slice w 25 21) (regField w 17))
  | 0x13 => unlessReserved w [(20, 15)] (.bbRd (slice w 25 21) (slice w 14 0))
  | 0x18 => unlessReserved w [(25, 18), (12, 0)] (.rsGen (slice w 17 13))
  | 0x19 => decodeRE w .rsEnc
  | 0x1A => decodeRE w .rsSyn
  | 0x20 => unlessReserved w [(23, 0)] (.serHdr (modeField w))
  | 0x21 => decodeN w .serAln
  | 0x22 => decodeN w .serPad
  | 0x28 => decodeN w .blkEcc
  | 0x29 => decodeN w .blkWeave
  | 0x30 => decodeN w .plInit
  | 0x31 => decodeN w .plPlace
  | 0x32 => decodePM w .plMask
  | 0x33 => decodePM w .plFmt
  | _ => .error .unknownOpcode

/-- The number of an encoding mode (30_encoding.md R82). -/
def EncMode.code : EncMode → Nat
  | .numeric => 0
  | .alphaNumeric => 1
  | .byte => 2
  | .kanji => 3

/-- The opcode of a command (30_encoding.md R83). -/
def Instr.opcode : Instr → Nat
  | .nop => 0x00
  | .gfLi _ _ => 0x01
  | .gfAdd _ _ _ => 0x02
  | .gfMul _ _ _ => 0x03
  | .gfDiv _ _ _ => 0x04
  | .gfInv _ _ => 0x05
  | .gfExp _ _ => 0x06
  | .gfLog _ _ => 0x07
  | .bbClr => 0x10
  | .bbApp _ _ => 0x11
  | .bbAppr _ _ => 0x12
  | .bbRd _ _ => 0x13
  | .rsGen _ => 0x18
  | .rsEnc _ _ => 0x19
  | .rsSyn _ _ => 0x1A
  | .serHdr _ => 0x20
  | .serAln => 0x21
  | .serPad => 0x22
  | .blkEcc => 0x28
  | .blkWeave => 0x29
  | .plInit => 0x30
  | .plPlace => 0x31
  | .plMask _ => 0x32
  | .plFmt _ => 0x33

/-- The operand fields of a command, in place, as one number (30_encoding.md R81). -/
def Instr.operandBits : Instr → Nat
  | .nop => 0
  | .gfLi rd imm8 => rd.val * 2 ^ 22 + imm8.toNat * 2 ^ 14
  | .gfAdd rd ra rb => rd.val * 2 ^ 22 + ra.val * 2 ^ 18 + rb.val * 2 ^ 14
  | .gfMul rd ra rb => rd.val * 2 ^ 22 + ra.val * 2 ^ 18 + rb.val * 2 ^ 14
  | .gfDiv rd ra rb => rd.val * 2 ^ 22 + ra.val * 2 ^ 18 + rb.val * 2 ^ 14
  | .gfInv rd ra => rd.val * 2 ^ 22 + ra.val * 2 ^ 18
  | .gfExp rd ra => rd.val * 2 ^ 22 + ra.val * 2 ^ 18
  | .gfLog rd ra => rd.val * 2 ^ 22 + ra.val * 2 ^ 18
  | .bbClr => 0
  | .bbApp n imm16 => n * 2 ^ 21 + imm16.toNat
  | .bbAppr n ra => n * 2 ^ 21 + ra.val * 2 ^ 17
  | .bbRd n pos => n * 2 ^ 21 + pos
  | .rsGen d => d * 2 ^ 13
  | .rsEnc n e => n * 2 ^ 18 + e * 2 ^ 13
  | .rsSyn n e => n * 2 ^ 18 + e * 2 ^ 13
  | .serHdr mode => mode.code * 2 ^ 24
  | .serAln => 0
  | .serPad => 0
  | .blkEcc => 0
  | .blkWeave => 0
  | .plInit => 0
  | .plPlace => 0
  | .plMask m => m.val * 2 ^ 23
  | .plFmt m => m.val * 2 ^ 23

/-- The command word of a well-formed instruction (30_encoding.md R81, R83). -/
def encode (i : Instr) : Word := BitVec.ofNat 32 (i.opcode * 2 ^ 26 + i.operandBits)

/-- The instruction read from the table's row bits. A command is one 32-bit word written to CMD in one access, bit n
of the bus being bit n of the word (20_memory.md R69, 30_encoding.md R80), so the layout is the number itself;
bits at or above `nbits` are 0. -/
def decodeTableWord (nbits w : Nat) : Option Instr := (decode (BitVec.ofNat 32 (w % 2 ^ nbits))).toOption

end Sys2Proof
end

