-- ==== Sys2Proof/Config.lean ====
section
/-! DEFINITION. What the spec leaves to the platform or leaves free: constants with no value. Nothing can be
proved about what they are, so every claim holds whatever they are. (The parameters of 00_scope.md R6 that have a
value stand where they are used: the field in Machine/Gf.lean, the sizes in Machine/Memory.lean.) -/

namespace Sys2Proof.Config

/-- CORE_BASE, OPEN: where the core window sits in the host's physical address space (20_memory.md R60; log 10). -/
opaque coreBase : Nat

/-- IRQ_ROUTING, OPEN: which platform interrupt input IRQ drives (00_scope.md R6, 60_exceptions.md R257; log 10). -/
opaque irqRouting : Nat

/-- IRQ_ROUTING, OPEN: the priority IRQ has at that platform input (00_scope.md R6, 60_exceptions.md R257; log 10). -/
opaque irqPriority : Nat

/-- The word a read returns while BUSY = 1, at an offset whose read is unspecified (70_reset_and_hazards.md R287;
log 4). The argument is the draw number. -/
opaque busyRead : Nat → Word

/-- Which depth, between the old and the new one, a STATUS read shows while BUSY = 1 (70_reset_and_hazards.md R287;
log 5). The argument is the draw number. -/
opaque busyDepth : Nat → Nat

/-- Whether a write of an abandoned command had happened (70_reset_and_hazards.md R283; log 6). The arguments are
the draw number, the number of the write in the command's order, and the buffer element. -/
opaque abandonedWriteHappened : Nat → Nat → Nat → Bool

end Sys2Proof.Config
end

