-- ==== Sys2Proof/Machine/State.lean ====
section
/-! DEFINITION. The state of the core: plain data, everything spec/ gives the machine (10_state.md), the inputs of
the outside world, the reasons to stop, and the state after reset (10_state.md R49). -/

namespace Sys2Proof.Machine

/-- STATUS.ERRCODE's values (60_exceptions.md R250). Codes 13-15 are never produced (93_implementation_defined.md
U21), so they have no constructor. -/
inductive ErrCode where
  | none
  | illegalCommand
  | divisionByZero
  | logOfZero
  | invalidGeneratorDegree
  | invalidLength
  | bitBufferOverflow
  | bitBufferRange
  | invalidVersionRecord
  | unimplemented
  | invalidCharacter
  | capacityExceeded
  | sequenceError
deriving DecidableEq, Repr

/-- The five buffers (10_state.md R40-R44). -/
inductive Buf where
  | charbuf
  | bitbuf
  | eccbuf
  | cwbuf
  | mat
deriving DecidableEq, Repr

/-- What one buffer holds: (element index, value) pairs, indexes rising, no entry equal to what an unlisted index
reads as (`Memory.wf`). The index of MAT[r][c] is 256·r + c (20_memory.md R62). -/
abbrev Memory := List Host.Cell

/-- The contents of the five buffers. A MAT cell uses the low 3 bits of its byte (10_state.md R44). -/
structure Buffers where
  charbuf : Memory
  bitbuf : Memory
  eccbuf : Memory
  cwbuf : Memory
  mat : Memory
deriving DecidableEq, Repr

/-- One atomic step of an agent (00_scope.md R12, 20_memory.md R72). -/
inductive Input where
  /-- the host reads `size` bytes at byte offset `offset` of the core window (00_scope.md R8) -/
  | read (size offset : Nat)
  /-- the host writes `size` bytes at byte offset `offset` of the core window (00_scope.md R8) -/
  | write (size offset : Nat) (value : Word)
  /-- power-on or the reset input; `content` is MEM_RESET_CONTENT (70_reset_and_hazards.md R280, R282) -/
  | hardReset (content : Buffers)
  /-- the executor has the turn: it completes the accepted command, if there is one (46_control.md R242; log 1) -/
  | executor
deriving DecidableEq, Repr

/-- The bus response to the last host access (00_scope.md R13, 20_memory.md R61; log 8). -/
inductive BusResponse where
  /-- no access yet -/
  | idle
  /-- the access was performed; `data` is what a read returned, 0 for a write -/
  | performed (data : Word)
  /-- a bus error: the access had no effect, and a read returned 0 -/
  | busError
deriving DecidableEq, Repr

/-- Why a step could stop with a fault: never. Every error of the core is a recorded result after which the machine
goes on (60_exceptions.md R252), a bus error is a bus response (R260), and no command gets stuck
(93_implementation_defined.md U27), so this type has no constructor. -/
inductive Fault where
deriving DecidableEq, Repr

/-- Why a step could be refused. -/
inductive Refusal where
  /-- raised by exec's arm of an instruction that has no meaning yet; safe. No arm raises it in this model. -/
  | notModelled (mnemonic : String)
deriving DecidableEq, Repr

/-- The machine (10_state.md; INVENTORY.md lists each field with its rule and width). -/
structure State where
  /-- g0 … g15 (R21) -/
  g : Vector Byte 16
  /-- SYN[0] … SYN[31] (R37) -/
  syn : Vector Byte 32
  /-- CTRL.IE_DONE (R23) -/
  ieDone : Bool
  /-- CTRL.IE_ERR (R23) -/
  ieErr : Bool
  /-- PEND, none when invalid; STATUS.BUSY is 1 exactly when it is valid (R45; log 12) -/
  pend : Option Word
  /-- STATUS.DONE (R24) -/
  done : Bool
  /-- STATUS.ERR (R24) -/
  err : Bool
  /-- STATUS.ERRCODE (R24) -/
  errcode : ErrCode
  /-- STATUS.SYNZ (R24) -/
  synz : Bool
  /-- STATUS.DROP (R24) -/
  drop : Bool
  /-- STATUS.OVR (R24) -/
  ovr : Bool
  /-- RESULT[15:0] (R26) -/
  result : BitVec 16
  /-- ERRCMD (R27) -/
  errcmd : Word
  /-- CMDCNT (R36) -/
  cmdcnt : Word
  /-- VREC0.VERSION (R28) -/
  version : BitVec 6
  /-- VREC0.LEVEL (R28) -/
  level : BitVec 2
  /-- VREC0.ECCPB (R28) -/
  eccpb : BitVec 5
  /-- VREC1.G1BLK (R29) -/
  g1blk : Byte
  /-- VREC1.G1SZ (R29) -/
  g1sz : Byte
  /-- VREC1.G2BLK (R29) -/
  g2blk : Byte
  /-- VREC1.G2SZ (R29) -/
  g2sz : Byte
  /-- CHARLEN (R30) -/
  charLen : BitVec 14
  /-- BB_LEN (R31) -/
  bbLen : BitVec 16
  /-- RS_SRC (R32) -/
  rsSrc : BitVec 12
  /-- RS_DST (R33) -/
  rsDst : BitVec 12
  /-- CW_LEN (R34) -/
  cwLen : BitVec 13
  /-- MATVER (R35) -/
  matVer : BitVec 6
  /-- the generator cache: GEN[1], …, GEN[GEN_DEPTH], most significant coefficient first; GEN[0] = [1] is a constant
  and STATUS.GEN_DEPTH is the length (R38; log 11) -/
  genCache : List (List Byte)
  /-- CHARBUF, BITBUF, ECCBUF, CWBUF, MAT (R40-R44) -/
  bufs : Buffers
  /-- the model's own: what the agents still do, in order (log 1, 7) -/
  inputs : List Input
  /-- the model's own: the response to the last host access (log 8) -/
  bus : BusResponse
  /-- the model's own: the number of the next free value (log 7) -/
  draws : Nat
  /-- the model's own: the largest GEN_DEPTH read while the present command is in flight (log 5) -/
  depthSeen : Nat
deriving DecidableEq, Repr

/-- Right after hard reset (10_state.md R49, 70_reset_and_hazards.md R280), with MEM_RESET_CONTENT all zero (log 3)
and nothing in the inputs (log 7). -/
def State.reset : State where
  g := Vector.replicate 16 0
  syn := Vector.replicate 32 0
  ieDone := false
  ieErr := false
  pend := none
  done := false
  err := false
  errcode := .none
  synz := false
  drop := false
  ovr := false
  result := 0
  errcmd := 0
  cmdcnt := 0
  version := 0
  level := 0
  eccpb := 0
  g1blk := 0
  g1sz := 0
  g2blk := 0
  g2sz := 0
  charLen := 0
  bbLen := 0
  rsSrc := 0
  rsDst := 0
  cwLen := 0
  matVer := 0
  genCache := []
  bufs := ⟨[], [], [], [], []⟩
  inputs := []
  bus := .idle
  draws := 0
  depthSeen := 0

end Sys2Proof.Machine
end

