-- ==== Sys2Proof/Machine/Memory.lean ====
section
/-! DEFINITION. The buffers as sparse memories in one canonical form: read, write and clear one buffer
(20_memory.md R64, R70). -/

namespace Sys2Proof.Machine

/-- What an element that nothing has written reads as: after hard reset the spec leaves it open
(MEM_RESET_CONTENT); see log 3 for the choice and for the reset input, which takes any content. -/
def unlistedByte : Byte := 0

/-- The canonical form: indexes strictly rising, and no entry equal to what an unlisted index reads as. -/
abbrev Memory.wf (m : Memory) : Prop :=
  m.Pairwise (fun c d => c.1 < d.1) ∧ ∀ c ∈ m, c.2 ≠ unlistedByte

/-- The element at index `i`. -/
def Memory.read (m : Memory) (i : Nat) : Byte :=
  match m with
  | [] => unlistedByte
  | (a, v) :: r => if a = i then v else Memory.read r i

/-- Put the entry `(i, v)` before the first entry with a larger index. -/
def Memory.insert (m : Memory) (i : Nat) (v : Byte) : Memory :=
  match m with
  | [] => [(i, v)]
  | (a, w) :: r => if i < a then (i, v) :: (a, w) :: r else (a, w) :: Memory.insert r i v

/-- Store `v` at index `i`: the old entry goes, and a new one comes unless it would equal `unlistedByte`. -/
def Memory.write (m : Memory) (i : Nat) (v : Byte) : Memory :=
  let rest := m.filter (fun c => c.1 != i)
  if v = unlistedByte then rest else Memory.insert rest i v

/-- Store 0 at every index that `took` names. -/
def Memory.clear (m : Memory) (took : Nat → Bool) : Memory := m.filter (fun c => !took c.1)

/-- The number of elements of a buffer (00_scope.md R6, 20_memory.md R62). -/
def bufSize : Buf → Nat
  | .charbuf => 8192
  | .bitbuf => 4096
  | .eccbuf => 4096
  | .cwbuf => 4096
  | .mat => 65536

/-- The bits an element of a buffer has: 8, and 3 for a MAT cell (20_memory.md R64). -/
def bufMask : Buf → Byte
  | .charbuf => 0xFF
  | .bitbuf => 0xFF
  | .eccbuf => 0xFF
  | .cwbuf => 0xFF
  | .mat => 0x07

/-- One buffer's memory. -/
def Buffers.get (bs : Buffers) : Buf → Memory
  | .charbuf => bs.charbuf
  | .bitbuf => bs.bitbuf
  | .eccbuf => bs.eccbuf
  | .cwbuf => bs.cwbuf
  | .mat => bs.mat

/-- Replace one buffer's memory. -/
def Buffers.set (bs : Buffers) (b : Buf) (m : Memory) : Buffers :=
  match b with
  | .charbuf => { bs with charbuf := m }
  | .bitbuf => { bs with bitbuf := m }
  | .eccbuf => { bs with eccbuf := m }
  | .cwbuf => { bs with cwbuf := m }
  | .mat => { bs with mat := m }

/-- Every buffer is in canonical form, inside its size, and holds values of its elements' width. -/
abbrev Buffers.wf (bs : Buffers) : Prop :=
  (Memory.wf bs.charbuf ∧ ∀ c ∈ bs.charbuf, c.1 < 8192) ∧ (Memory.wf bs.bitbuf ∧ ∀ c ∈ bs.bitbuf, c.1 < 4096) ∧
  (Memory.wf bs.eccbuf ∧ ∀ c ∈ bs.eccbuf, c.1 < 4096) ∧ (Memory.wf bs.cwbuf ∧ ∀ c ∈ bs.cwbuf, c.1 < 4096) ∧
  (Memory.wf bs.mat ∧ ∀ c ∈ bs.mat, c.1 < 65536 ∧ c.2 &&& 0x07 = c.2)

/-- `BUF[i]`: one element of a buffer (00_scope.md R8). -/
def State.cell (s : State) (b : Buf) (i : Nat) : Byte := Memory.read (s.bufs.get b) i &&& bufMask b

/-- `BUF[i] <- v`: the low bits of `v` that the element has (00_scope.md R8, 20_memory.md R64). -/
def State.putCell (s : State) (b : Buf) (i : Nat) (v : Byte) : State :=
  { s with bufs := s.bufs.set b (Memory.write (s.bufs.get b) i (v &&& bufMask b)) }

/-- Store 0 in every element of a buffer that `took` names. -/
def State.clearBuf (s : State) (b : Buf) (took : Nat → Bool) : State :=
  { s with bufs := s.bufs.set b (Memory.clear (s.bufs.get b) took) }

/-- A memory image brought into canonical form: entries outside the buffer are dropped, values are cut to the
element's width, and of two entries for one element the first counts (log 15). -/
def canonMemory (b : Buf) (m : Memory) : Memory :=
  m.foldr (fun c acc => if c.1 < bufSize b then Memory.write acc c.1 (c.2 &&& bufMask b) else acc) []

/-- MEM_RESET_CONTENT as buffers in canonical form (70_reset_and_hazards.md R282; log 15). -/
def canonBuffers (bs : Buffers) : Buffers where
  charbuf := canonMemory .charbuf bs.charbuf
  bitbuf := canonMemory .bitbuf bs.bitbuf
  eccbuf := canonMemory .eccbuf bs.eccbuf
  cwbuf := canonMemory .cwbuf bs.cwbuf
  mat := canonMemory .mat bs.mat

end Sys2Proof.Machine
end

