-- ==== Sys2Proof/Machine/Operands.lean ====
section
/-! DEFINITION. What commands read: g registers, bits of the bit buffer, runs of buffer elements, matrix cells and the
names derived from the version record (00_scope.md R8, R11, 10_state.md R47, 42_bitbuf.md R140). -/

namespace Sys2Proof.Machine

/-- `g[i]` (10_state.md R21). -/
def State.reg (s : State) (i : Fin 16) : Byte := s.g[i]

/-- The low `n` bits of a value (42_bitbuf.md R144, R145). -/
def lowBits (n v : Nat) : Nat := v % 2 ^ n

/-- Bit `k` of a byte counted from the most significant end: bit `7 - k` (00_scope.md R11). -/
def msbBit (v : Byte) (k : Nat) : Bool := v.getLsbD (7 - k)

/-- A byte with that bit written. -/
def setMsbBit (v : Byte) (k : Nat) (b : Bool) : Byte :=
  if b then v ||| (1#8 <<< (7 - k)) else v &&& ~~~(1#8 <<< (7 - k))

/-- Bit `i` of the bit buffer, MSB-first (42_bitbuf.md R140, 20_memory.md R66). -/
def State.bbBit (s : State) (i : Nat) : Bool := msbBit (s.cell .bitbuf (i / 8)) (i % 8)

/-- The number whose bits, most significant first, are the `n` bits of the buffer from `pos` on
(42_bitbuf.md R146). -/
def State.bbBits (s : State) (pos : Nat) : Nat → Nat
  | 0 => 0
  | n + 1 => 2 * s.bbBits pos n + (s.bbBit (pos + n)).toNat

/-- The `n` elements of a buffer from index `start` on. -/
def State.cells (s : State) (b : Buf) (start n : Nat) : List Byte :=
  (List.range n).map (fun k => s.cell b (start + k))

/-- The index of MAT[r][c] (20_memory.md R62). -/
def matIndex (r c : Nat) : Nat := 256 * r + c

/-- DARK, bit 0 of a cell (10_state.md R44). -/
def DARK : Byte := 1

/-- FUNC, bit 1 of a cell (10_state.md R44). -/
def FUNC : Byte := 2

/-- RSVD, bit 2 of a cell (10_state.md R44). -/
def RSVD : Byte := 4

/-- `MAT[r][c]` (00_scope.md R8). -/
def State.matCell (s : State) (r c : Nat) : Byte := s.cell .mat (matIndex r c)

/-- `MAT[r][c].FUNC` (10_state.md R44). -/
def State.isFunc (s : State) (r c : Nat) : Bool := (s.matCell r c).getLsbD 1

/-- V (10_state.md R47). -/
def State.V (s : State) : Nat := s.version.toNat

/-- ECCPB (10_state.md R47). -/
def State.ECCPB (s : State) : Nat := s.eccpb.toNat

/-- NBLK = G1BLK + G2BLK (10_state.md R47). -/
def State.NBLK (s : State) : Nat := s.g1blk.toNat + s.g2blk.toNat

/-- SIZE(b) (10_state.md R47). -/
def State.SIZE (s : State) (b : Nat) : Nat := if b < s.g1blk.toNat then s.g1sz.toNat else s.g2sz.toNat

/-- OFF(b), the sum of SIZE(k) for k < b (10_state.md R47). -/
def State.OFF (s : State) : Nat → Nat
  | 0 => 0
  | b + 1 => s.OFF b + s.SIZE b

/-- DATA_TOTAL (10_state.md R47). -/
def State.DATA_TOTAL (s : State) : Nat := s.g1blk.toNat * s.g1sz.toNat + s.g2blk.toNat * s.g2sz.toNat

/-- CAPBITS = 8 · DATA_TOTAL (10_state.md R47). -/
def State.CAPBITS (s : State) : Nat := 8 * s.DATA_TOTAL

/-- The symbol side N = 4·V + 17 (10_state.md R47, 45_placement.md R200). -/
def sideOf (V : Nat) : Nat := 4 * V + 17

/-- N of the record in use (10_state.md R47). -/
def State.N (s : State) : Nat := sideOf s.V

/-- A(V), the modules that alignment patterns take from the data (45_placement.md R209). -/
def alignModules (V : Nat) : Nat := if V < 2 then 0 else (25 * (V / 7 + 2) - 10) * (V / 7 + 2) - 55

/-- DATAMOD(V), the number of data modules, by the closed form of 45_placement.md R209. -/
def dataMod (V : Nat) : Nat := (16 * V + 128) * V + 64 - alignModules V - (if 7 ≤ V then 36 else 0)

/-- RAWCW(V) = ⌊DATAMOD(V)/8⌋ for V in 1 … 40 (44_blocks.md R182). -/
def rawCw (V : Nat) : Nat := dataMod V / 8

/-- The record passes `vrec_check` (44_blocks.md R181). -/
def State.vrecOk (s : State) : Bool :=
  decide (1 ≤ s.V) && decide (s.V ≤ 40) && decide (1 ≤ s.ECCPB) && decide (s.ECCPB ≤ 30) &&
  decide (1 ≤ s.g1blk.toNat) && decide (1 ≤ s.g1sz.toNat) &&
  (decide (s.g2blk.toNat = 0) || decide (s.g2sz.toNat = s.g1sz.toNat + 1)) &&
  decide (s.NBLK * s.ECCPB + s.DATA_TOTAL = rawCw s.V)

/-- GEN[d] as the cache holds it; GEN[0] = [1] always (10_state.md R38). -/
def cachedGen (cache : List (List Byte)) (d : Nat) : List Byte := ([1] :: cache).getD d [0]

end Sys2Proof.Machine
end

