-- ==== Sys2Proof/Machine/Flags.lean ====
section
/-! DEFINITION. The flags of STATUS and CTRL as software sees them, and the IRQ line (10_state.md R23, R24, R46,
60_exceptions.md R250). The core has no arithmetic flags (10_state.md R48). -/

namespace Sys2Proof.Machine

/-- The number of an error code (60_exceptions.md R250). -/
def ErrCode.code : ErrCode → Nat
  | .none => 0
  | .illegalCommand => 1
  | .divisionByZero => 2
  | .logOfZero => 3
  | .invalidGeneratorDegree => 4
  | .invalidLength => 5
  | .bitBufferOverflow => 6
  | .bitBufferRange => 7
  | .invalidVersionRecord => 8
  | .unimplemented => 9
  | .invalidCharacter => 10
  | .capacityExceeded => 11
  | .sequenceError => 12

/-- STATUS.BUSY: PEND is valid (10_state.md R45). -/
def State.busy (s : State) : Bool := s.pend.isSome

/-- STATUS.GEN_DEPTH: the highest degree cached (10_state.md R24, R38). -/
def State.genDepth (s : State) : Nat := s.genCache.length

/-- The word a STATUS read shows, with a given GEN_DEPTH (10_state.md R24). -/
def State.statusWith (s : State) (depth : Nat) : Word :=
  BitVec.ofNat 32 (s.busy.toNat + s.done.toNat * 2 ^ 1 + s.err.toNat * 2 ^ 2 + s.synz.toNat * 2 ^ 3 +
    s.errcode.code * 2 ^ 4 + depth % 32 * 2 ^ 8 + s.drop.toNat * 2 ^ 13 + s.ovr.toNat * 2 ^ 14)

/-- STATUS (10_state.md R24). -/
def State.statusWord (s : State) : Word := s.statusWith s.genDepth

/-- CTRL as it reads: SRST reads 0 (10_state.md R23). -/
def State.ctrlWord (s : State) : Word := BitVec.ofNat 32 (s.ieDone.toNat * 2 ^ 1 + s.ieErr.toNat * 2 ^ 2)

/-- The IRQ output (10_state.md R46, 60_exceptions.md R257). -/
def State.irq (s : State) : Bool := (s.done && s.ieDone) || (s.err && s.ieErr)

/-- The platform's view of IRQ: the input it drives, its priority there, and its level (00_scope.md R6,
60_exceptions.md R257; log 10). -/
def State.platformIrq (s : State) : Nat × Nat × Bool := (Config.irqRouting, Config.irqPriority, s.irq)

/-- SYNZ's value: every computed syndrome is 0 (41_rs.md R132). -/
def allZero (l : List Byte) : Bool := l.all (fun v => v == 0)

end Sys2Proof.Machine
end

