-- ==== Sys2Proof/Machine/Ops.lean ====
section
/-! DEFINITION. The shared operations: the writes a command makes, the end of a command with its two outcomes
(completed, or error: the core's "trap entry"), clearing an error (the "trap return"), accepting a command, and
reset (00_scope.md R13, 46_control.md R241, R242, 60_exceptions.md R252, R255, 70_reset_and_hazards.md R281). -/

namespace Sys2Proof.Machine

/-- One write of a command. A command is a list of these, made in order, all or none (00_scope.md R13). -/
inductive Write where
  /-- `g[r] <- v` (40_gf.md) -/
  | greg (r : Fin 16) (v : Byte)
  /-- SYN[0..31], all at once (41_rs.md R132) -/
  | syndromes (v : Vector Byte 32)
  /-- STATUS.SYNZ (41_rs.md R132) -/
  | synz (b : Bool)
  /-- RESULT[15:0] (42_bitbuf.md R146) -/
  | result (v : BitVec 16)
  /-- BB_LEN (42_bitbuf.md R141) -/
  | bbLen (n : Nat)
  /-- CW_LEN (44_blocks.md R185) -/
  | cwLen (n : Nat)
  /-- MATVER (45_placement.md R210) -/
  | matVer (n : Nat)
  /-- the generator cache after an extension (41_rs.md R126) -/
  | genCache (c : List (List Byte))
  /-- `setbit(i, b)` of the bit buffer (42_bitbuf.md R141) -/
  | bit (i : Nat) (b : Bool)
  /-- `BUF[i] <- v` (00_scope.md R8) -/
  | put (buf : Buf) (i : Nat) (v : Byte)
  /-- every element of a buffer `<- 0` (42_bitbuf.md R143, 45_placement.md R210) -/
  | clear (buf : Buf)
deriving DecidableEq, Repr

/-- Make one write. `took i` says whether it happens at buffer element `i`: always, but for a command that a reset
abandons (70_reset_and_hazards.md R283). -/
def Write.apply (took : Nat → Bool) (s : State) : Write → State
  | .greg r v => { s with g := s.g.set r v }
  | .syndromes v => { s with syn := v }
  | .synz b => { s with synz := b }
  | .result v => { s with result := v }
  | .bbLen n => { s with bbLen := BitVec.ofNat 16 n }
  | .cwLen n => { s with cwLen := BitVec.ofNat 13 n }
  | .matVer n => { s with matVer := BitVec.ofNat 6 n }
  | .genCache c => { s with genCache := c }
  | .bit i b =>
    if took (i / 8) then s.putCell .bitbuf (i / 8) (setMsbBit (s.cell .bitbuf (i / 8)) (i % 8) b) else s
  | .put b i v => if took i then s.putCell b i v else s
  | .clear b => s.clearBuf b took

/-- Make all of a command's writes, in order. -/
def applyAll (s : State) (ws : List Write) : State := ws.foldl (Write.apply (fun _ => true)) s

/-- Make some of a command's writes: write number `k` at element `i` when `took k i`. -/
def applySome (took : Nat → Nat → Bool) (s : State) : Nat → List Write → State
  | _, [] => s
  | k, w :: ws => applySome took (w.apply (took k) s) (k + 1) ws

/-- Writes of consecutive elements. -/
def putRun (b : Buf) (start : Nat) : List Byte → List Write
  | [] => []
  | v :: vs => .put b start v :: putRun b (start + 1) vs

/-- Completion: BUSY <- 0, DONE <- 1, CMDCNT + 1 modulo 2^32 (46_control.md R242). -/
def complete (s : State) : State := { s with pend := none, done := true, cmdcnt := s.cmdcnt + 1 }

/-- The core's "trap entry": record error `e` and complete; nothing else is saved or changed
(60_exceptions.md R252). ERRCMD takes PEND, which is valid whenever a command runs (log 12). -/
def raise (e : ErrCode) (s : State) : State :=
  complete { s with err := true, errcode := e, errcmd := s.pend.getD 0 }

/-- The core's "trap return": a W1C write of STATUS.ERR (60_exceptions.md R255). -/
def clearError (s : State) : State := { s with err := false, errcode := .none, errcmd := 0 }

/-- The end of a command: all its writes and completion, or its error and none of them
(00_scope.md R13, 46_control.md R242). -/
def commit (s : State) : Except ErrCode (List Write) → Host.Outcome State Fault Refusal
  | .ok ws => .next (complete (applyAll s ws))
  | .error e => .next (raise e s)

/-- Acceptance of a command word offered at CMD: OVR while BUSY, DROP while ERR, else it is latched
(46_control.md R241). -/
def offer (w : Word) (s : State) : State :=
  if s.busy then { s with ovr := true }
  else if s.err then { s with drop := true }
  else { s with pend := some w, depthSeen := 0 }

/-- Every register at its reset value, with given buffers; what the outside world still does stays
(10_state.md R49). -/
def resetRegs (bufs : Buffers) (s : State) : State :=
  { State.reset with bufs := bufs, inputs := s.inputs, bus := s.bus, draws := s.draws }

/-- Hard reset; the buffers take MEM_RESET_CONTENT (70_reset_and_hazards.md R280, R282). -/
def hardReset (content : Buffers) (s : State) : State := resetRegs (canonBuffers content) s

end Sys2Proof.Machine
end

