-- ==== Sys2Proof/Machine/Gf.lean ====
section
/-! DEFINITION. The field GF(256) and the GF family (40_gf.md). -/

namespace Sys2Proof.Machine

/-- The antilog ROM, one row of 16 entries a line as 40_gf.md R100 prints it, first entry most significant. -/
def alogRows : List Nat :=
  [0x01020408102040801D3A74E8CD871326,
   0x4C982D5AB475EAC98F03060C183060C0,
   0x9D274E9C254A94356AD4B577EEC19F23,
   0x468C050A142850A05DBA69D2B96FDEA1,
   0x5FBE61C2992F5EBC65CA890F1E3C78F0,
   0xFDE7D3BB6BD6B17FFEE1DFA35BB671E2,
   0xD9AF4386112244880D1A3468D0BD67CE,
   0x811F3E7CF8EDC7933B76ECC5973366CC,
   0x85172E5CB86DDAA94F9E214284152A54,
   0xA84D9A2952A455AA49923972E4D5B773,
   0xE6D1BF63C6913F7EFCE5D7B37BF6F1FF,
   0xE3DBAB4B963162C495376EDCA557AE41,
   0x82193264C88D070E1C3870E0DDA753A6,
   0x51A259B279F2F9EFC39B2B56AC458A09,
   0x122448903D7AF4F5F7F3FBEBCB8B0B16,
   0x2C58B07DFAE9CF831B366CD8AD478E01]

/-- The log ROM in the same layout (40_gf.md R100). The place of LOG[0], which has no value, is never read. -/
def logRows : List Nat :=
  [0x0000011902321AC603DF33EE1B68C74B,
   0x0464E00E348DEF811CC169F8C8084C71,
   0x058A652FE1240F2135938EDAF0128245,
   0x1DB5C27D6A27F9B9C99A09784DE472A6,
   0x06BF8B6266DD30FDE29825B310912288,
   0x36D094CE8F96DBBDF1D2135C83384640,
   0x1E42B6A3C3487E6E6B3A2854FA85BA3D,
   0xCA5E9B9F0A15792B4ED4E5AC73F3A757,
   0x0770C0F78C80630D674ADEED31C5FE18,
   0xE3A5997726B8B47C114492D92320892E,
   0x373FD15B95BCCFCD908797B2DCFCBE61,
   0xF256D3AB142A5D9E843C3953476D41A2,
   0x1F2D43D8B77BA476C41749EC7F0C6FF6,
   0x6CA13B52299D55AAFB6086B1BBCC3E5A,
   0xCB595FB09CA9A0510BF516EB7A752CD7,
   0x4FAED5E9E6E7ADE874D6F4EAA85058AF]

/-- Entry `i` of a ROM of 16 rows of 16 bytes. -/
def romByte (rows : List Nat) (i : Nat) : Nat := rows.getD (i / 16) 0 >>> (8 * (15 - i % 16)) % 256

/-- ALOG[i], i in 0 … 255 (40_gf.md R100). -/
def alog (i : Nat) : Byte := BitVec.ofNat 8 (romByte alogRows i)

/-- LOG[a], which has no value at 0 (40_gf.md R100). -/
def glog (a : Byte) : Option Nat := if a = 0 then none else some (romByte logRows a.toNat)

/-- One step of the recurrence that defines ALOG, multiplication by the primitive element 0x02 modulo the field
polynomial 0x11D (40_gf.md R100). -/
def xtime (v : Byte) : Byte := if v.getLsbD 7 then (v <<< 1) ^^^ 0x1D else v <<< 1

/-- Addition and subtraction (40_gf.md R101). -/
def gadd (a b : Byte) : Byte := a ^^^ b

/-- Multiplication (40_gf.md R102). -/
def gmul (a b : Byte) : Byte :=
  match glog a, glog b with
  | some x, some y => alog ((x + y) % 255)
  | _, _ => 0

/-- Division; the divisor is tested first (40_gf.md R103). -/
def gdiv (a b : Byte) : Except ErrCode Byte :=
  match glog b, glog a with
  | none, _ => .error .divisionByZero
  | some _, none => .ok 0
  | some y, some x => .ok (alog ((x + 255 - y) % 255))

/-- Inverse (40_gf.md R104). -/
def ginv (a : Byte) : Except ErrCode Byte :=
  match glog a with
  | none => .error .divisionByZero
  | some x => .ok (alog (255 - x))

/-- GF.LI (40_gf.md R106). -/
def planGfLi (rd : Fin 16) (imm8 : Byte) (_ : State) : Except ErrCode (List Write) := .ok [.greg rd imm8]

/-- GF.ADD (40_gf.md R107). -/
def planGfAdd (rd ra rb : Fin 16) (s : State) : Except ErrCode (List Write) :=
  .ok [.greg rd (gadd (s.reg ra) (s.reg rb))]

/-- GF.MUL (40_gf.md R108). -/
def planGfMul (rd ra rb : Fin 16) (s : State) : Except ErrCode (List Write) :=
  .ok [.greg rd (gmul (s.reg ra) (s.reg rb))]

/-- GF.DIV (40_gf.md R109). -/
def planGfDiv (rd ra rb : Fin 16) (s : State) : Except ErrCode (List Write) :=
  (gdiv (s.reg ra) (s.reg rb)).map (fun v => [.greg rd v])

/-- GF.INV (40_gf.md R110). -/
def planGfInv (rd ra : Fin 16) (s : State) : Except ErrCode (List Write) :=
  (ginv (s.reg ra)).map (fun v => [.greg rd v])

/-- GF.EXP (40_gf.md R111). -/
def planGfExp (rd ra : Fin 16) (s : State) : Except ErrCode (List Write) :=
  .ok [.greg rd (alog (s.reg ra).toNat)]

/-- GF.LOG (40_gf.md R112). -/
def planGfLog (rd ra : Fin 16) (s : State) : Except ErrCode (List Write) :=
  match glog (s.reg ra) with
  | none => .error .logOfZero
  | some x => .ok [.greg rd (BitVec.ofNat 8 x)]

/-- The meaning of GF.LI. -/
def execGfLi (rd : Fin 16) (imm8 : Byte) (s : State) : Host.Outcome State Fault Refusal :=
  commit s (planGfLi rd imm8 s)

/-- The meaning of GF.ADD. -/
def execGfAdd (rd ra rb : Fin 16) (s : State) : Host.Outcome State Fault Refusal :=
  commit s (planGfAdd rd ra rb s)

/-- The meaning of GF.MUL. -/
def execGfMul (rd ra rb : Fin 16) (s : State) : Host.Outcome State Fault Refusal :=
  commit s (planGfMul rd ra rb s)

/-- The meaning of GF.DIV. -/
def execGfDiv (rd ra rb : Fin 16) (s : State) : Host.Outcome State Fault Refusal :=
  commit s (planGfDiv rd ra rb s)

/-- The meaning of GF.INV. -/
def execGfInv (rd ra : Fin 16) (s : State) : Host.Outcome State Fault Refusal := commit s (planGfInv rd ra s)

/-- The meaning of GF.EXP. -/
def execGfExp (rd ra : Fin 16) (s : State) : Host.Outcome State Fault Refusal := commit s (planGfExp rd ra s)

/-- The meaning of GF.LOG. -/
def execGfLog (rd ra : Fin 16) (s : State) : Host.Outcome State Fault Refusal := commit s (planGfLog rd ra s)

end Sys2Proof.Machine
end

