-- ==== Sys2Proof/Machine/Poly.lean ====
section
/-! DEFINITION. Polynomials over the field, the generator polynomials, ECC and syndromes
(41_rs.md R120-R127, R131). A polynomial is a list of coefficients, most significant first (00_scope.md R10). -/

namespace Sys2Proof.Machine

/-- `norm(p)`: no leading zeros, at least one coefficient (41_rs.md R120). -/
def norm : List Byte → List Byte
  | [] => [0]
  | a :: r => if a = 0 then norm r else a :: r

/-- Zeros on the high-degree side up to length `n` (41_rs.md R121, R127). -/
def padTo (n : Nat) (p : List Byte) : List Byte := List.replicate (n - p.length) 0 ++ p

/-- `padd(a, b)` (41_rs.md R121). -/
def padd (a b : List Byte) : List Byte :=
  norm (List.zipWith gadd (padTo (max a.length b.length) a) (padTo (max a.length b.length) b))

/-- `pmulmono(p, deg, c)` (41_rs.md R122). -/
def pmulmono (p : List Byte) (deg : Nat) (c : Byte) : List Byte :=
  if c = 0 then [0] else norm (p.map (fun x => gmul x c) ++ List.replicate deg 0)

/-- Coefficient `k` of the convolution of `a` and `b`, both most significant first: the sum over `i + j = k`. -/
def convCoeff (a b : List Byte) (k : Nat) : Byte :=
  (List.range (k + 1)).foldl (fun acc i => gadd acc (gmul (a.getD i 0) (b.getD (k - i) 0))) 0

/-- `pmul(a, b)`, full convolution (41_rs.md R123). -/
def pmul (a b : List Byte) : List Byte :=
  norm ((List.range (a.length + b.length - 1)).map (convCoeff a b))

/-- The loop of synthetic division by `d`, whose leading coefficient has inverse `t`: at most `fuel` passes
(41_rs.md R124; each pass lowers the degree of `r`, so `p.length` passes are enough, log 16). -/
def pdivLoop (d : List Byte) (t : Byte) : Nat → List Byte → List Byte → List Byte × List Byte
  | 0, q, r => (q, r)
  | fuel + 1, q, r =>
    if r = [0] ∨ r.length < d.length then (q, r)
    else
      let k := r.length - d.length
      let c := gmul (r.headD 0) t
      pdivLoop d t fuel (padd q (pmulmono [1] k c)) (padd r (pmulmono d k c))

/-- `pdivrem(p, d)` (41_rs.md R124). -/
def pdivrem (p d : List Byte) : Except ErrCode (List Byte × List Byte) :=
  match ginv ((norm d).headD 0) with
  | .error e => .error e
  | .ok t => .ok (pdivLoop (norm d) t p.length [0] (norm p))

/-- The generator polynomial of degree d, as a function of d (41_rs.md R125). -/
def generator : Nat → List Byte
  | 0 => [1]
  | d + 1 => pmul (generator d) [1, alog d]

/-- `k` more entries of the generator cache (41_rs.md R126). -/
def growCache : Nat → List (List Byte) → List (List Byte)
  | 0, c => c
  | k + 1, c => growCache k (c ++ [pmul (cachedGen c c.length) [1, alog c.length]])

/-- `extend(d)` (41_rs.md R126). -/
def extendCache (c : List (List Byte)) (d : Nat) : List (List Byte) := growCache (d - c.length) c

/-- `rs_ecc(data, e)` with the generator `gen` of degree e (41_rs.md R127). -/
def rsEcc (data : List Byte) (e : Nat) (gen : List Byte) : Except ErrCode (List Byte) :=
  (pdivrem (pmulmono (norm data) e 1) gen).map (fun qr => padTo e qr.2)

/-- S_j of a received block, by Horner's rule (41_rs.md R131). -/
def syndrome (c : List Byte) (j : Nat) : Byte := c.foldl (fun acc x => gadd (gmul acc (alog j)) x) 0

end Sys2Proof.Machine
end

