-- ==== Sys2Proof/Machine/Blk.lean ====
section
/-! DEFINITION. The block assembler and interleave scheduler family (44_blocks.md). -/

namespace Sys2Proof.Machine

/-- The data slice of block b (44_blocks.md R183). -/
def blockData (s : State) (b : Nat) : List Byte := s.cells .bitbuf (s.OFF b) (s.SIZE b)

/-- The ECC writes of the listed blocks, with the generator `gen` (44_blocks.md R184). -/
def blockEccWrites (s : State) (gen : List Byte) : List Nat → Except ErrCode (List Write)
  | [] => .ok []
  | b :: bs =>
    match rsEcc (blockData s b) s.ECCPB gen, blockEccWrites s gen bs with
    | .ok ecc, .ok ws => .ok (putRun .eccbuf (b * s.ECCPB) ecc ++ ws)
    | .error e, _ => .error e
    | _, .error e => .error e

/-- BLK.ECC (44_blocks.md R184). -/
def planBlkEcc (s : State) : Except ErrCode (List Write) :=
  if s.vrecOk = false then .error .invalidVersionRecord
  else if s.bbLen.toNat ≠ s.CAPBITS then .error .sequenceError
  else
    let cache := extendCache s.genCache s.ECCPB
    (blockEccWrites s (cachedGen cache s.ECCPB) (List.range s.NBLK)).map (fun ws => .genCache cache :: ws)

/-- The longest block's size (44_blocks.md R186). -/
def maxSize (s : State) : Nat := (List.range s.NBLK).foldl (fun m b => max m (s.SIZE b)) 0

/-- `interleave()`: data columns, skipping blocks that have run out, then ECC columns (44_blocks.md R186). -/
def interleave (s : State) : List Byte :=
  ((List.range (maxSize s)).flatMap fun col =>
    (List.range s.NBLK).flatMap fun b => if col < s.SIZE b then [s.cell .bitbuf (s.OFF b + col)] else []) ++
  ((List.range s.ECCPB).flatMap fun col =>
    (List.range s.NBLK).map fun b => s.cell .eccbuf (b * s.ECCPB + col))

/-- BLK.WEAVE (44_blocks.md R185). -/
def planBlkWeave (s : State) : Except ErrCode (List Write) :=
  if s.vrecOk = false then .error .invalidVersionRecord
  else if s.bbLen.toNat ≠ s.CAPBITS then .error .sequenceError
  else .ok (putRun .cwbuf 0 (interleave s) ++ [.cwLen (interleave s).length])

/-- The meaning of BLK.ECC. -/
def execBlkEcc (s : State) : Host.Outcome State Fault Refusal := commit s (planBlkEcc s)

/-- The meaning of BLK.WEAVE. -/
def execBlkWeave (s : State) : Host.Outcome State Fault Refusal := commit s (planBlkWeave s)

end Sys2Proof.Machine
end

