-- ==== Sys2Proof/Machine/Control.lean ====
section
/-! DEFINITION. The command control family (46_control.md). -/

namespace Sys2Proof.Machine

/-- NOP: no effect beyond the command cycle (46_control.md R240). -/
def planNop (_ : State) : Except ErrCode (List Write) := .ok []

/-- The meaning of NOP. -/
def execNop (s : State) : Host.Outcome State Fault Refusal := commit s (planNop s)

end Sys2Proof.Machine
end

