-- ==== Sys2Proof/Machine/Pl.lean ====
section
/-! DEFINITION. The symbol placement family (45_placement.md). -/

namespace Sys2Proof.Machine

/-- `MAT[r][c] <- v`. -/
def putMat (r c : Nat) (v : Byte) : Write := .put .mat (matIndex r c) v

/-- Draw a function module (45_placement.md R201). -/
def drawModule (r c : Nat) (dark : Bool) : Write := putMat r c (if dark then FUNC ||| DARK else FUNC)

/-- Reserve a module (45_placement.md R201). -/
def reserveModule (rc : Nat × Nat) : Write := putMat rc.1 rc.2 (FUNC ||| RSVD)

/-- `align_pos(V)` (45_placement.md R202). -/
def alignPos (V : Nat) : List Nat :=
  if V = 1 then []
  else
    let last := sideOf V - 7
    let cnt := (last - 6 + 27) / 28 + 1
    let rounded := (2 * (last - 6) + (cnt - 1)) / (2 * (cnt - 1))
    let step := if rounded % 2 = 1 then rounded + 1 else rounded
    6 :: ((List.range (cnt - 1)).map (fun k => last - k * step)).reverse

/-- The timing patterns (45_placement.md R203). -/
def drawTiming (N : Nat) : List Write :=
  (List.range N).flatMap fun i => [drawModule 6 i (i % 2 == 0), drawModule i 6 (i % 2 == 0)]

/-- The Chebyshev distance of (i, j) from (k, k): max(|i - k|, |j - k|). -/
def chebyshev (k i j : Nat) : Nat := max (max i k - min i k) (max j k - min j k)

/-- One finder pattern with its separator; cells outside the symbol are skipped. `i` and `j` are dr + 4 and dc + 4
(45_placement.md R204). -/
def drawFinder (N cr cc : Nat) : List Write :=
  (List.range 9).flatMap fun i => (List.range 9).flatMap fun j =>
    if 4 ≤ cr + i ∧ cr + i - 4 < N ∧ 4 ≤ cc + j ∧ cc + j - 4 < N then
      [drawModule (cr + i - 4) (cc + j - 4) (chebyshev 4 i j != 2 && chebyshev 4 i j != 4)]
    else []

/-- The three finders (45_placement.md R204). -/
def drawFinders (N : Nat) : List Write := drawFinder N 3 3 ++ drawFinder N 3 (N - 4) ++ drawFinder N (N - 4) 3

/-- One alignment pattern; `i` and `j` are dr + 2 and dc + 2 (45_placement.md R205). -/
def drawAlignment (pr pc : Nat) : List Write :=
  (List.range 5).flatMap fun i => (List.range 5).map fun j =>
    drawModule (pr + i - 2) (pc + j - 2) (chebyshev 2 i j != 1)

/-- The alignment patterns, but for the three that fall on finders (45_placement.md R205). -/
def drawAlignments (V : Nat) : List Write :=
  let P := alignPos V
  let n := P.length
  (List.range n).flatMap fun a => (List.range n).flatMap fun b =>
    if (a = 0 ∧ b = 0) ∨ (a = 0 ∧ b = n - 1) ∨ (a = n - 1 ∧ b = 0) then []
    else drawAlignment (P.getD a 0) (P.getD b 0)

/-- Where bit i of the format word goes, copy A (45_placement.md R206). -/
def copyA (i : Nat) : Nat × Nat :=
  if i ≤ 5 then (i, 8)
  else if i = 6 then (7, 8)
  else if i = 7 then (8, 8)
  else if i = 8 then (8, 7)
  else (8, 14 - i)

/-- Where bit i of the format word goes, copy B (45_placement.md R206). -/
def copyB (N i : Nat) : Nat × Nat := if i ≤ 7 then (8, N - 1 - i) else (N - 15 + i, 8)

/-- Where bit i of the version word goes, first copy (45_placement.md R208). -/
def verA (N i : Nat) : Nat × Nat := (i / 3, N - 11 + i % 3)

/-- Where bit i of the version word goes, second copy (45_placement.md R208). -/
def verB (N i : Nat) : Nat × Nat := (N - 11 + i % 3, i / 3)

/-- Reserve both format copies (45_placement.md R206). -/
def reserveFormat (N : Nat) : List Write :=
  (List.range 15).flatMap fun i => [reserveModule (copyA i), reserveModule (copyB N i)]

/-- Reserve both version copies (45_placement.md R208). -/
def reserveVersion (N : Nat) : List Write :=
  (List.range 18).flatMap fun i => [reserveModule (verA N i), reserveModule (verB N i)]

/-- The function patterns of version V, in the normative order (45_placement.md R201, R210). -/
def functionPatterns (V : Nat) : List Write :=
  drawTiming (sideOf V) ++ drawFinders (sideOf V) ++ drawAlignments V ++ reserveFormat (sideOf V) ++
  [drawModule (sideOf V - 8) 8 true] ++ (if 7 ≤ V then reserveVersion (sideOf V) else [])

/-- PL.INIT (45_placement.md R210). -/
def planPlInit (s : State) : Except ErrCode (List Write) :=
  if s.vrecOk = false then .error .invalidVersionRecord
  else .ok (.clear .mat :: functionPatterns s.V ++ [.matVer s.V])

/-- One column pair of the sweep: the right column before the left one in each row (45_placement.md R211). -/
def zigzagPair (s : State) (N right : Nat) : List (Nat × Nat) :=
  (List.range N).flatMap fun vert =>
    let row := if (right + 1) / 2 % 2 = 0 then N - 1 - vert else vert
    [(row, right), (row, right - 1)].filter (fun rc => !s.isFunc rc.1 rc.2)

/-- The sweep from column `right` on, in at most `fuel` pairs (45_placement.md R211). -/
def zigzagFrom (s : State) (N : Nat) : Nat → Nat → List (Nat × Nat)
  | 0, _ => []
  | fuel + 1, right =>
    if right < 1 then []
    else
      let right := if right = 6 then 5 else right
      zigzagPair s N right ++ zigzagFrom s N fuel (right - 2)

/-- `zigzag(N)`: the data cells in placement order (45_placement.md R211). -/
def zigzag (s : State) (N : Nat) : List (Nat × Nat) := zigzagFrom s N N (N - 1)

/-- `mask_cond(m, i, j)` (45_placement.md R212). -/
def maskCond (m : Fin 8) (i j : Nat) : Bool :=
  match m with
  | 0 => (i + j) % 2 == 0
  | 1 => i % 2 == 0
  | 2 => j % 3 == 0
  | 3 => (i + j) % 3 == 0
  | 4 => (i / 2 + j / 3) % 2 == 0
  | 5 => i * j % 2 + i * j % 3 == 0
  | 6 => (i * j % 2 + i * j % 3) % 2 == 0
  | 7 => ((i + j) % 2 + i * j % 3) % 2 == 0

/-- The bits of codewords, most significant first (20_memory.md R67). -/
def codewordBits (cw : List Byte) : List Bool := cw.flatMap fun v => (List.range 8).map (msbBit v)

/-- PL.PLACE (45_placement.md R213). -/
def planPlPlace (s : State) : Except ErrCode (List Write) :=
  if s.vrecOk = false then .error .invalidVersionRecord
  else if s.matVer.toNat ≠ s.V then .error .sequenceError
  else
    let cells := zigzag s s.N
    if cells.length < 8 * s.cwLen.toNat then .error .invalidLength
    else .ok (cells.map (fun rc => putMat rc.1 rc.2 0) ++
      List.zipWith (fun rc b => putMat rc.1 rc.2 (if b then DARK else 0)) cells
        (codewordBits (s.cells .cwbuf 0 s.cwLen.toNat)))

/-- PL.MASK (45_placement.md R214). -/
def planPlMask (m : Fin 8) (s : State) : Except ErrCode (List Write) :=
  if s.vrecOk = false then .error .invalidVersionRecord
  else if s.matVer.toNat ≠ s.V then .error .sequenceError
  else .ok ((List.range s.N).flatMap fun r => (List.range s.N).flatMap fun c =>
    if !s.isFunc r c && maskCond m r c then [putMat r c (s.matCell r c ^^^ DARK)] else [])

/-- The level bits of the format word (45_placement.md R215). -/
def fmtLevel (level : BitVec 2) : Nat :=
  match level.toNat with
  | 0 => 0b01
  | 1 => 0b00
  | 2 => 0b11
  | _ => 0b10

/-- `k` passes of the check-bit division: `rem <- (rem << 1) xor ((rem >> top) · poly)`
(45_placement.md R215, R216). -/
def bchRem (top poly : Nat) : Nat → Nat → Nat
  | 0, rem => rem
  | k + 1, rem => bchRem top poly k ((rem <<< 1) ^^^ ((rem >>> top) * poly))

/-- `fmt_word(LEVEL, m)` (45_placement.md R215). -/
def fmtWord (level : BitVec 2) (m : Fin 8) : Nat :=
  let data := fmtLevel level * 8 + m.val
  (data * 1024 + bchRem 9 0x537 10 data % 1024) ^^^ 0x5412

/-- `ver_word(V)` (45_placement.md R216). -/
def verWord (V : Nat) : Nat := V * 4096 + bchRem 11 0x1F25 12 V % 4096

/-- Write bit `i` of `w` into a format or version cell; RSVD goes (45_placement.md R217). -/
def writeInfoBit (w i : Nat) (rc : Nat × Nat) : Write := drawModule rc.1 rc.2 (w.testBit i)

/-- PL.FMT (45_placement.md R217). -/
def planPlFmt (m : Fin 8) (s : State) : Except ErrCode (List Write) :=
  if s.vrecOk = false then .error .invalidVersionRecord
  else if s.matVer.toNat ≠ s.V then .error .sequenceError
  else
    let f := fmtWord s.level m
    let w := verWord s.V
    .ok (((List.range 15).flatMap fun i => [writeInfoBit f i (copyA i), writeInfoBit f i (copyB s.N i)]) ++
      (if 7 ≤ s.V then
        (List.range 18).flatMap fun i => [writeInfoBit w i (verA s.N i), writeInfoBit w i (verB s.N i)]
      else []))

/-- A cell of the symbol as the source's tag: reserved, dark or light, as (reserved, dark)
(45_placement.md R219, 10_state.md R44). -/
def State.moduleTag (s : State) (r c : Nat) : Bool × Bool := ((s.matCell r c).getLsbD 2, (s.matCell r c).getLsbD 0)

/-- The meaning of PL.INIT. -/
def execPlInit (s : State) : Host.Outcome State Fault Refusal := commit s (planPlInit s)

/-- The meaning of PL.PLACE. -/
def execPlPlace (s : State) : Host.Outcome State Fault Refusal := commit s (planPlPlace s)

/-- The meaning of PL.MASK. -/
def execPlMask (m : Fin 8) (s : State) : Host.Outcome State Fault Refusal := commit s (planPlMask m s)

/-- The meaning of PL.FMT. -/
def execPlFmt (m : Fin 8) (s : State) : Host.Outcome State Fault Refusal := commit s (planPlFmt m s)

end Sys2Proof.Machine
end

