-- ==== Sys2Proof/Machine/Rs.lean ====
section
/-! DEFINITION. The RS family (41_rs.md R128-R134). -/

namespace Sys2Proof.Machine

/-- RS.GEN (41_rs.md R128). -/
def planRsGen (d : Nat) (s : State) : Except ErrCode (List Write) :=
  if d < 1 ∨ 30 < d then .error .invalidGeneratorDegree
  else .ok [.genCache (extendCache s.genCache d)]

/-- `rs_check(n, e)`, the operand checks of RS.ENC and RS.SYN in order: the error, if there is one
(41_rs.md R130). -/
def rsCheck (n e : Nat) (s : State) : Option ErrCode :=
  if e < 1 ∨ 30 < e then some .invalidGeneratorDegree
  else if n = 0 then some .invalidLength
  else if 4096 < s.rsSrc.toNat + n then some .invalidLength
  else if 4096 < s.rsDst.toNat + e then some .invalidLength
  else none

/-- RS.ENC (41_rs.md R129). -/
def planRsEnc (n e : Nat) (s : State) : Except ErrCode (List Write) :=
  match rsCheck n e s with
  | some err => .error err
  | none =>
    let cache := extendCache s.genCache e
    (rsEcc (s.cells .bitbuf s.rsSrc.toNat n) e (cachedGen cache e)).map
      (fun ecc => .genCache cache :: putRun .eccbuf s.rsDst.toNat ecc)

/-- The received block of RS.SYN: data from BITBUF, then ECC from ECCBUF (41_rs.md R132). -/
def receivedBlock (n e : Nat) (s : State) : List Byte :=
  s.cells .bitbuf s.rsSrc.toNat n ++ s.cells .eccbuf s.rsDst.toNat e

/-- SYN after RS.SYN: S_j for j < e, then zeros (41_rs.md R132). -/
def syndromes (c : List Byte) (e : Nat) : Vector Byte 32 :=
  Vector.ofFn (fun j : Fin 32 => if j.val < e then syndrome c j.val else 0)

/-- RS.SYN (41_rs.md R132). -/
def planRsSyn (n e : Nat) (s : State) : Except ErrCode (List Write) :=
  match rsCheck n e s with
  | some err => .error err
  | none =>
    let c := receivedBlock n e s
    .ok [.syndromes (syndromes c e), .synz (allZero ((List.range e).map (syndrome c)))]

/-- The meaning of RS.GEN. -/
def execRsGen (d : Nat) (s : State) : Host.Outcome State Fault Refusal := commit s (planRsGen d s)

/-- The meaning of RS.ENC. -/
def execRsEnc (n e : Nat) (s : State) : Host.Outcome State Fault Refusal := commit s (planRsEnc n e s)

/-- The meaning of RS.SYN. -/
def execRsSyn (n e : Nat) (s : State) : Host.Outcome State Fault Refusal := commit s (planRsSyn n e s)

end Sys2Proof.Machine
end

