-- ==== Sys2Proof/Machine/BitBuf.lean ====
section
/-! DEFINITION. The append primitive and the BB family (42_bitbuf.md). -/

namespace Sys2Proof.Machine

/-- The low `n` bits of `v`, most significant first, at bit indexes `start …` (42_bitbuf.md R141). -/
def valueBits (start n v : Nat) : List Write :=
  (List.range n).map (fun j => .bit (start + j) (v.testBit (n - 1 - j)))

/-- Zeros from bit index `p` up to the next byte boundary (42_bitbuf.md R141). -/
def fillBits (p : Nat) : List Write := (List.range ((8 - p % 8) % 8)).map (fun j => .bit (p + j) false)

/-- `append(n, v)` for each (n, v) in turn, at a buffer of `len` bits, and the new BB_LEN (42_bitbuf.md R141). -/
def appends (len : Nat) : List (Nat × Nat) → List Write
  | [] => [.bbLen len]
  | (n, v) :: rest => valueBits len n v ++ fillBits (len + n) ++ appends (len + n) rest

/-- BB.CLR (42_bitbuf.md R143). -/
def planBbClr (_ : State) : Except ErrCode (List Write) := .ok [.clear .bitbuf, .bbLen 0]

/-- BB.APP (42_bitbuf.md R144). -/
def planBbApp (n : Nat) (imm16 : BitVec 16) (s : State) : Except ErrCode (List Write) :=
  if n < 1 ∨ 16 < n then .error .illegalCommand
  else if 32768 < s.bbLen.toNat + n then .error .bitBufferOverflow
  else .ok (appends s.bbLen.toNat [(n, lowBits n imm16.toNat)])

/-- BB.APPR (42_bitbuf.md R145). -/
def planBbAppr (n : Nat) (ra : Fin 16) (s : State) : Except ErrCode (List Write) :=
  if n < 1 ∨ 8 < n then .error .illegalCommand
  else if 32768 < s.bbLen.toNat + n then .error .bitBufferOverflow
  else .ok (appends s.bbLen.toNat [(n, lowBits n (s.reg ra).toNat)])

/-- BB.RD (42_bitbuf.md R146). -/
def planBbRd (n pos : Nat) (s : State) : Except ErrCode (List Write) :=
  if n < 1 ∨ 16 < n then .error .illegalCommand
  else if s.bbLen.toNat < pos + n then .error .bitBufferRange
  else .ok [.result (BitVec.ofNat 16 (s.bbBits pos n))]

/-- The meaning of BB.CLR. -/
def execBbClr (s : State) : Host.Outcome State Fault Refusal := commit s (planBbClr s)

/-- The meaning of BB.APP. -/
def execBbApp (n : Nat) (imm16 : BitVec 16) (s : State) : Host.Outcome State Fault Refusal :=
  commit s (planBbApp n imm16 s)

/-- The meaning of BB.APPR. -/
def execBbAppr (n : Nat) (ra : Fin 16) (s : State) : Host.Outcome State Fault Refusal :=
  commit s (planBbAppr n ra s)

/-- The meaning of BB.RD. -/
def execBbRd (n pos : Nat) (s : State) : Host.Outcome State Fault Refusal := commit s (planBbRd n pos s)

end Sys2Proof.Machine
end

