-- ==== Sys2Proof/Machine/Ser.lean ====
section
/-! DEFINITION. The QR data serializer family (43_serializer.md). -/

namespace Sys2Proof.Machine

/-- `alnum_index(c)` (43_serializer.md R160). -/
def alnumIndex (c : Byte) : Option Nat :=
  if 0x30 ≤ c.toNat ∧ c.toNat ≤ 0x39 then some (c.toNat - 0x30)
  else if 0x41 ≤ c.toNat ∧ c.toNat ≤ 0x5A then some (c.toNat - 0x41 + 10)
  else if c.toNat = 0x20 then some 36
  else if c.toNat = 0x24 then some 37
  else if c.toNat = 0x25 then some 38
  else if c.toNat = 0x2A then some 39
  else if c.toNat = 0x2B then some 40
  else if c.toNat = 0x2D then some 41
  else if c.toNat = 0x2E then some 42
  else if c.toNat = 0x2F then some 43
  else if c.toNat = 0x3A then some 44
  else none

/-- The indexes of a text, or none when a character has none (43_serializer.md R166). -/
def alnumIndexes : List Byte → Option (List Nat)
  | [] => some []
  | c :: cs =>
    match alnumIndex c, alnumIndexes cs with
    | some k, some ks => some (k :: ks)
    | _, _ => none

/-- `ccbits(V)`, alphanumeric mode (43_serializer.md R163). -/
def ccbits (V : Nat) : Nat := if V < 10 then 9 else if V < 27 then 11 else 13

/-- The alphanumeric mode indicator (43_serializer.md R162). -/
def alnumIndicator : Nat := 0b0010

/-- The payload of a text's indexes as appends: 11 bits a pair, 6 bits for a last one (43_serializer.md R166). -/
def payload : List Nat → List (Nat × Nat)
  | a :: b :: rest => (11, a * 45 + b) :: payload rest
  | [a] => [(6, a)]
  | [] => []

/-- The payload size of n characters (43_serializer.md R169). -/
def payloadSize (n : Nat) : Nat := 11 * (n / 2) + 6 * (n % 2)

/-- `count` pad bytes, the first one 0xEC when `even` (43_serializer.md R167). -/
def padBytes (even : Bool) : Nat → List (Nat × Nat)
  | 0 => []
  | count + 1 => (8, if even then 0xEC else 0x11) :: padBytes (!even) count

/-- The appends of SER.PAD at `len` bits with capacity `cap`: terminator, alignment, pad bytes
(43_serializer.md R167). -/
def padding (len cap : Nat) : List (Nat × Nat) :=
  let t := min 4 (cap - len)
  let a := (8 - (len + t) % 8) % 8
  (if 0 < t then [(t, 0)] else []) ++ (if a ≠ 0 then [(a, 0)] else []) ++ padBytes true ((cap - (len + t + a)) / 8)

/-- SER.HDR (43_serializer.md R165). -/
def planSerHdr (mode : EncMode) (s : State) : Except ErrCode (List Write) :=
  if mode ≠ .alphaNumeric then .error .unimplemented
  else if s.vrecOk = false then .error .invalidVersionRecord
  else if 2 ^ ccbits s.V ≤ s.charLen.toNat then .error .capacityExceeded
  else if s.CAPBITS < s.bbLen.toNat + 4 + ccbits s.V then .error .capacityExceeded
  else .ok (appends s.bbLen.toNat [(4, alnumIndicator), (ccbits s.V, s.charLen.toNat)])

/-- SER.ALN (43_serializer.md R166). -/
def planSerAln (s : State) : Except ErrCode (List Write) :=
  if s.vrecOk = false then .error .invalidVersionRecord
  else
    match alnumIndexes (s.cells .charbuf 0 s.charLen.toNat) with
    | none => .error .invalidCharacter
    | some ks =>
      if s.CAPBITS < s.bbLen.toNat + payloadSize s.charLen.toNat then .error .capacityExceeded
      else .ok (appends s.bbLen.toNat (payload ks))

/-- SER.PAD (43_serializer.md R167). -/
def planSerPad (s : State) : Except ErrCode (List Write) :=
  if s.vrecOk = false then .error .invalidVersionRecord
  else if s.CAPBITS < s.bbLen.toNat then .error .capacityExceeded
  else .ok (appends s.bbLen.toNat (padding s.bbLen.toNat s.CAPBITS))

/-- The meaning of SER.HDR. -/
def execSerHdr (mode : EncMode) (s : State) : Host.Outcome State Fault Refusal := commit s (planSerHdr mode s)

/-- The meaning of SER.ALN. -/
def execSerAln (s : State) : Host.Outcome State Fault Refusal := commit s (planSerAln s)

/-- The meaning of SER.PAD. -/
def execSerPad (s : State) : Host.Outcome State Fault Refusal := commit s (planSerPad s)

end Sys2Proof.Machine
end

