-- ==== Sys2Proof/Machine/Plan.lean ====
section
/-! DEFINITION. What the command in flight will do: its writes, or its error (00_scope.md R13). A STATUS read while
BUSY and a reset while BUSY depend on it (70_reset_and_hazards.md R283, R287). -/

namespace Sys2Proof.Machine

/-- The writes of a command, or its error. -/
def plan (i : Instr) (s : State) : Except ErrCode (List Write) :=
  match i with
  | .nop => planNop s
  | .gfLi rd imm8 => planGfLi rd imm8 s
  | .gfAdd rd ra rb => planGfAdd rd ra rb s
  | .gfMul rd ra rb => planGfMul rd ra rb s
  | .gfDiv rd ra rb => planGfDiv rd ra rb s
  | .gfInv rd ra => planGfInv rd ra s
  | .gfExp rd ra => planGfExp rd ra s
  | .gfLog rd ra => planGfLog rd ra s
  | .bbClr => planBbClr s
  | .bbApp n imm16 => planBbApp n imm16 s
  | .bbAppr n ra => planBbAppr n ra s
  | .bbRd n pos => planBbRd n pos s
  | .rsGen d => planRsGen d s
  | .rsEnc n e => planRsEnc n e s
  | .rsSyn n e => planRsSyn n e s
  | .serHdr mode => planSerHdr mode s
  | .serAln => planSerAln s
  | .serPad => planSerPad s
  | .blkEcc => planBlkEcc s
  | .blkWeave => planBlkWeave s
  | .plInit => planPlInit s
  | .plPlace => planPlPlace s
  | .plMask m => planPlMask m s
  | .plFmt m => planPlFmt m s

end Sys2Proof.Machine
end

