-- ==== Sys2Proof/Machine/Bus.lean ====
section
/-! DEFINITION. Host bus accesses: the address map, reads, writes, soft reset, and what holds while BUSY
(20_memory.md, 10_state.md R22-R37, 70_reset_and_hazards.md R281-R288). -/

namespace Sys2Proof.Machine

/-- What an aligned offset of the window names (20_memory.md R62). -/
inductive Target where
  | id
  | ctrl
  | status
  | cmd
  | result
  | errcmd
  | cmdcnt
  | vrec0
  | vrec1
  | charLen
  | bbLen
  | rsSrc
  | rsDst
  | cwLen
  | matVer
  | greg (i : Fin 16)
  | syn (j : Fin 32)
  | genram (d k : Nat)
  | element (b : Buf) (i : Nat)
  /-- assigned to nothing: reads 0, ignores writes (R63) -/
  | reserved
deriving DecidableEq, Repr

/-- The registers of offsets 0x000 … 0x03C (20_memory.md R62, 10_state.md R22-R36). -/
def csrTarget (off : Nat) : Target :=
  match off with
  | 0x000 => .id
  | 0x004 => .ctrl
  | 0x008 => .status
  | 0x00C => .cmd
  | 0x010 => .result
  | 0x014 => .errcmd
  | 0x018 => .cmdcnt
  | 0x020 => .vrec0
  | 0x024 => .vrec1
  | 0x028 => .charLen
  | 0x02C => .bbLen
  | 0x030 => .rsSrc
  | 0x034 => .rsDst
  | 0x038 => .cwLen
  | 0x03C => .matVer
  | _ => .reserved

/-- The address map (20_memory.md R62, R63). -/
def target (off : Nat) : Target :=
  if off < 0x40 then csrTarget off
  else if 0x100 ≤ off ∧ off < 0x140 then .greg (Fin.ofNat 16 ((off - 0x100) / 4))
  else if 0x200 ≤ off ∧ off < 0x280 then .syn (Fin.ofNat 32 ((off - 0x200) / 4))
  else if 0x1000 ≤ off ∧ off < 0x2000 then .genram ((off - 0x1000) / 4 / 32) ((off - 0x1000) / 4 % 32)
  else if 0x8000 ≤ off ∧ off < 0x10000 then .element .charbuf ((off - 0x8000) / 4)
  else if 0x10000 ≤ off ∧ off < 0x14000 then .element .bitbuf ((off - 0x10000) / 4)
  else if 0x14000 ≤ off ∧ off < 0x18000 then .element .eccbuf ((off - 0x14000) / 4)
  else if 0x18000 ≤ off ∧ off < 0x1C000 then .element .cwbuf ((off - 0x18000) / 4)
  else if 0x40000 ≤ off ∧ off < 0x80000 then .element .mat ((off - 0x40000) / 4)
  else .reserved

/-- The access is performed, and no bus error: 4 bytes, aligned, inside the window (20_memory.md R60, R61,
93_implementation_defined.md U20). -/
def accessOk (size off : Nat) : Bool := size == 4 && off % 4 == 0 && decide (off < 0x80000)

/-- The host's physical address of a window offset (20_memory.md R60; log 10). -/
def physicalAddress (off : Nat) : Nat := Config.coreBase + off

/-- The GENRAM view of a cache (20_memory.md R68). -/
def genramWord (cache : List (List Byte)) (d k : Nat) : Word :=
  if d ≤ cache.length ∧ k ≤ d then ((cachedGen cache d).getD k 0).setWidth 32 else 0

/-- What a read returns while BUSY = 0 (10_state.md R22-R44, 20_memory.md R62-R64, R68). -/
def readTarget (s : State) : Target → Word
  | .id => 0x51524331
  | .ctrl => s.ctrlWord
  | .status => s.statusWord
  | .cmd => 0
  | .result => s.result.setWidth 32
  | .errcmd => s.errcmd
  | .cmdcnt => s.cmdcnt
  | .vrec0 => BitVec.ofNat 32 (s.version.toNat + s.level.toNat * 2 ^ 8 + s.eccpb.toNat * 2 ^ 16)
  | .vrec1 => BitVec.ofNat 32
      (s.g1blk.toNat + s.g1sz.toNat * 2 ^ 8 + s.g2blk.toNat * 2 ^ 16 + s.g2sz.toNat * 2 ^ 24)
  | .charLen => s.charLen.setWidth 32
  | .bbLen => s.bbLen.setWidth 32
  | .rsSrc => s.rsSrc.setWidth 32
  | .rsDst => s.rsDst.setWidth 32
  | .cwLen => s.cwLen.setWidth 32
  | .matVer => s.matVer.setWidth 32
  | .greg i => (s.reg i).setWidth 32
  | .syn j => (s.syn[j]).setWidth 32
  | .genram d k => genramWord s.genCache d k
  | .element b i => (s.cell b i).setWidth 32
  | .reserved => 0

/-- The writes of the command in flight, none if it will fail (60_exceptions.md R252). -/
def inFlightWrites (s : State) : List Write :=
  match s.pend with
  | none => []
  | some w =>
    match decode w with
    | .error _ => []
    | .ok i =>
      match plan i s with
      | .error _ => []
      | .ok ws => ws

/-- The generator cache once the command in flight is complete. -/
def inFlightCache (s : State) : List (List Byte) := (applyAll s (inFlightWrites s)).genCache

/-- The GEN_DEPTH a STATUS read shows while BUSY: a free value between the depth before and the depth after the
command in flight (70_reset_and_hazards.md R287, 93_implementation_defined.md U12; log 5). -/
def busyDepth (s : State) : Nat :=
  s.genDepth + Config.busyDepth s.draws % ((inFlightCache s).length - s.genDepth + 1)

/-- What a read returns while BUSY = 1 (70_reset_and_hazards.md R287, 20_memory.md R68): exact for ID, CTRL, STATUS
but for GEN_DEPTH, and GENRAM up to the depth seen; else a free value (log 4). -/
def readBusy (s : State) : Target → Word
  | .id => readTarget s .id
  | .ctrl => readTarget s .ctrl
  | .status => s.statusWith (busyDepth s)
  | .genram d k =>
    if d ≤ max s.genDepth s.depthSeen then genramWord (inFlightCache s) d k else Config.busyRead s.draws
  | _ => Config.busyRead s.draws

/-- What a read while BUSY leaves: only the model's own fields move (20_memory.md R65; log 5, 7). -/
def afterBusyRead (s : State) : Target → State
  | .status => { s with draws := s.draws + 1, depthSeen := max s.depthSeen (busyDepth s) }
  | _ => { s with draws := s.draws + 1 }

/-- The word a host access returns: 0 on a bus error (20_memory.md R61). -/
def BusResponse.data : BusResponse → Word
  | .idle => 0
  | .performed v => v
  | .busError => 0

/-- A host read (20_memory.md R61-R65). -/
def hostRead (size off : Nat) (s : State) : State :=
  if accessOk size off = false then { s with bus := .busError }
  else if s.busy then { afterBusyRead s (target off) with bus := .performed (readBusy s (target off)) }
  else { s with bus := .performed (readTarget s (target off)) }

/-- The buffers after a reset, where the command in flight is abandoned: some of its buffer writes have happened, a
free choice (70_reset_and_hazards.md R283, 93_implementation_defined.md U10; log 6). -/
def abandonedBuffers (s : State) : Buffers :=
  (applySome (Config.abandonedWriteHappened s.draws) s 0 (inFlightWrites s)).bufs

/-- Soft reset (70_reset_and_hazards.md R281, R283). -/
def softReset (s : State) : State :=
  { resetRegs (abandonedBuffers s) s with draws := s.draws + 1 }

/-- A write to CTRL (10_state.md R23, 70_reset_and_hazards.md R281). -/
def writeCtrl (v : Word) (s : State) : State :=
  if v.getLsbD 0 then softReset s else { s with ieDone := v.getLsbD 1, ieErr := v.getLsbD 2 }

/-- A write to STATUS: only the W1C bits respond (10_state.md R24, 60_exceptions.md R255). -/
def writeStatus (v : Word) (s : State) : State :=
  let s1 := { s with done := s.done && !v.getLsbD 1, drop := s.drop && !v.getLsbD 13, ovr := s.ovr && !v.getLsbD 14 }
  if v.getLsbD 2 then clearError s1 else s1

/-- What a write does while BUSY = 0, and to CTRL and STATUS always (10_state.md R22-R44, 20_memory.md R62-R65). -/
def writeTarget (v : Word) (s : State) : Target → State
  | .id => s
  | .ctrl => writeCtrl v s
  | .status => writeStatus v s
  | .cmd => offer v s
  | .result => s
  | .errcmd => s
  | .cmdcnt => s
  | .vrec0 => { s with version := v.extractLsb' 0 6, level := v.extractLsb' 8 2, eccpb := v.extractLsb' 16 5 }
  | .vrec1 => { s with g1blk := v.extractLsb' 0 8, g1sz := v.extractLsb' 8 8, g2blk := v.extractLsb' 16 8,
                       g2sz := v.extractLsb' 24 8 }
  | .charLen => if slice v 13 0 ≤ 8192 then { s with charLen := v.extractLsb' 0 14 } else s
  | .bbLen => if slice v 15 0 ≤ 32768 then { s with bbLen := v.extractLsb' 0 16 } else s
  | .rsSrc => { s with rsSrc := v.extractLsb' 0 12 }
  | .rsDst => { s with rsDst := v.extractLsb' 0 12 }
  | .cwLen => if slice v 12 0 ≤ 4096 then { s with cwLen := v.extractLsb' 0 13 } else s
  | .matVer => s
  | .greg i => { s with g := s.g.set i (v.extractLsb' 0 8) }
  | .syn _ => s
  | .genram _ _ => s
  | .element b i => s.putCell b i (v.extractLsb' 0 8)
  | .reserved => s

/-- CTRL and STATUS: the offsets that take writes while BUSY = 1 (70_reset_and_hazards.md R288). -/
def writableBusy : Target → Bool
  | .ctrl => true
  | .status => true
  | _ => false

/-- A host write (20_memory.md R61-R65, 70_reset_and_hazards.md R288). -/
def hostWrite (size off : Nat) (v : Word) (s : State) : State :=
  if accessOk size off = false then { s with bus := .busError }
  else if s.busy && !writableBusy (target off) then { s with ovr := true, bus := .performed 0 }
  else { writeTarget v s (target off) with bus := .performed 0 }

end Sys2Proof.Machine
end

