-- ==== Sys2Proof/Machine/Dispatch.lean ====
section
/-! DEFINITION. One arm per command (30_encoding.md R83). -/

namespace Sys2Proof.Machine

def exec (i : Instr) (s : State) : Host.Outcome State Fault Refusal :=
  match i with
  | .nop => Sys2Proof.Machine.execNop s
  | .gfLi rd imm8 => Sys2Proof.Machine.execGfLi rd imm8 s
  | .gfAdd rd ra rb => Sys2Proof.Machine.execGfAdd rd ra rb s
  | .gfMul rd ra rb => Sys2Proof.Machine.execGfMul rd ra rb s
  | .gfDiv rd ra rb => Sys2Proof.Machine.execGfDiv rd ra rb s
  | .gfInv rd ra => Sys2Proof.Machine.execGfInv rd ra s
  | .gfExp rd ra => Sys2Proof.Machine.execGfExp rd ra s
  | .gfLog rd ra => Sys2Proof.Machine.execGfLog rd ra s
  | .bbClr => Sys2Proof.Machine.execBbClr s
  | .bbApp n imm16 => Sys2Proof.Machine.execBbApp n imm16 s
  | .bbAppr n ra => Sys2Proof.Machine.execBbAppr n ra s
  | .bbRd n pos => Sys2Proof.Machine.execBbRd n pos s
  | .rsGen d => Sys2Proof.Machine.execRsGen d s
  | .rsEnc n e => Sys2Proof.Machine.execRsEnc n e s
  | .rsSyn n e => Sys2Proof.Machine.execRsSyn n e s
  | .serHdr mode => Sys2Proof.Machine.execSerHdr mode s
  | .serAln => Sys2Proof.Machine.execSerAln s
  | .serPad => Sys2Proof.Machine.execSerPad s
  | .blkEcc => Sys2Proof.Machine.execBlkEcc s
  | .blkWeave => Sys2Proof.Machine.execBlkWeave s
  | .plInit => Sys2Proof.Machine.execPlInit s
  | .plPlace => Sys2Proof.Machine.execPlPlace s
  | .plMask m => Sys2Proof.Machine.execPlMask m s
  | .plFmt m => Sys2Proof.Machine.execPlFmt m s

end Sys2Proof.Machine
end

