-- ==== Sys2Proof/Machine/Executor.lean ====
section
/-! DEFINITION. The executor's turn: decode PEND and run it (46_control.md R242, 30_encoding.md R84, R86). -/

namespace Sys2Proof.Machine

/-- The executor's turn. With no command accepted it leaves the state as it is (60_exceptions.md R263; log 13). -/
def executorTurn (s : State) : Host.Outcome State Fault Refusal :=
  match s.pend with
  | none => .next s
  | some w =>
    match decode w with
    | .error _ => .next (raise .illegalCommand s)
    | .ok i => exec i s

/-- One atomic step of the agent that an input names (00_scope.md R12). -/
def perform (a : Input) (s : State) : Host.Outcome State Fault Refusal :=
  match a with
  | .read size off => .next (hostRead size off s)
  | .write size off v => .next (hostWrite size off v s)
  | .hardReset content => .next (hardReset content s)
  | .executor => executorTurn s

/-- The state with word `w` in PEND and the executor next to move (log 2). -/
def latchWord (w : Word) (s : State) : State := { s with pend := some w, inputs := .executor :: s.inputs }

end Sys2Proof.Machine
end

