-- ==== Sys2Proof/Machine/Step.lean ====
section
/-! DEFINITION. One step: the next input, or with none left the executor's turn (20_memory.md R72; log 1). -/

namespace Sys2Proof.Machine

/-- One atomic step of one agent (00_scope.md R12). -/
def step (s : State) : Host.Outcome State Fault Refusal :=
  match s.inputs with
  | [] => executorTurn s
  | a :: rest => perform a { s with inputs := rest }

/-- `s` with the command word in the PEND latch, where the executor takes its next command, and the executor next to
move (46_control.md R242; log 2). -/
def State.withFetchWord (s : State) (nbits w : Nat) : State := latchWord (BitVec.ofNat 32 (w % 2 ^ nbits)) s

end Sys2Proof.Machine
end

