-- ==== Sys2Proof/Safety.lean ====
section
/-! DEFINITION. The vocabulary of the claims: the command cycle and a recorded error as states, the invariant of the
machine, which error codes, registers and buffers a command may touch, appended bits, and the symbol's geometry cell
by cell. -/

namespace Sys2Proof.Machine

/-- The state after a command that wrote nothing: BUSY 0, DONE 1, CMDCNT + 1 (46_control.md R242). -/
def commandCycle (s : State) : State := { s with pend := none, done := true, cmdcnt := s.cmdcnt + 1 }

/-- The state after the command `w` failed with `e` (60_exceptions.md R252). -/
def erred (s : State) (w : Word) (e : ErrCode) : State :=
  { commandCycle s with err := true, errcode := e, errcmd := w }

/-- Running `i` in `s` records the error `e`, and the command word that PEND holds, and writes nothing else. -/
def Raises (i : Instr) (s : State) (e : ErrCode) : Prop := ∀ w, s.pend = some w → exec i s = .next (erred s w e)

/-- A word with opcode `op` decodes to `read w` when the reserved-zero fields `zeros` (each hi, lo) are 0, and its
execution records ILLEGAL_COMMAND when one of them is not (30_encoding.md R81, R84). -/
def DecodesAs (op : Nat) (zeros : List (Nat × Nat)) (read : Word → Instr) : Prop :=
  ∀ w : Word, slice w 31 26 = op →
    ((∀ z ∈ zeros, slice w z.1 z.2 = 0) → decode w = .ok (read w)) ∧
    ((∃ z ∈ zeros, slice w z.1 z.2 ≠ 0) →
      ∀ s : State, s.pend = some w → executorTurn s = .next (erred s w .illegalCommand))

/-- LOG[a] for a ≠ 0 (40_gf.md R100). -/
def logOf (a : Byte) : Nat := (glog a).getD 0

/-- Multiplication of polynomials over GF(2) modulo 0x11D: bit `i` of `b` adds `xtime` applied `i` times to `a`,
for the lowest `n` bits of `b`. -/
def shiftAndAdd (a b : Byte) : Nat → Byte
  | 0 => 0
  | n + 1 => (if b.getLsbD n then xtime^[n] a else 0) ^^^ shiftAndAdd a b n

/-- Every cached entry is the generator polynomial of its degree (10_state.md R38, 41_rs.md R125). -/
def CacheOk (s : State) : Prop := ∀ k, k < s.genCache.length → s.genCache[k]? = some (generator (k + 1))

/-- What holds in every state a run reaches: the buffers are in canonical form, the length registers in range, the
cache coherent, and the error record consistent (60_exceptions.md R254, R255). -/
structure Inv (s : State) : Prop where
  bufs : s.bufs.wf
  bbLen : s.bbLen.toNat ≤ 32768
  charLen : s.charLen.toNat ≤ 8192
  cwLen : s.cwLen.toNat ≤ 4096
  matVer : s.matVer.toNat ≤ 40
  cacheDepth : s.genCache.length ≤ 30
  cacheOk : CacheOk s
  errIdle : s.err = true → s.pend = none
  errCode : s.err = true ↔ s.errcode ≠ .none
  errCmd : s.err = false → s.errcmd = 0

/-- The error codes each command can raise once it is decoded (60_exceptions.md R251, less ILLEGAL_COMMAND where only
decoding raises it). -/
def errorCodes : Instr → List ErrCode
  | .nop => []
  | .gfLi _ _ => []
  | .gfAdd _ _ _ => []
  | .gfMul _ _ _ => []
  | .gfDiv _ _ _ => [.divisionByZero]
  | .gfInv _ _ => [.divisionByZero]
  | .gfExp _ _ => []
  | .gfLog _ _ => [.logOfZero]
  | .bbClr => []
  | .bbApp _ _ => [.illegalCommand, .bitBufferOverflow]
  | .bbAppr _ _ => [.illegalCommand, .bitBufferOverflow]
  | .bbRd _ _ => [.illegalCommand, .bitBufferRange]
  | .rsGen _ => [.invalidGeneratorDegree]
  | .rsEnc _ _ => [.invalidGeneratorDegree, .invalidLength]
  | .rsSyn _ _ => [.invalidGeneratorDegree, .invalidLength]
  | .serHdr _ => [.unimplemented, .invalidVersionRecord, .capacityExceeded]
  | .serAln => [.invalidVersionRecord, .invalidCharacter, .capacityExceeded]
  | .serPad => [.invalidVersionRecord, .capacityExceeded]
  | .blkEcc => [.invalidVersionRecord, .sequenceError]
  | .blkWeave => [.invalidVersionRecord, .sequenceError]
  | .plInit => [.invalidVersionRecord]
  | .plPlace => [.invalidVersionRecord, .sequenceError, .invalidLength]
  | .plMask _ => [.invalidVersionRecord, .sequenceError]
  | .plFmt _ => [.invalidVersionRecord, .sequenceError]

/-- The buffer a command writes, if it writes one (70_reset_and_hazards.md R283). -/
def outputBuffer : Instr → Option Buf
  | .nop => none
  | .gfLi _ _ => none
  | .gfAdd _ _ _ => none
  | .gfMul _ _ _ => none
  | .gfDiv _ _ _ => none
  | .gfInv _ _ => none
  | .gfExp _ _ => none
  | .gfLog _ _ => none
  | .bbClr => some .bitbuf
  | .bbApp _ _ => some .bitbuf
  | .bbAppr _ _ => some .bitbuf
  | .bbRd _ _ => none
  | .rsGen _ => none
  | .rsEnc _ _ => some .eccbuf
  | .rsSyn _ _ => none
  | .serHdr _ => some .bitbuf
  | .serAln => some .bitbuf
  | .serPad => some .bitbuf
  | .blkEcc => some .eccbuf
  | .blkWeave => some .cwbuf
  | .plInit => some .mat
  | .plPlace => some .mat
  | .plMask _ => some .mat
  | .plFmt _ => some .mat

/-- The register a GF command writes (40_gf.md R106-R113). -/
def gfDest : Instr → Option (Fin 16)
  | .gfLi rd _ => some rd
  | .gfAdd rd _ _ => some rd
  | .gfMul rd _ _ => some rd
  | .gfDiv rd _ _ => some rd
  | .gfInv rd _ => some rd
  | .gfExp rd _ => some rd
  | .gfLog rd _ => some rd
  | _ => none

/-- The commands that may extend the generator cache (10_state.md R48). -/
def extendsCache : Instr → Bool
  | .rsGen _ => true
  | .rsEnc _ _ => true
  | .blkEcc => true
  | _ => false

/-- The commands that may write BB_LEN: BB.CLR, BB.APP, BB.APPR and the SER family (10_state.md R31). -/
def writesBbLen : Instr → Bool
  | .bbClr => true
  | .bbApp _ _ => true
  | .bbAppr _ _ => true
  | .serHdr _ => true
  | .serAln => true
  | .serPad => true
  | _ => false

/-- The low `n` bits of `v`, most significant first (00_scope.md R11). -/
def msbFirst (n v : Nat) : List Bool := (List.range n).map (fun j => v.testBit (n - 1 - j))

/-- `t` is `s` after a command that appended `bits` to the bit buffer: the new bits in order, zeros up to the byte
boundary, every other bit, byte and register as before, but for BB_LEN and the command cycle (42_bitbuf.md R141). -/
structure Appended (s t : State) (bits : List Bool) : Prop where
  /-- BB_LEN grows by the number of bits -/
  len : t.bbLen.toNat = s.bbLen.toNat + bits.length
  /-- the new bits, in order -/
  new : ∀ j, j < bits.length → bits[j]? = some (t.bbBit (s.bbLen.toNat + j))
  /-- the rest of the last byte is 0 -/
  fill : bits ≠ [] → ∀ i, s.bbLen.toNat + bits.length ≤ i →
    i < 8 * ((s.bbLen.toNat + bits.length + 7) / 8) → t.bbBit i = false
  /-- the bits before are kept -/
  old : ∀ i, i < s.bbLen.toNat → t.bbBit i = s.bbBit i
  /-- every byte of every buffer but the bytes that hold the new bits is kept -/
  frame : ∀ b i, ¬ (b = Buf.bitbuf ∧ bits ≠ [] ∧ s.bbLen.toNat / 8 ≤ i ∧
    i < (s.bbLen.toNat + bits.length + 7) / 8) → t.cell b i = s.cell b i
  /-- nothing but BITBUF and BB_LEN differs from the command cycle -/
  rest : t = { commandCycle s with bbLen := t.bbLen, bufs := { s.bufs with bitbuf := t.bufs.bitbuf } }

/-- The payload bits of SER.ALN for the listed character indexes (43_serializer.md R166). -/
def payloadBits : List Nat → List Bool
  | a :: b :: rest => msbFirst 11 (a * 45 + b) ++ payloadBits rest
  | [a] => msbFirst 6 a
  | [] => []

/-- The k-th pad byte: 0xEC when k is even, else 0x11 (43_serializer.md R167). -/
def padByte (k : Nat) : Nat := if k % 2 = 0 then 0xEC else 0x11

/-- The bits SER.PAD appends at `len` bits with capacity `cap`: up to 4 zeros, zeros to a byte boundary, then pad
bytes up to capacity (43_serializer.md R167). -/
def padBits (len cap : Nat) : List Bool :=
  let zeros := if len + 4 ≤ cap then (len + 4 + 7) / 8 * 8 - len else cap - len
  List.replicate zeros false ++
    (List.range ((cap - (len + zeros)) / 8)).flatMap (fun k => msbFirst 8 (padByte k))

/-- `|i - j|`. -/
def dist (i j : Nat) : Nat := max i j - min i j

/-- The symbol's module (r, c) lies within Chebyshev distance `d` of (cr, cc). -/
def near (d cr cc r c : Nat) : Bool := decide (dist cr r ≤ d) && decide (dist cc c ≤ d)

/-- A function module's cell, dark or light (45_placement.md R201). -/
def moduleCell (dark : Bool) : Byte := if dark then 3 else 2

/-- The centre of a finder pattern whose 9 × 9 square holds (r, c) (45_placement.md R204). -/
def finderAt (N r c : Nat) : Option (Nat × Nat) :=
  [(3, 3), (3, N - 4), (N - 4, 3)].find? (fun p => near 4 p.1 p.2 r c)

/-- The centre of an alignment pattern whose 5 × 5 square holds (r, c) (45_placement.md R205). -/
def alignmentAt (V r c : Nat) : Option (Nat × Nat) :=
  let P := alignPos V
  ((P.product P).filter (fun p =>
    p != (6, 6) && p != (6, sideOf V - 7) && p != (sideOf V - 7, 6))).find? (fun p => near 2 p.1 p.2 r c)

/-- (r, c) is a format information module (45_placement.md R206). -/
def isFormat (N r c : Nat) : Bool :=
  (c == 8 && (decide (r ≤ 8) && r != 6 || decide (N - 7 ≤ r) && decide (r < N))) ||
  (r == 8 && (decide (c ≤ 8) && c != 6 || decide (N - 8 ≤ c) && decide (c < N)))

/-- (r, c) is a version information module (45_placement.md R208). -/
def isVersionArea (V N r c : Nat) : Bool :=
  decide (7 ≤ V) &&
  ((decide (r < 6) && decide (N - 11 ≤ c) && decide (c < N - 8)) ||
   (decide (c < 6) && decide (N - 11 ≤ r) && decide (r < N - 8)))

/-- What PL.INIT leaves in MAT[r][c] for version V: the pattern drawn last, by cell instead of by pattern
(45_placement.md R200-R210). -/
def initCell (V r c : Nat) : Byte :=
  let N := sideOf V
  if ¬ (r < N ∧ c < N) then 0
  else if isVersionArea V N r c then 6
  else if r = N - 8 ∧ c = 8 then 3
  else if isFormat N r c then 6
  else
    match alignmentAt V r c with
    | some p => moduleCell (max (dist p.1 r) (dist p.2 c) != 1)
    | none =>
      match finderAt N r c with
      | some p => moduleCell (max (dist p.1 r) (dist p.2 c) != 2 && max (dist p.1 r) (dist p.2 c) != 4)
      | none =>
        if r = 6 then moduleCell (c % 2 == 0)
        else if c = 6 then moduleCell (r % 2 == 0)
        else 0

/-- The control and status registers but STATUS, each with its offset and the number an idle read returns: every
field at its place, every other bit 0 (10_state.md R22, R23, R25-R36, 20_memory.md R62). -/
def registerWords (s : State) : List (Nat × Nat) :=
  [(0x000, 0x51524331),
   (0x004, s.ieDone.toNat * 2 ^ 1 + s.ieErr.toNat * 2 ^ 2),
   (0x00C, 0),
   (0x010, s.result.toNat),
   (0x014, s.errcmd.toNat),
   (0x018, s.cmdcnt.toNat),
   (0x020, s.version.toNat + s.level.toNat * 2 ^ 8 + s.eccpb.toNat * 2 ^ 16)] ++
  [(0x024, s.g1blk.toNat + s.g1sz.toNat * 2 ^ 8 + s.g2blk.toNat * 2 ^ 16 + s.g2sz.toNat * 2 ^ 24),
   (0x028, s.charLen.toNat),
   (0x02C, s.bbLen.toNat),
   (0x030, s.rsSrc.toNat),
   (0x034, s.rsDst.toNat),
   (0x038, s.cwLen.toNat),
   (0x03C, s.matVer.toNat)]

/-- The STATUS word `v` shows every flag of `s` at its place but for GEN_DEPTH, and reserved bits as 0
(10_state.md R24, 60_exceptions.md R250). -/
structure ShowsFlags (s : State) (v : Word) : Prop where
  busy : v.getLsbD 0 = s.busy
  done : v.getLsbD 1 = s.done
  err : v.getLsbD 2 = s.err
  synz : v.getLsbD 3 = s.synz
  errcode : slice v 7 4 = s.errcode.code
  drop : v.getLsbD 13 = s.drop
  ovr : v.getLsbD 14 = s.ovr
  reserved : slice v 31 15 = 0

/-- The window offset of element `i` of a buffer (20_memory.md R62). -/
def elementOffset (b : Buf) (i : Nat) : Nat :=
  match b with
  | .charbuf => 0x8000 + 4 * i
  | .bitbuf => 0x10000 + 4 * i
  | .eccbuf => 0x14000 + 4 * i
  | .cwbuf => 0x18000 + 4 * i
  | .mat => 0x40000 + 4 * i

end Sys2Proof.Machine
end

