-- ==== Sys2Proof/Certificates/Slice0/Obligations.lean ====
section
/-! DEFINITION. The statements for the provers. Each docstring names the rules of spec/ it rests on. In every
statement about a command, the equation for the next state is also its frame: whatever the record update does not
name is as in the command cycle, and the command cycle changes only PEND (BUSY), DONE and CMDCNT. -/

open Sys2Proof Sys2Proof.Machine

/-! ## Encoding -/

/-- Command words that the spec prints (30_encoding.md R87, and for blk.weave 44_blocks.md R185) decode to the commands
they stand for. -/
def Obligations.PrintedWordsDecode : Prop :=
  decode 0x00000000 = .ok .nop ∧
  decode 0x0CC48000 = .ok (.gfMul 3 1 2) ∧
  decode 0x15040000 = .ok (.gfInv 4 1) ∧
  decode 0x0454C000 = .ok (.gfLi 1 0x53) ∧
  decode 0x4480000D = .ok (.bbApp 4 0b1101) ∧
  decode 0x49060000 = .ok (.bbAppr 8 3) ∧
  decode 0x4D800000 = .ok (.bbRd 12 0) ∧
  decode 0x60014000 = .ok (.rsGen 10) ∧
  decode 0x64414000 = .ok (.rsEnc 16 10) ∧
  decode 0x81000000 = .ok (.serHdr .alphaNumeric) ∧
  decode 0xA4000000 = .ok .blkWeave ∧
  decode 0xC9000000 = .ok (.plMask 2)

/-- Decoding and encoding are inverse: every well-formed command, with every operand at every value its field admits,
is what its word decodes to, and every word that decodes is the word of a well-formed command
(30_encoding.md R81-R86). -/
def Obligations.DecodingAndEncodingAreInverse : Prop :=
  (∀ i : Instr, i.wf = true → decode (encode i) = .ok i) ∧
  ∀ (w : Word) (i : Instr), decode w = .ok i → i.wf = true ∧ encode i = w

/-- A word decodes exactly when some row of the opcode table selects it by mask and match, and never two rows do
(30_encoding.md R83, R84). -/
def Obligations.LegalWordsAreTheTableRows : Prop :=
  ∀ w : Word, ((∃ i, decode w = .ok i) ↔ ∃ r ∈ opcodeMap, r.selects w = true) ∧
    ∀ r₁ ∈ opcodeMap, ∀ r₂ ∈ opcodeMap, r₁.selects w = true → r₂.selects w = true → r₁ = r₂

/-! ## The command cycle and errors -/

/-- R84: a word that no row of the table selects (unassigned opcode, or a reserved-zero bit set) is accepted when the
host writes it, and its execution records ILLEGAL_COMMAND with no other effect. (bus and depthSeen are the model's own fields; that an input
names the agent that moves is log 1.) -/
def Obligations.IllegalWordIsAcceptedThenRecorded : Prop :=
  ∀ (s : State) (w : Word) (rest : List Input), (∀ r ∈ opcodeMap, r.selects w = false) →
    (s.inputs = .write 4 0x00C w :: rest → s.pend = none → s.err = false →
      step s = .next { s with inputs := rest, bus := .performed 0, pend := some w, depthSeen := 0 }) ∧
    (s.inputs = .executor :: rest → s.pend = some w →
      step s = .next (erred { s with inputs := rest } w .illegalCommand))

/-- When PEND holds a command's word and the executor has the turn (named by the next input, or because no input is
left), a step is `exec` of the decoded command; with no word in PEND the executor's turn changes nothing
(46_control.md R242; the turn of the executor is log 1, the idle turn log 13). -/
def Obligations.StepRunsTheDecodedCommand : Prop :=
  ∀ (s : State) (w : Word) (i : Instr) (rest : List Input), s.pend = some w → decode w = .ok i →
    (s.inputs = .executor :: rest → step s = exec i { s with inputs := rest }) ∧
    (s.inputs = [] → step s = exec i s) ∧
    (s.inputs = .executor :: rest → step { s with pend := none } = .next { s with pend := none, inputs := rest })

/-- R252 and R242: every command, in every state with a word in PEND, answers a next state. Either it records exactly
one error, with PEND in ERRCMD, and writes nothing else; or it completes with the error record as it was. Either way
BUSY is 0, DONE is 1 and CMDCNT has grown by one modulo 2^32. -/
def Obligations.CommandCompletesOrRecordsOneError : Prop :=
  ∀ (i : Instr) (s : State) (w : Word), s.pend = some w →
    (∃ e, e ≠ ErrCode.none ∧ exec i s = .next (erred s w e)) ∨
    (∃ t, exec i s = .next t ∧ t.err = s.err ∧ t.errcode = s.errcode ∧ t.errcmd = s.errcmd ∧
      t.pend = none ∧ t.done = true ∧ t.cmdcnt = s.cmdcnt + 1)

/-- The codes a decoded command can record are those of the table of 60_exceptions.md R251. (The cache premise rules
out states no run reaches, where a cached divisor is zero.) -/
def Obligations.RecordedErrorIsOneOfTheCommandsCodes : Prop :=
  ∀ (i : Instr) (s : State) (w : Word) (e : ErrCode), CacheOk s → s.pend = some w →
    exec i s = .next (erred s w e) → s.err = false → e ∈ errorCodes i

/-- R240: NOP has no effect beyond the command cycle. -/
def Obligations.NopOnlyRunsTheCommandCycle : Prop :=
  DecodesAs 0x00 [(25, 0)] (fun _ => .nop) ∧ ∀ s, exec .nop s = .next (commandCycle s)

/-! ## The field -/

/-- R100: the two tables satisfy the definition of the field's tables: ALOG starts at 1 and each entry is the one
before times the primitive element, LOG inverts ALOG, and LOG[0] has no value. -/
def Obligations.FieldTablesSatisfyTheirDefinition : Prop :=
  alog 0 = 0x01 ∧ (∀ i < 255, alog (i + 1) = xtime (alog i)) ∧ (∀ i < 255, glog (alog i) = some i) ∧ glog 0 = none

/-- The table multiplication of 40_gf.md R102 is multiplication of polynomials over GF(2) modulo 0x11D
(40_gf.md R100). -/
def Obligations.FieldProductIsPolynomialProduct : Prop := ∀ a b : Byte, gmul a b = shiftAndAdd a b 8

/-- The field laws of 40_gf.md R105: commutative, associative and distributive multiplication, and the source's two
properties of division and inverse. -/
def Obligations.FieldLaws : Prop :=
  (∀ a b, gmul a b = gmul b a) ∧
  (∀ a b c, gmul (gmul a b) c = gmul a (gmul b c)) ∧
  (∀ a b c, gmul a (gadd b c) = gadd (gmul a b) (gmul a c)) ∧
  (∀ a, gmul a 1 = a) ∧
  (∀ a b, b ≠ 0 → ∃ q, gdiv a b = .ok q ∧ gmul q b = a) ∧
  (∀ a, a ≠ 0 → ∃ v, ginv a = .ok v ∧ gmul a v = 1)

/-- R106: GF.LI writes its immediate to g[rd], and nothing else changes but the command cycle. -/
def Obligations.GfLiWritesTheImmediate : Prop :=
  DecodesAs 0x01 [(13, 0)] (fun w => .gfLi (regField w 22) (BitVec.ofNat 8 (slice w 21 14))) ∧
  ∀ rd imm8 s, exec (.gfLi rd imm8) s = .next { commandCycle s with g := s.g.set rd imm8 }

/-- R107 and R101: GF.ADD writes the exclusive or of its sources, both read before g[rd] is written; nothing else
changes but the command cycle. -/
def Obligations.GfAddWritesTheExclusiveOr : Prop :=
  DecodesAs 0x02 [(13, 0)] (fun w => .gfAdd (regField w 22) (regField w 18) (regField w 14)) ∧
  ∀ rd ra rb s, exec (.gfAdd rd ra rb) s = .next { commandCycle s with g := s.g.set rd (s.g[ra] ^^^ s.g[rb]) }

/-- R108 and R102: GF.MUL writes 0 when a source is 0, and else the antilog of the sum of the logs modulo 255; nothing
else changes but the command cycle. -/
def Obligations.GfMulWritesTheProduct : Prop :=
  DecodesAs 0x03 [(13, 0)] (fun w => .gfMul (regField w 22) (regField w 18) (regField w 14)) ∧
  ∀ rd ra rb s, exec (.gfMul rd ra rb) s = .next { commandCycle s with
    g := s.g.set rd (if s.g[ra] = 0 ∨ s.g[rb] = 0 then 0 else alog ((logOf s.g[ra] + logOf s.g[rb]) % 255)) }

/-- R109 and R103: GF.DIV raises DIVISION_BY_ZERO when the divisor is 0, also for a zero dividend, and g[rd] is then
unchanged; else it writes 0 for a zero dividend and the antilog of the difference of the logs, modulo 255 with a
non-negative remainder; nothing else changes but the command cycle. -/
def Obligations.GfDivWritesTheQuotientOrRaises : Prop :=
  DecodesAs 0x04 [(13, 0)] (fun w => .gfDiv (regField w 22) (regField w 18) (regField w 14)) ∧
  ∀ rd ra rb s,
    (s.g[rb] = 0 → Raises (.gfDiv rd ra rb) s .divisionByZero) ∧
    (s.g[rb] ≠ 0 → exec (.gfDiv rd ra rb) s = .next { commandCycle s with
      g := s.g.set rd (if s.g[ra] = 0 then 0
        else alog ((((logOf s.g[ra] : Int) - (logOf s.g[rb] : Int)) % 255).toNat)) })

/-- R110 and R104: GF.INV raises DIVISION_BY_ZERO for 0, and else writes ALOG[255 - LOG[a]]; nothing else changes but
the command cycle. -/
def Obligations.GfInvWritesTheInverseOrRaises : Prop :=
  DecodesAs 0x05 [(17, 0)] (fun w => .gfInv (regField w 22) (regField w 18)) ∧
  ∀ rd ra s,
    (s.g[ra] = 0 → Raises (.gfInv rd ra) s .divisionByZero) ∧
    (s.g[ra] ≠ 0 →
      exec (.gfInv rd ra) s = .next { commandCycle s with g := s.g.set rd (alog (255 - logOf s.g[ra])) })

/-- R111: GF.EXP writes ALOG[g[ra]]; nothing else changes but the command cycle. -/
def Obligations.GfExpWritesTheAntilog : Prop :=
  DecodesAs 0x06 [(17, 0)] (fun w => .gfExp (regField w 22) (regField w 18)) ∧
  ∀ rd ra s, exec (.gfExp rd ra) s = .next { commandCycle s with g := s.g.set rd (alog s.g[ra].toNat) }

/-- R112: GF.LOG raises LOG_OF_ZERO for 0, and else writes LOG[g[ra]]; nothing else changes but the command cycle. -/
def Obligations.GfLogWritesTheLogOrRaises : Prop :=
  DecodesAs 0x07 [(17, 0)] (fun w => .gfLog (regField w 22) (regField w 18)) ∧
  ∀ rd ra s,
    (s.g[ra] = 0 → Raises (.gfLog rd ra) s .logOfZero) ∧
    (s.g[ra] ≠ 0 →
      exec (.gfLog rd ra) s = .next { commandCycle s with g := s.g.set rd (BitVec.ofNat 8 (logOf s.g[ra])) })

/-! ## The bit buffer -/

/-- R143: BB.CLR leaves BB_LEN = 0 and every byte of BITBUF 0, and nothing else changes but the command cycle. -/
def Obligations.BbClrEmptiesTheBitBuffer : Prop :=
  DecodesAs 0x10 [(25, 0)] (fun _ => .bbClr) ∧
  ∀ s, ∃ t, exec .bbClr s = .next t ∧ t.bbLen = 0 ∧ (∀ i < 4096, t.cell .bitbuf i = 0) ∧
    (∀ b i, b ≠ .bitbuf → t.cell b i = s.cell b i) ∧
    t = { commandCycle s with bbLen := 0, bufs := { s.bufs with bitbuf := t.bufs.bitbuf } }

/-- R144: BB.APP checks its count, then the capacity, and else appends the low n bits of its immediate, most
significant first. -/
def Obligations.BbAppAppendsOrRaises : Prop :=
  DecodesAs 0x11 [(20, 16)] (fun w => .bbApp (slice w 25 21) (BitVec.ofNat 16 (slice w 15 0))) ∧
  ∀ n (imm16 : BitVec 16) s,
    (n < 1 ∨ 16 < n → Raises (.bbApp n imm16) s .illegalCommand) ∧
    (1 ≤ n → n ≤ 16 → 32768 < s.bbLen.toNat + n → Raises (.bbApp n imm16) s .bitBufferOverflow) ∧
    (1 ≤ n → n ≤ 16 → s.bbLen.toNat + n ≤ 32768 →
      ∃ t, exec (.bbApp n imm16) s = .next t ∧ Appended s t (msbFirst n imm16.toNat))

/-- R145: BB.APPR checks its count, then the capacity, and else appends the low n bits of g[ra], most significant
first. -/
def Obligations.BbApprAppendsOrRaises : Prop :=
  DecodesAs 0x12 [(16, 0)] (fun w => .bbAppr (slice w 25 21) (regField w 17)) ∧
  ∀ n ra s,
    (n < 1 ∨ 8 < n → Raises (.bbAppr n ra) s .illegalCommand) ∧
    (1 ≤ n → n ≤ 8 → 32768 < s.bbLen.toNat + n → Raises (.bbAppr n ra) s .bitBufferOverflow) ∧
    (1 ≤ n → n ≤ 8 → s.bbLen.toNat + n ≤ 32768 →
      ∃ t, exec (.bbAppr n ra) s = .next t ∧ Appended s t (msbFirst n s.g[ra].toNat))

/-- R146: BB.RD checks its count, then the exclusive bound, and else RESULT takes the n bits from pos on, the first
bit read in the most significant place, the bits above n zero; nothing else changes but the command cycle. -/
def Obligations.BbRdReadsOrRaises : Prop :=
  DecodesAs 0x13 [(20, 15)] (fun w => .bbRd (slice w 25 21) (slice w 14 0)) ∧
  ∀ n pos s,
    (n < 1 ∨ 16 < n → Raises (.bbRd n pos) s .illegalCommand) ∧
    (1 ≤ n → n ≤ 16 → s.bbLen.toNat < pos + n → Raises (.bbRd n pos) s .bitBufferRange) ∧
    (1 ≤ n → n ≤ 16 → pos + n ≤ s.bbLen.toNat →
      ∃ t, exec (.bbRd n pos) s = .next t ∧
        (∀ k < 16, t.result.getLsbD k = (decide (k < n) && s.bbBit (pos + (n - 1 - k)))) ∧
        t = { commandCycle s with result := t.result })

/-- What BB.APP appends BB.RD reads back: after appending n bits of a value, reading n bits at the old length gives
the value's low n bits (42_bitbuf.md R141, R144, R146; the source's round trip, 95_test_vectors.md X4). -/
def Obligations.AppendThenReadReturnsTheValue : Prop :=
  ∀ n (imm16 : BitVec 16) s, 1 ≤ n → n ≤ 16 → s.bbLen.toNat + n ≤ 32768 →
    ∃ t u, exec (.bbApp n imm16) s = .next t ∧ exec (.bbRd n s.bbLen.toNat) t = .next u ∧
      u.result.toNat = imm16.toNat % 2 ^ n

/-- The buffer is append-only: a command other than BB.CLR never lowers BB_LEN and never changes a bit below the old
BB_LEN (42_bitbuf.md R141, R143). -/
def Obligations.OnlyBbClrShortensTheBitBuffer : Prop :=
  ∀ (i : Instr) (s t : State), i ≠ .bbClr → exec i s = .next t →
    s.bbLen.toNat ≤ t.bbLen.toNat ∧ ∀ k < s.bbLen.toNat, t.bbBit k = s.bbBit k

/-! ## Reed-Solomon -/

/-- R128: RS.GEN raises INVALID_GENERATOR_DEGREE outside 1 … 30, and else extends the cache up to degree d, each new
entry computed from the one before (R126), entries present before kept; nothing else changes but the command
cycle. -/
def Obligations.RsGenExtendsTheCacheOrRaises : Prop :=
  DecodesAs 0x18 [(25, 18), (12, 0)] (fun w => .rsGen (slice w 17 13)) ∧
  ∀ d s,
    (d < 1 ∨ 30 < d → Raises (.rsGen d) s .invalidGeneratorDegree) ∧
    (1 ≤ d → d ≤ 30 → ∃ t, exec (.rsGen d) s = .next t ∧
      t.genDepth = max s.genDepth d ∧
      (∀ k ≤ s.genDepth, cachedGen t.genCache k = cachedGen s.genCache k) ∧
      (∀ k, s.genDepth < k → k ≤ d →
        cachedGen t.genCache k = pmul (cachedGen t.genCache (k - 1)) [1, alog (k - 1)]) ∧
      t = { commandCycle s with genCache := t.genCache })

/-- R130: the operand checks of RS.ENC and RS.SYN, in order: the degree, a zero count, the BITBUF range, the ECCBUF
range. -/
def Obligations.RsEncAndSynCheckTheirOperandsInOrder : Prop :=
  ∀ n e s, ∀ i ∈ [Instr.rsEnc n e, Instr.rsSyn n e],
    (e < 1 ∨ 30 < e → Raises i s .invalidGeneratorDegree) ∧
    (1 ≤ e → e ≤ 30 → n = 0 → Raises i s .invalidLength) ∧
    (1 ≤ e → e ≤ 30 → n ≠ 0 → 4096 < s.rsSrc.toNat + n → Raises i s .invalidLength) ∧
    (1 ≤ e → e ≤ 30 → n ≠ 0 → s.rsSrc.toNat + n ≤ 4096 → 4096 < s.rsDst.toNat + e → Raises i s .invalidLength)

/-- R129: RS.ENC's errors, and past them, with a coherent cache (10_state.md R38), it writes to
ECCBUF[RS_DST … RS_DST+e-1] the e bytes that `rs_ecc` (R127) gives for the n bytes of BITBUF from RS_SRC on and the
generator of degree e, extends the cache to depth at least e, and changes nothing else but the command cycle. -/
def Obligations.RsEncWritesTheRemainder : Prop :=
  DecodesAs 0x19 [(12, 0)] (fun w => .rsEnc (slice w 25 18) (slice w 17 13)) ∧
  ∀ n e s,
    (e < 1 ∨ 30 < e → Raises (.rsEnc n e) s .invalidGeneratorDegree) ∧
    (1 ≤ e → e ≤ 30 → (n = 0 ∨ 4096 < s.rsSrc.toNat + n ∨ 4096 < s.rsDst.toNat + e) →
      Raises (.rsEnc n e) s .invalidLength) ∧
    (CacheOk s → 1 ≤ e → e ≤ 30 → n ≠ 0 → s.rsSrc.toNat + n ≤ 4096 → s.rsDst.toNat + e ≤ 4096 →
      ∃ t ecc, exec (.rsEnc n e) s = .next t ∧
        rsEcc (s.cells .bitbuf s.rsSrc.toNat n) e (generator e) = .ok ecc ∧ ecc.length = e ∧
        t.cells .eccbuf s.rsDst.toNat e = ecc ∧
        (∀ b i, ¬ (b = .eccbuf ∧ s.rsDst.toNat ≤ i ∧ i < s.rsDst.toNat + e) → t.cell b i = s.cell b i) ∧
        CacheOk t ∧ t.genDepth = max s.genDepth e ∧
        t = { commandCycle s with genCache := t.genCache, bufs := { s.bufs with eccbuf := t.bufs.eccbuf } })

/-- R132: RS.SYN's errors, and past them it writes the e syndromes of the block, zeros above them, and SYNZ; nothing
else changes but the command cycle, the generator cache included. -/
def Obligations.RsSynWritesTheSyndromes : Prop :=
  DecodesAs 0x1A [(12, 0)] (fun w => .rsSyn (slice w 25 18) (slice w 17 13)) ∧
  ∀ n e s,
    (e < 1 ∨ 30 < e → Raises (.rsSyn n e) s .invalidGeneratorDegree) ∧
    (1 ≤ e → e ≤ 30 → (n = 0 ∨ 4096 < s.rsSrc.toNat + n ∨ 4096 < s.rsDst.toNat + e) →
      Raises (.rsSyn n e) s .invalidLength) ∧
    (1 ≤ e → e ≤ 30 → n ≠ 0 → s.rsSrc.toNat + n ≤ 4096 → s.rsDst.toNat + e ≤ 4096 →
      ∃ t, exec (.rsSyn n e) s = .next t ∧
        (∀ j : Fin 32, t.syn[j] = if j.val < e then
          syndrome (s.cells .bitbuf s.rsSrc.toNat n ++ s.cells .eccbuf s.rsDst.toNat e) j.val else 0) ∧
        (t.synz = true ↔ ∀ j : Fin 32, j.val < e → t.syn[j] = 0) ∧
        t = { commandCycle s with syn := t.syn, synz := t.synz })

/-- The two forms of 41_rs.md R131 agree: Horner's rule gives the sum of each coefficient times the power of α^j that
belongs to its place. -/
def Obligations.SyndromeIsThePowerSum : Prop :=
  ∀ (c : List Byte) (j : Nat), j < 255 →
    syndrome c j = (List.range c.length).foldl
      (fun acc k => gadd acc (gmul (c.getD k 0) (alog (j * (c.length - 1 - k) % 255)))) 0

/-- An encoded block is a codeword: RS.SYN right after RS.ENC, on the same block, finds every syndrome 0 and sets
SYNZ (41_rs.md R129, R131, R132). -/
def Obligations.EncodedBlockHasZeroSyndromes : Prop :=
  ∀ n e s, CacheOk s → 1 ≤ e → e ≤ 30 → n ≠ 0 → s.rsSrc.toNat + n ≤ 4096 → s.rsDst.toNat + e ≤ 4096 →
    ∃ t u, exec (.rsEnc n e) s = .next t ∧ exec (.rsSyn n e) t = .next u ∧
      u.synz = true ∧ ∀ j : Fin 32, u.syn[j] = 0

/-! ## The serializer -/

/-- R165: SER.HDR's checks in order, and else it appends the mode indicator 0010 and CHARLEN in ccbits(V) bits. -/
def Obligations.SerHdrAppendsTheHeaderOrRaises : Prop :=
  DecodesAs 0x20 [(23, 0)] (fun w => .serHdr (modeField w)) ∧
  ∀ mode s,
    (mode ≠ .alphaNumeric → Raises (.serHdr mode) s .unimplemented) ∧
    (s.vrecOk = false → Raises (.serHdr .alphaNumeric) s .invalidVersionRecord) ∧
    (s.vrecOk = true → 2 ^ ccbits s.V ≤ s.charLen.toNat → Raises (.serHdr .alphaNumeric) s .capacityExceeded) ∧
    (s.vrecOk = true → s.CAPBITS < s.bbLen.toNat + 4 + ccbits s.V →
      Raises (.serHdr .alphaNumeric) s .capacityExceeded) ∧
    (s.vrecOk = true → s.charLen.toNat < 2 ^ ccbits s.V → s.bbLen.toNat + 4 + ccbits s.V ≤ s.CAPBITS →
      ∃ t, exec (.serHdr .alphaNumeric) s = .next t ∧
        Appended s t ([false, false, true, false] ++ msbFirst (ccbits s.V) s.charLen.toNat))

/-- R166: SER.ALN's checks in order, and else it appends each pair of characters in 11 bits and a last single one in
6. -/
def Obligations.SerAlnAppendsThePayloadOrRaises : Prop :=
  DecodesAs 0x21 [(25, 0)] (fun _ => .serAln) ∧
  ∀ s,
    (s.vrecOk = false → Raises .serAln s .invalidVersionRecord) ∧
    (s.vrecOk = true → (∃ k < s.charLen.toNat, alnumIndex (s.cell .charbuf k) = none) →
      Raises .serAln s .invalidCharacter) ∧
    (s.vrecOk = true → (∀ k < s.charLen.toNat, alnumIndex (s.cell .charbuf k) ≠ none) →
      s.CAPBITS < s.bbLen.toNat + (11 * (s.charLen.toNat / 2) + 6 * (s.charLen.toNat % 2)) →
      Raises .serAln s .capacityExceeded) ∧
    (s.vrecOk = true → (∀ k < s.charLen.toNat, alnumIndex (s.cell .charbuf k) ≠ none) →
      s.bbLen.toNat + (11 * (s.charLen.toNat / 2) + 6 * (s.charLen.toNat % 2)) ≤ s.CAPBITS →
      ∃ t, exec .serAln s = .next t ∧ Appended s t (payloadBits
        ((List.range s.charLen.toNat).map fun k => (alnumIndex (s.cell .charbuf k)).getD 0)))

/-- R167: SER.PAD's checks in order, and else it appends the terminator, the alignment zeros and the pad bytes, which
leaves BB_LEN equal to the capacity exactly. -/
def Obligations.SerPadFillsToCapacityOrRaises : Prop :=
  DecodesAs 0x22 [(25, 0)] (fun _ => .serPad) ∧
  ∀ s,
    (s.vrecOk = false → Raises .serPad s .invalidVersionRecord) ∧
    (s.vrecOk = true → s.CAPBITS < s.bbLen.toNat → Raises .serPad s .capacityExceeded) ∧
    (s.vrecOk = true → s.bbLen.toNat ≤ s.CAPBITS →
      ∃ t, exec .serPad s = .next t ∧ Appended s t (padBits s.bbLen.toNat s.CAPBITS) ∧ t.bbLen.toNat = s.CAPBITS)

/-! ## Blocks -/

/-- R184, with a coherent cache (10_state.md R38): BLK.ECC's checks in order, and else block b's ECC, of ECCPB bytes,
stands at ECCBUF[b·ECCPB …] for every block; the cache is extended to depth at least ECCPB; every other byte and
register is as before, but for the command cycle. -/
def Obligations.BlkEccWritesEveryBlocksEccOrRaises : Prop :=
  DecodesAs 0x28 [(25, 0)] (fun _ => .blkEcc) ∧
  ∀ s,
    (s.vrecOk = false → Raises .blkEcc s .invalidVersionRecord) ∧
    (s.vrecOk = true → s.bbLen.toNat ≠ s.CAPBITS → Raises .blkEcc s .sequenceError) ∧
    (CacheOk s → s.vrecOk = true → s.bbLen.toNat = s.CAPBITS →
      ∃ t, exec .blkEcc s = .next t ∧
        (∀ b < s.NBLK, rsEcc (s.cells .bitbuf (s.OFF b) (s.SIZE b)) s.ECCPB (generator s.ECCPB) =
          .ok (t.cells .eccbuf (b * s.ECCPB) s.ECCPB)) ∧
        (∀ b i, ¬ (b = .eccbuf ∧ i < s.NBLK * s.ECCPB) → t.cell b i = s.cell b i) ∧
        CacheOk t ∧ t.genDepth = max s.genDepth s.ECCPB ∧
        t = { commandCycle s with genCache := t.genCache, bufs := { s.bufs with eccbuf := t.bufs.eccbuf } })

/-- R185: BLK.WEAVE's checks in order, and else CWBUF starts with the interleaved codewords of R186, CW_LEN is their
number, which is RAWCW(V), and every other byte and register is as before, but for the command cycle. -/
def Obligations.BlkWeaveWritesTheInterleavedCodewordsOrRaises : Prop :=
  DecodesAs 0x29 [(25, 0)] (fun _ => .blkWeave) ∧
  ∀ s,
    (s.vrecOk = false → Raises .blkWeave s .invalidVersionRecord) ∧
    (s.vrecOk = true → s.bbLen.toNat ≠ s.CAPBITS → Raises .blkWeave s .sequenceError) ∧
    (s.vrecOk = true → s.bbLen.toNat = s.CAPBITS →
      ∃ t, exec .blkWeave s = .next t ∧ t.cwLen.toNat = rawCw s.V ∧
        t.cells .cwbuf 0 (rawCw s.V) = interleave s ∧
        (∀ b i, ¬ (b = .cwbuf ∧ i < rawCw s.V) → t.cell b i = s.cell b i) ∧
        t = { commandCycle s with cwLen := t.cwLen, bufs := { s.bufs with cwbuf := t.bufs.cwbuf } })

/-- Interleaving loses and repeats nothing: with a record that passes the check, the interleaved codewords are a
permutation of the data bytes and the ECC bytes (44_blocks.md R183, R186, R187). -/
def Obligations.InterleaveIsAPermutation : Prop :=
  ∀ s : State, s.vrecOk = true →
    (interleave s).Perm (s.cells .bitbuf 0 s.DATA_TOTAL ++ s.cells .eccbuf 0 (s.NBLK * s.ECCPB))

/-! ## Placement -/

/-- R210 with the geometry of R200-R208: PL.INIT checks the record, and else every cell of the matrix is what the last
pattern drawn over it gives (0 outside the symbol), MATVER is V, and nothing else changes but the command cycle. -/
def Obligations.PlInitDrawsTheFunctionPatternsOrRaises : Prop :=
  DecodesAs 0x30 [(25, 0)] (fun _ => .plInit) ∧
  ∀ s,
    (s.vrecOk = false → Raises .plInit s .invalidVersionRecord) ∧
    (s.vrecOk = true → ∃ t, exec .plInit s = .next t ∧ t.matVer.toNat = s.V ∧
      (∀ r < 256, ∀ c < 256, t.matCell r c = initCell s.V r c) ∧
      (∀ b i, b ≠ .mat → t.cell b i = s.cell b i) ∧
      t = { commandCycle s with matVer := t.matVer, bufs := { s.bufs with mat := t.bufs.mat } })

/-- R213 with R218: PL.PLACE's checks in order, and else data cell number k of the zig-zag takes bit k of the
codewords, most significant bit of each first, and 0 beyond the last one; no other cell and nothing else changes but
the command cycle. -/
def Obligations.PlPlacePlacesTheCodewordBitsOrRaises : Prop :=
  DecodesAs 0x31 [(25, 0)] (fun _ => .plPlace) ∧
  ∀ s,
    (s.vrecOk = false → Raises .plPlace s .invalidVersionRecord) ∧
    (s.vrecOk = true → s.matVer.toNat ≠ s.V → Raises .plPlace s .sequenceError) ∧
    (s.vrecOk = true → s.matVer.toNat = s.V → (zigzag s s.N).length < 8 * s.cwLen.toNat →
      Raises .plPlace s .invalidLength) ∧
    (s.vrecOk = true → s.matVer.toNat = s.V → 8 * s.cwLen.toNat ≤ (zigzag s s.N).length →
      ∃ t, exec .plPlace s = .next t ∧
        (∀ k r c, (zigzag s s.N)[k]? = some (r, c) → t.matCell r c =
          if k < 8 * s.cwLen.toNat ∧ (s.cell .cwbuf (k / 8)).getLsbD (7 - k % 8) = true then 1 else 0) ∧
        (∀ r c, c < 256 → (r, c) ∉ zigzag s s.N → t.matCell r c = s.matCell r c) ∧
        (∀ b i, b ≠ .mat → t.cell b i = s.cell b i) ∧
        t = { commandCycle s with bufs := { s.bufs with mat := t.bufs.mat } })

/-- The zig-zag visits each data cell of the symbol exactly once and nothing else; the timing column 6 it skips
whatever its cells are (45_placement.md R211). -/
def Obligations.ZigzagVisitsEachDataCellOnce : Prop :=
  ∀ s : State, 1 ≤ s.V → s.V ≤ 40 → (zigzag s s.N).Nodup ∧
    ∀ r c, (r, c) ∈ zigzag s s.N ↔ (r < s.N ∧ c < s.N ∧ c ≠ 6 ∧ s.isFunc r c = false)

/-- R214 with R218: PL.MASK's checks in order, and else DARK is inverted in exactly the data cells of the symbol where
the mask condition holds; nothing else changes but the command cycle. -/
def Obligations.PlMaskInvertsTheMaskedDataCellsOrRaises : Prop :=
  DecodesAs 0x32 [(22, 0)] (fun w => .plMask (maskField w)) ∧
  ∀ m s,
    (s.vrecOk = false → Raises (.plMask m) s .invalidVersionRecord) ∧
    (s.vrecOk = true → s.matVer.toNat ≠ s.V → Raises (.plMask m) s .sequenceError) ∧
    (s.vrecOk = true → s.matVer.toNat = s.V → ∃ t, exec (.plMask m) s = .next t ∧
      (∀ r c, c < 256 → t.matCell r c =
        if r < s.N ∧ c < s.N ∧ s.isFunc r c = false ∧ maskCond m r c = true then s.matCell r c ^^^ 1
        else s.matCell r c) ∧
      (∀ b i, b ≠ .mat → t.cell b i = s.cell b i) ∧
      t = { commandCycle s with bufs := { s.bufs with mat := t.bufs.mat } })

/-- R217 with R218: PL.FMT's checks in order, and else bit i of the format word stands, as a function module, at both
its places, and so does bit i of the version word for V ≥ 7; no other cell and nothing else changes but the command
cycle. -/
def Obligations.PlFmtWritesTheFormatAndVersionBitsOrRaises : Prop :=
  DecodesAs 0x33 [(22, 0)] (fun w => .plFmt (maskField w)) ∧
  ∀ m s,
    (s.vrecOk = false → Raises (.plFmt m) s .invalidVersionRecord) ∧
    (s.vrecOk = true → s.matVer.toNat ≠ s.V → Raises (.plFmt m) s .sequenceError) ∧
    (s.vrecOk = true → s.matVer.toNat = s.V → ∃ t, exec (.plFmt m) s = .next t ∧
      (∀ i < 15, ∀ rc ∈ [copyA i, copyB s.N i],
        t.matCell rc.1 rc.2 = moduleCell ((fmtWord s.level m).testBit i)) ∧
      (7 ≤ s.V → ∀ i < 18, ∀ rc ∈ [verA s.N i, verB s.N i],
        t.matCell rc.1 rc.2 = moduleCell ((verWord s.V).testBit i)) ∧
      (∀ r c, c < 256 → isFormat s.N r c = false → isVersionArea s.V s.N r c = false →
        t.matCell r c = s.matCell r c) ∧
      (∀ b i, b ≠ .mat → t.cell b i = s.cell b i) ∧
      t = { commandCycle s with bufs := { s.bufs with mat := t.bufs.mat } })

/-- A finished symbol has no reserved module: after PL.INIT, then PL.FMT, no cell has RSVD = 1
(45_placement.md R217, 90_conflicts.md C5). -/
def Obligations.NoModuleStaysReservedAfterPlFmt : Prop :=
  ∀ m s, s.vrecOk = true → ∃ t u, exec .plInit s = .next t ∧ exec (.plFmt m) t = .next u ∧
    ∀ r < 256, ∀ c < 256, (u.matCell r c).getLsbD 2 = false

/-! ## The whole machine -/

/-- Which command may write which register or flag, over all commands (10_state.md R26, R31, R34, R35, R37, R48;
40_gf.md R113; 41_rs.md R134): what a command does not own it leaves as it was. -/
def Obligations.CommandsWriteOnlyTheirOwnRegisters : Prop :=
  ∀ (i : Instr) (s t : State), exec i s = .next t →
    (∀ r : Fin 16, gfDest i ≠ some r → t.g[r] = s.g[r]) ∧
    ((∀ n e, i ≠ .rsSyn n e) → t.syn = s.syn ∧ t.synz = s.synz) ∧
    ((∀ n p, i ≠ .bbRd n p) → t.result = s.result) ∧
    (extendsCache i = false → t.genCache = s.genCache) ∧
    (writesBbLen i = false → t.bbLen = s.bbLen) ∧
    (i ≠ .blkWeave → t.cwLen = s.cwLen) ∧
    (i ≠ .plInit → t.matVer = s.matVer) ∧
    (t.ieDone = s.ieDone ∧ t.ieErr = s.ieErr ∧ t.drop = s.drop ∧ t.ovr = s.ovr ∧
      t.version = s.version ∧ t.level = s.level ∧ t.eccpb = s.eccpb ∧
      t.g1blk = s.g1blk ∧ t.g1sz = s.g1sz ∧ t.g2blk = s.g2blk ∧ t.g2sz = s.g2sz ∧
      t.charLen = s.charLen ∧ t.rsSrc = s.rsSrc ∧ t.rsDst = s.rsDst)

/-- Which command may write which buffer, over all commands (10_state.md R40-R44, 70_reset_and_hazards.md R283):
every element of every other buffer is as it was. -/
def Obligations.CommandsWriteOnlyTheirOutputBuffer : Prop :=
  ∀ (i : Instr) (s t : State), exec i s = .next t →
    ∀ b k, outputBuffer i ≠ some b → t.cell b k = s.cell b k

/-- R49: the reset value of every register and flag, as the host reads them and as hidden state, and the state that
soft and hard reset return to (the buffers of `State.reset` are the model's choice, log 3, and are not part of this
statement). -/
def Obligations.ResetRegistersAreAsTabled : Prop :=
  (∀ r : Fin 16, State.reset.g[r] = 0) ∧ (∀ j : Fin 32, State.reset.syn[j] = 0) ∧
  readTarget State.reset .id = 0x51524331 ∧ State.reset.ctrlWord = 0 ∧ State.reset.statusWord = 0 ∧
  State.reset.result = 0 ∧ State.reset.errcmd = 0 ∧ State.reset.cmdcnt = 0 ∧
  readTarget State.reset .vrec0 = 0 ∧ readTarget State.reset .vrec1 = 0 ∧
  State.reset.charLen = 0 ∧ State.reset.bbLen = 0 ∧ State.reset.rsSrc = 0 ∧ State.reset.rsDst = 0 ∧
  State.reset.cwLen = 0 ∧ State.reset.matVer = 0 ∧ State.reset.genDepth = 0 ∧ State.reset.genCache = [] ∧
  State.reset.pend = none ∧ State.reset.irq = false

/-- Right after reset the machine meets the invariant (10_state.md R49). -/
def Obligations.ResetMeetsTheInvariant : Prop := Inv State.reset

/-- Every step of every agent keeps the invariant: buffers in canonical form and inside their sizes, length registers
in range, cache coherent and at most 30 deep, and the error record consistent, ERR = 1 only with BUSY = 0
(20_memory.md R70, 41_rs.md R125, R126, 60_exceptions.md R254, R255). -/
def Obligations.EveryStepKeepsTheMachineInvariant : Prop :=
  ∀ s t : State, Inv s → step s = .next t → Inv t

/-! ## The host's side -/

/-- R241: a word written to CMD is discarded with OVR while BUSY = 1, discarded with DROP while ERR = 1, and else
latched, which sets BUSY; nothing else changes (the bus response and depthSeen are the model's own fields). -/
def Obligations.CmdWriteIsAcceptedOrDiscarded : Prop :=
  ∀ (s : State) (w : Word) (rest : List Input), s.inputs = .write 4 0x00C w :: rest →
    step s = .next
      (if s.busy = true then { s with inputs := rest, bus := .performed 0, ovr := true }
       else if s.err = true then { s with inputs := rest, bus := .performed 0, drop := true }
       else { s with inputs := rest, bus := .performed 0, pend := some w, depthSeen := 0 })

/-- R255: a write to STATUS with bit 2 set clears ERR, ERRCODE and ERRCMD in one access, bits 1, 13 and 14 clear DONE,
DROP and OVR, and nothing else changes; without bit 2 the error record stays. After clearing, the next CMD write is
accepted. -/
def Obligations.StatusWriteClearsTheErrorRecord : Prop :=
  (∀ (s : State) (v : Word) (rest : List Input), s.inputs = .write 4 0x008 v :: rest →
    step s = .next { s with
      inputs := rest, bus := .performed 0,
      done := s.done && !v.getLsbD 1, drop := s.drop && !v.getLsbD 13, ovr := s.ovr && !v.getLsbD 14,
      err := s.err && !v.getLsbD 2,
      errcode := if v.getLsbD 2 then .none else s.errcode,
      errcmd := if v.getLsbD 2 then 0 else s.errcmd }) ∧
  ∀ (s : State) (v w : Word) (rest : List Input), s.inputs = .write 4 0x008 v :: .write 4 0x00C w :: rest →
    v.getLsbD 2 = true → s.busy = false →
    ∃ t u, step s = .next t ∧ step t = .next u ∧ u.pend = some w ∧ u.busy = true

/-- R288: while BUSY = 1 a write to any offset but CTRL and STATUS is discarded and sets OVR, nothing else changing;
a write to CTRL (the soft reset has its own statement) or STATUS acts at once. -/
def Obligations.WritesWhileBusyAreDiscarded : Prop :=
  ∀ (s : State) (off : Nat) (v : Word) (rest : List Input), s.inputs = .write 4 off v :: rest → s.busy = true →
    (off % 4 = 0 → off < 0x80000 → off ≠ 0x004 → off ≠ 0x008 →
      step s = .next { s with inputs := rest, bus := .performed 0, ovr := true }) ∧
    (off = 0x004 → v.getLsbD 0 = false → step s = .next { s with
      inputs := rest, bus := .performed 0, ieDone := v.getLsbD 1, ieErr := v.getLsbD 2 }) ∧
    (off = 0x008 → ∃ t, step s = .next t ∧ t.pend = s.pend ∧ t.done = (s.done && !v.getLsbD 1) ∧
      t.err = (s.err && !v.getLsbD 2) ∧ t.drop = (s.drop && !v.getLsbD 13) ∧ t.ovr = (s.ovr && !v.getLsbD 14))

/-- R61 and R260: an access that is not an aligned 32-bit word of the window (93_implementation_defined.md U20) gets a
bus error and changes nothing; no STATUS bit changes, so neither does IRQ; a read returns 0. -/
def Obligations.BusErrorsChangeNothing : Prop :=
  ∀ (s : State) (size off : Nat) (v : Word) (rest : List Input), size ≠ 4 ∨ off % 4 ≠ 0 ∨ 0x80000 ≤ off →
    (s.inputs = .read size off :: rest ∨ s.inputs = .write size off v :: rest) →
    step s = .next { s with inputs := rest, bus := .busError } ∧ BusResponse.busError.data = 0

/-- R65: no read changes any state of the core, while BUSY or not; and while BUSY = 0 the same read done again
returns the same word. What an idle read returns: at every register but STATUS (which has its own statement) its
fields in place and 0 in every other bit (10_state.md R22, R23, R25-R36), at a g or SYN register and at a buffer element
its value, zero-extended (10_state.md R21, R37, R40-R44, 20_memory.md R62, R64). -/
def Obligations.ReadsHaveNoSideEffect : Prop :=
  (∀ (s : State) (size off : Nat) (rest : List Input), s.inputs = .read size off :: rest →
    ∃ t, step s = .next t ∧
      { t with inputs := s.inputs, bus := s.bus, draws := s.draws, depthSeen := s.depthSeen } = s ∧
      (s.busy = false → ∃ u, step { t with inputs := s.inputs } = .next u ∧ u.bus = t.bus)) ∧
  ∀ (s : State) (off : Nat) (rest : List Input), s.inputs = .read 4 off :: rest → s.busy = false →
    (∀ n, (off, n) ∈ registerWords s →
      step s = .next { s with inputs := rest, bus := .performed (BitVec.ofNat 32 n) }) ∧
    (∀ r : Fin 16, off = 0x100 + 4 * r.val →
      step s = .next { s with inputs := rest, bus := .performed (BitVec.ofNat 32 s.g[r].toNat) }) ∧
    (∀ j : Fin 32, off = 0x200 + 4 * j.val →
      step s = .next { s with inputs := rest, bus := .performed (BitVec.ofNat 32 s.syn[j].toNat) }) ∧
    (∀ b i, i < bufSize b → off = elementOffset b i →
      step s = .next { s with inputs := rest, bus := .performed (BitVec.ofNat 32 (s.cell b i).toNat) })

/-- R64: a word written to a buffer element or a g register stores its low bits (8, or 3 for a MAT cell) and no other
element or register changes; reading the element's word then returns those bits, zero-extended. -/
def Obligations.WrittenElementReadsBack : Prop :=
  (∀ (s : State) (b : Buf) (i : Nat) (v : Word) (rest : List Input), i < bufSize b → s.busy = false →
    s.inputs = .write 4 (elementOffset b i) v :: .read 4 (elementOffset b i) :: rest →
    ∃ t u, step s = .next t ∧ step t = .next u ∧
      u.bus = .performed (if b = .mat then BitVec.ofNat 32 (v.toNat % 8) else BitVec.ofNat 32 (v.toNat % 256)) ∧
      (∀ c k, ¬ (c = b ∧ k = i) → t.cell c k = s.cell c k) ∧
      t = { s with inputs := t.inputs, bus := .performed 0, bufs := t.bufs }) ∧
  ∀ (s : State) (r : Fin 16) (v : Word) (rest : List Input), s.busy = false →
    s.inputs = .write 4 (0x100 + 4 * r.val) v :: .read 4 (0x100 + 4 * r.val) :: rest →
    ∃ t u, step s = .next t ∧ step t = .next u ∧ u.bus = .performed (BitVec.ofNat 32 (v.toNat % 256)) ∧
      t = { s with
        inputs := t.inputs, bus := .performed 0, g := s.g.set r (BitVec.ofNat 8 v.toNat) }

/-- R63: an aligned offset of the window that R62 assigns to nothing reads 0 and ignores writes, without a bus
error (while BUSY = 0). A write to a read-only register or view (ID, RESULT, ERRCMD, CMDCNT, MATVER, SYN, GENRAM) is
ignored too (10_state.md R22, R26, R27, R35-R37, 20_memory.md R62). -/
def Obligations.ReservedOffsetsReadZeroAndIgnoreWrites : Prop :=
  ∀ (s : State) (off : Nat) (v : Word) (rest : List Input), s.busy = false → off % 4 = 0 →
    ((off = 0x01C ∨ (0x040 ≤ off ∧ off < 0x100) ∨ (0x140 ≤ off ∧ off < 0x200) ∨ (0x280 ≤ off ∧ off < 0x1000) ∨
        (0x2000 ≤ off ∧ off < 0x8000) ∨ (0x1C000 ≤ off ∧ off < 0x40000)) →
      (s.inputs = .read 4 off :: rest ∨ s.inputs = .write 4 off v :: rest) →
      step s = .next { s with inputs := rest, bus := .performed 0 }) ∧
    ((off ∈ [0x000, 0x010, 0x014, 0x018, 0x03C] ∨ (0x200 ≤ off ∧ off < 0x280) ∨ (0x1000 ≤ off ∧ off < 0x2000)) →
      s.inputs = .write 4 off v :: rest →
      step s = .next { s with inputs := rest, bus := .performed 0 })

/-- R68: the GENRAM word of coefficient k of degree d is the cached coefficient when d ≤ GEN_DEPTH and k ≤ d, and 0
else; for d ≤ GEN_DEPTH also while BUSY = 1. With a coherent cache (10_state.md R38) the leading coefficient is 1. -/
def Obligations.GenramShowsTheCachedCoefficients : Prop :=
  ∀ (s : State) (d k : Nat) (rest : List Input), d < 32 → k < 32 →
    s.inputs = .read 4 (0x1000 + 4 * (32 * d + k)) :: rest → (s.busy = false ∨ d ≤ s.genDepth) →
    ∃ t, step s = .next t ∧ t.bus = .performed
      (if d ≤ s.genDepth ∧ k ≤ d then ((cachedGen s.genCache d).getD k 0).setWidth 32 else 0) ∧
      (CacheOk s → d ≤ s.genDepth → k = 0 → t.bus = .performed 1)

/-- A STATUS read shows each flag at its place (10_state.md R24, 60_exceptions.md R250), GEN_DEPTH being at most 30 in
every reached state. While BUSY = 1 it does so too (bit 0 is then 1), but for GEN_DEPTH, which lies between the depth
now and the depth that the command in flight leaves (70_reset_and_hazards.md R287; which one is a free value, log 5).
ID and CTRL are exact at any time. -/
def Obligations.StatusReadShowsTheFlags : Prop :=
  ∀ (s : State) (off : Nat) (rest : List Input), s.inputs = .read 4 off :: rest →
    (off = 0x008 → s.busy = false → s.genDepth ≤ 30 →
      ∃ t v, step s = .next t ∧ t.bus = .performed v ∧ ShowsFlags s v ∧ slice v 12 8 = s.genDepth) ∧
    (off = 0x008 → s.busy = true → ∀ u, executorTurn s = .next u → u.genDepth ≤ 30 →
      ∃ t v, step s = .next t ∧ t.bus = .performed v ∧ v.getLsbD 0 = true ∧ ShowsFlags s v ∧
        s.genDepth ≤ slice v 12 8 ∧ slice v 12 8 ≤ u.genDepth) ∧
    (off = 0x000 → ∃ t, step s = .next t ∧ t.bus = .performed 0x51524331) ∧
    (off = 0x004 → ∃ t, step s = .next t ∧
      t.bus = .performed (BitVec.ofNat 32 (s.ieDone.toNat * 2 ^ 1 + s.ieErr.toNat * 2 ^ 2)))

/-- R30, R31 and R34: CHARLEN, BB_LEN and CW_LEN take a legal written value, keep their value when the written field
is out of range, and ignore the bits above the field (while BUSY = 0); R28, R29, R32 and R33: VREC0, VREC1, RS_SRC and
RS_DST take every written value, field by field, and ignore the reserved bits. Nothing else changes. (That the reserved
bits read 0 is part of what ReadsHaveNoSideEffect says of an idle read.) -/
def Obligations.LengthRegistersIgnoreIllegalValues : Prop :=
  ∀ (s : State) (v : Word) (rest : List Input), s.busy = false →
    (s.inputs = .write 4 0x028 v :: rest → step s = .next { s with
      inputs := rest, bus := .performed 0,
      charLen := if v.toNat % 2 ^ 14 ≤ 8192 then BitVec.ofNat 14 v.toNat else s.charLen }) ∧
    (s.inputs = .write 4 0x02C v :: rest → step s = .next { s with
      inputs := rest, bus := .performed 0,
      bbLen := if v.toNat % 2 ^ 16 ≤ 32768 then BitVec.ofNat 16 v.toNat else s.bbLen }) ∧
    (s.inputs = .write 4 0x038 v :: rest → step s = .next { s with
      inputs := rest, bus := .performed 0,
      cwLen := if v.toNat % 2 ^ 13 ≤ 4096 then BitVec.ofNat 13 v.toNat else s.cwLen }) ∧
    (s.inputs = .write 4 0x020 v :: rest → step s = .next { s with
      inputs := rest, bus := .performed 0,
      version := BitVec.ofNat 6 v.toNat,
      level := BitVec.ofNat 2 (v.toNat / 2 ^ 8),
      eccpb := BitVec.ofNat 5 (v.toNat / 2 ^ 16) }) ∧
    (s.inputs = .write 4 0x024 v :: rest → step s = .next { s with
      inputs := rest, bus := .performed 0,
      g1blk := BitVec.ofNat 8 v.toNat,
      g1sz := BitVec.ofNat 8 (v.toNat / 2 ^ 8),
      g2blk := BitVec.ofNat 8 (v.toNat / 2 ^ 16),
      g2sz := BitVec.ofNat 8 (v.toNat / 2 ^ 24) }) ∧
    (s.inputs = .write 4 0x030 v :: rest → step s = .next { s with
      inputs := rest, bus := .performed 0, rsSrc := BitVec.ofNat 12 v.toNat }) ∧
    (s.inputs = .write 4 0x034 v :: rest → step s = .next { s with
      inputs := rest, bus := .performed 0, rsDst := BitVec.ofNat 12 v.toNat })

/-- R281 with R283: a CTRL write with SRST = 1, also while BUSY = 1, puts every register at its reset value, CTRL
included, and leaves the buffers unchanged, but for the one buffer that an abandoned command writes. (inputs, bus and
draws are the model's own fields.) -/
def Obligations.SoftResetResetsTheRegistersAndKeepsTheBuffers : Prop :=
  ∀ (s : State) (v : Word) (rest : List Input), s.inputs = .write 4 0x004 v :: rest → v.getLsbD 0 = true →
    ∃ t, step s = .next t ∧
      t = { State.reset with inputs := rest, bus := .performed 0, draws := t.draws, bufs := t.bufs } ∧
      (s.pend = none → t.bufs = s.bufs) ∧
      ∀ w, s.pend = some w → ∀ b,
        ((∃ e, decode w = .error e) ∨ (∃ i, decode w = .ok i ∧ outputBuffer i ≠ some b)) →
        ∀ k, t.cell b k = s.cell b k

/-- R280 and R282: hard reset puts every register at its reset value and the buffers at MEM_RESET_CONTENT, whatever it
is: each element inside a buffer reads as that content says (its first entry for the element, cut to the element's
width), an element without an entry as 0. (inputs, bus and draws are the model's own fields; that a content given as
lists is read by its first entry for an element, cut to the element's width, is the model's choice, log 15; that an
unlisted element reads 0 is the model's choice, log 3.) -/
def Obligations.HardResetTakesAnyMemoryContent : Prop :=
  ∀ (s : State) (content : Buffers) (rest : List Input), s.inputs = .hardReset content :: rest →
    ∃ t, step s = .next t ∧ t.bufs.wf ∧
      t = { State.reset with inputs := rest, bus := s.bus, draws := s.draws, bufs := t.bufs } ∧
      ∀ b i, i < bufSize b → t.cell b i = Memory.read (content.get b) i &&& bufMask b

/-- R46, R257 and R294: IRQ is the enabled DONE or the enabled ERR, in the same step as the change: a STATUS write clears
the sources it names; a CTRL write with bit 0 = 0, while BUSY or not, sets both enables and nothing else, so unmasking
a source that is still set raises IRQ; a completion, with or without an error, sets DONE and raises IRQ if a source
is enabled. -/
def Obligations.IrqFollowsTheEnabledSources : Prop :=
  ∀ (s : State) (v : Word) (rest : List Input),
    (s.irq = true ↔ (s.done = true ∧ s.ieDone = true) ∨ (s.err = true ∧ s.ieErr = true)) ∧
    (s.inputs = .write 4 0x008 v :: rest → ∃ t, step s = .next t ∧
      t.irq = ((s.done && !v.getLsbD 1 && s.ieDone) || (s.err && !v.getLsbD 2 && s.ieErr))) ∧
    (s.inputs = .write 4 0x004 v :: rest → v.getLsbD 0 = false → ∃ t, step s = .next t ∧
      t = { s with inputs := rest, bus := .performed 0, ieDone := v.getLsbD 1, ieErr := v.getLsbD 2 } ∧
      t.irq = ((s.done && v.getLsbD 1) || (s.err && v.getLsbD 2))) ∧
    (s.inputs = .executor :: rest → s.busy = true → ∃ t, step s = .next t ∧
      t.busy = false ∧ t.done = true ∧ t.irq = (s.ieDone || (t.err && s.ieErr)))
end

