-- ==== Sys2Proof/Laws/State.lean ====
section
/-! SUPPORT. Every field after every named update of the state, true by rfl. -/

namespace Sys2Proof.Machine

@[simp] theorem putCell_g (s : State) (b : Buf) (i : Nat) (v : Byte) : (s.putCell b i v).g = s.g := rfl
@[simp] theorem putCell_syn (s : State) (b : Buf) (i : Nat) (v : Byte) : (s.putCell b i v).syn = s.syn := rfl
@[simp] theorem putCell_ieDone (s : State) (b : Buf) (i : Nat) (v : Byte) : (s.putCell b i v).ieDone = s.ieDone := rfl
@[simp] theorem putCell_ieErr (s : State) (b : Buf) (i : Nat) (v : Byte) : (s.putCell b i v).ieErr = s.ieErr := rfl
@[simp] theorem putCell_pend (s : State) (b : Buf) (i : Nat) (v : Byte) : (s.putCell b i v).pend = s.pend := rfl
@[simp] theorem putCell_done (s : State) (b : Buf) (i : Nat) (v : Byte) : (s.putCell b i v).done = s.done := rfl
@[simp] theorem putCell_err (s : State) (b : Buf) (i : Nat) (v : Byte) : (s.putCell b i v).err = s.err := rfl
@[simp] theorem putCell_errcode (s : State) (b : Buf) (i : Nat) (v : Byte) : (s.putCell b i v).errcode = s.errcode := rfl
@[simp] theorem putCell_synz (s : State) (b : Buf) (i : Nat) (v : Byte) : (s.putCell b i v).synz = s.synz := rfl
@[simp] theorem putCell_drop (s : State) (b : Buf) (i : Nat) (v : Byte) : (s.putCell b i v).drop = s.drop := rfl
@[simp] theorem putCell_ovr (s : State) (b : Buf) (i : Nat) (v : Byte) : (s.putCell b i v).ovr = s.ovr := rfl
@[simp] theorem putCell_result (s : State) (b : Buf) (i : Nat) (v : Byte) : (s.putCell b i v).result = s.result := rfl
@[simp] theorem putCell_errcmd (s : State) (b : Buf) (i : Nat) (v : Byte) : (s.putCell b i v).errcmd = s.errcmd := rfl
@[simp] theorem putCell_cmdcnt (s : State) (b : Buf) (i : Nat) (v : Byte) : (s.putCell b i v).cmdcnt = s.cmdcnt := rfl
@[simp] theorem putCell_version (s : State) (b : Buf) (i : Nat) (v : Byte) : (s.putCell b i v).version = s.version := rfl
@[simp] theorem putCell_level (s : State) (b : Buf) (i : Nat) (v : Byte) : (s.putCell b i v).level = s.level := rfl
@[simp] theorem putCell_eccpb (s : State) (b : Buf) (i : Nat) (v : Byte) : (s.putCell b i v).eccpb = s.eccpb := rfl
@[simp] theorem putCell_g1blk (s : State) (b : Buf) (i : Nat) (v : Byte) : (s.putCell b i v).g1blk = s.g1blk := rfl
@[simp] theorem putCell_g1sz (s : State) (b : Buf) (i : Nat) (v : Byte) : (s.putCell b i v).g1sz = s.g1sz := rfl
@[simp] theorem putCell_g2blk (s : State) (b : Buf) (i : Nat) (v : Byte) : (s.putCell b i v).g2blk = s.g2blk := rfl
@[simp] theorem putCell_g2sz (s : State) (b : Buf) (i : Nat) (v : Byte) : (s.putCell b i v).g2sz = s.g2sz := rfl
@[simp] theorem putCell_charLen (s : State) (b : Buf) (i : Nat) (v : Byte) : (s.putCell b i v).charLen = s.charLen := rfl
@[simp] theorem putCell_bbLen (s : State) (b : Buf) (i : Nat) (v : Byte) : (s.putCell b i v).bbLen = s.bbLen := rfl
@[simp] theorem putCell_rsSrc (s : State) (b : Buf) (i : Nat) (v : Byte) : (s.putCell b i v).rsSrc = s.rsSrc := rfl
@[simp] theorem putCell_rsDst (s : State) (b : Buf) (i : Nat) (v : Byte) : (s.putCell b i v).rsDst = s.rsDst := rfl
@[simp] theorem putCell_cwLen (s : State) (b : Buf) (i : Nat) (v : Byte) : (s.putCell b i v).cwLen = s.cwLen := rfl
@[simp] theorem putCell_matVer (s : State) (b : Buf) (i : Nat) (v : Byte) : (s.putCell b i v).matVer = s.matVer := rfl
@[simp] theorem putCell_genCache (s : State) (b : Buf) (i : Nat) (v : Byte) : (s.putCell b i v).genCache = s.genCache := rfl
@[simp] theorem putCell_inputs (s : State) (b : Buf) (i : Nat) (v : Byte) : (s.putCell b i v).inputs = s.inputs := rfl
@[simp] theorem putCell_bus (s : State) (b : Buf) (i : Nat) (v : Byte) : (s.putCell b i v).bus = s.bus := rfl
@[simp] theorem putCell_draws (s : State) (b : Buf) (i : Nat) (v : Byte) : (s.putCell b i v).draws = s.draws := rfl
@[simp] theorem putCell_depthSeen (s : State) (b : Buf) (i : Nat) (v : Byte) : (s.putCell b i v).depthSeen = s.depthSeen := rfl
@[simp] theorem clearBuf_g (s : State) (b : Buf) (took : Nat → Bool) : (s.clearBuf b took).g = s.g := rfl
@[simp] theorem clearBuf_syn (s : State) (b : Buf) (took : Nat → Bool) : (s.clearBuf b took).syn = s.syn := rfl
@[simp] theorem clearBuf_ieDone (s : State) (b : Buf) (took : Nat → Bool) : (s.clearBuf b took).ieDone = s.ieDone := rfl
@[simp] theorem clearBuf_ieErr (s : State) (b : Buf) (took : Nat → Bool) : (s.clearBuf b took).ieErr = s.ieErr := rfl
@[simp] theorem clearBuf_pend (s : State) (b : Buf) (took : Nat → Bool) : (s.clearBuf b took).pend = s.pend := rfl
@[simp] theorem clearBuf_done (s : State) (b : Buf) (took : Nat → Bool) : (s.clearBuf b took).done = s.done := rfl
@[simp] theorem clearBuf_err (s : State) (b : Buf) (took : Nat → Bool) : (s.clearBuf b took).err = s.err := rfl
@[simp] theorem clearBuf_errcode (s : State) (b : Buf) (took : Nat → Bool) : (s.clearBuf b took).errcode = s.errcode := rfl
@[simp] theorem clearBuf_synz (s : State) (b : Buf) (took : Nat → Bool) : (s.clearBuf b took).synz = s.synz := rfl
@[simp] theorem clearBuf_drop (s : State) (b : Buf) (took : Nat → Bool) : (s.clearBuf b took).drop = s.drop := rfl
@[simp] theorem clearBuf_ovr (s : State) (b : Buf) (took : Nat → Bool) : (s.clearBuf b took).ovr = s.ovr := rfl
@[simp] theorem clearBuf_result (s : State) (b : Buf) (took : Nat → Bool) : (s.clearBuf b took).result = s.result := rfl
@[simp] theorem clearBuf_errcmd (s : State) (b : Buf) (took : Nat → Bool) : (s.clearBuf b took).errcmd = s.errcmd := rfl
@[simp] theorem clearBuf_cmdcnt (s : State) (b : Buf) (took : Nat → Bool) : (s.clearBuf b took).cmdcnt = s.cmdcnt := rfl
@[simp] theorem clearBuf_version (s : State) (b : Buf) (took : Nat → Bool) : (s.clearBuf b took).version = s.version := rfl
@[simp] theorem clearBuf_level (s : State) (b : Buf) (took : Nat → Bool) : (s.clearBuf b took).level = s.level := rfl
@[simp] theorem clearBuf_eccpb (s : State) (b : Buf) (took : Nat → Bool) : (s.clearBuf b took).eccpb = s.eccpb := rfl
@[simp] theorem clearBuf_g1blk (s : State) (b : Buf) (took : Nat → Bool) : (s.clearBuf b took).g1blk = s.g1blk := rfl
@[simp] theorem clearBuf_g1sz (s : State) (b : Buf) (took : Nat → Bool) : (s.clearBuf b took).g1sz = s.g1sz := rfl
@[simp] theorem clearBuf_g2blk (s : State) (b : Buf) (took : Nat → Bool) : (s.clearBuf b took).g2blk = s.g2blk := rfl
@[simp] theorem clearBuf_g2sz (s : State) (b : Buf) (took : Nat → Bool) : (s.clearBuf b took).g2sz = s.g2sz := rfl
@[simp] theorem clearBuf_charLen (s : State) (b : Buf) (took : Nat → Bool) : (s.clearBuf b took).charLen = s.charLen := rfl
@[simp] theorem clearBuf_bbLen (s : State) (b : Buf) (took : Nat → Bool) : (s.clearBuf b took).bbLen = s.bbLen := rfl
@[simp] theorem clearBuf_rsSrc (s : State) (b : Buf) (took : Nat → Bool) : (s.clearBuf b took).rsSrc = s.rsSrc := rfl
@[simp] theorem clearBuf_rsDst (s : State) (b : Buf) (took : Nat → Bool) : (s.clearBuf b took).rsDst = s.rsDst := rfl
@[simp] theorem clearBuf_cwLen (s : State) (b : Buf) (took : Nat → Bool) : (s.clearBuf b took).cwLen = s.cwLen := rfl
@[simp] theorem clearBuf_matVer (s : State) (b : Buf) (took : Nat → Bool) : (s.clearBuf b took).matVer = s.matVer := rfl
@[simp] theorem clearBuf_genCache (s : State) (b : Buf) (took : Nat → Bool) : (s.clearBuf b took).genCache = s.genCache := rfl
@[simp] theorem clearBuf_inputs (s : State) (b : Buf) (took : Nat → Bool) : (s.clearBuf b took).inputs = s.inputs := rfl
@[simp] theorem clearBuf_bus (s : State) (b : Buf) (took : Nat → Bool) : (s.clearBuf b took).bus = s.bus := rfl
@[simp] theorem clearBuf_draws (s : State) (b : Buf) (took : Nat → Bool) : (s.clearBuf b took).draws = s.draws := rfl
@[simp] theorem clearBuf_depthSeen (s : State) (b : Buf) (took : Nat → Bool) : (s.clearBuf b took).depthSeen = s.depthSeen := rfl
@[simp] theorem complete_g (s : State) : (complete s).g = s.g := rfl
@[simp] theorem complete_syn (s : State) : (complete s).syn = s.syn := rfl
@[simp] theorem complete_ieDone (s : State) : (complete s).ieDone = s.ieDone := rfl
@[simp] theorem complete_ieErr (s : State) : (complete s).ieErr = s.ieErr := rfl
@[simp] theorem complete_pend (s : State) : (complete s).pend = none := rfl
@[simp] theorem complete_done (s : State) : (complete s).done = true := rfl
@[simp] theorem complete_err (s : State) : (complete s).err = s.err := rfl
@[simp] theorem complete_errcode (s : State) : (complete s).errcode = s.errcode := rfl
@[simp] theorem complete_synz (s : State) : (complete s).synz = s.synz := rfl
@[simp] theorem complete_drop (s : State) : (complete s).drop = s.drop := rfl
@[simp] theorem complete_ovr (s : State) : (complete s).ovr = s.ovr := rfl
@[simp] theorem complete_result (s : State) : (complete s).result = s.result := rfl
@[simp] theorem complete_errcmd (s : State) : (complete s).errcmd = s.errcmd := rfl
@[simp] theorem complete_cmdcnt (s : State) : (complete s).cmdcnt = s.cmdcnt + 1 := rfl
@[simp] theorem complete_version (s : State) : (complete s).version = s.version := rfl
@[simp] theorem complete_level (s : State) : (complete s).level = s.level := rfl
@[simp] theorem complete_eccpb (s : State) : (complete s).eccpb = s.eccpb := rfl
@[simp] theorem complete_g1blk (s : State) : (complete s).g1blk = s.g1blk := rfl
@[simp] theorem complete_g1sz (s : State) : (complete s).g1sz = s.g1sz := rfl
@[simp] theorem complete_g2blk (s : State) : (complete s).g2blk = s.g2blk := rfl
@[simp] theorem complete_g2sz (s : State) : (complete s).g2sz = s.g2sz := rfl
@[simp] theorem complete_charLen (s : State) : (complete s).charLen = s.charLen := rfl
@[simp] theorem complete_bbLen (s : State) : (complete s).bbLen = s.bbLen := rfl
@[simp] theorem complete_rsSrc (s : State) : (complete s).rsSrc = s.rsSrc := rfl
@[simp] theorem complete_rsDst (s : State) : (complete s).rsDst = s.rsDst := rfl
@[simp] theorem complete_cwLen (s : State) : (complete s).cwLen = s.cwLen := rfl
@[simp] theorem complete_matVer (s : State) : (complete s).matVer = s.matVer := rfl
@[simp] theorem complete_genCache (s : State) : (complete s).genCache = s.genCache := rfl
@[simp] theorem complete_bufs (s : State) : (complete s).bufs = s.bufs := rfl
@[simp] theorem complete_inputs (s : State) : (complete s).inputs = s.inputs := rfl
@[simp] theorem complete_bus (s : State) : (complete s).bus = s.bus := rfl
@[simp] theorem complete_draws (s : State) : (complete s).draws = s.draws := rfl
@[simp] theorem complete_depthSeen (s : State) : (complete s).depthSeen = s.depthSeen := rfl
@[simp] theorem raise_g (e : ErrCode) (s : State) : (raise e s).g = s.g := rfl
@[simp] theorem raise_syn (e : ErrCode) (s : State) : (raise e s).syn = s.syn := rfl
@[simp] theorem raise_ieDone (e : ErrCode) (s : State) : (raise e s).ieDone = s.ieDone := rfl
@[simp] theorem raise_ieErr (e : ErrCode) (s : State) : (raise e s).ieErr = s.ieErr := rfl
@[simp] theorem raise_pend (e : ErrCode) (s : State) : (raise e s).pend = none := rfl
@[simp] theorem raise_done (e : ErrCode) (s : State) : (raise e s).done = true := rfl
@[simp] theorem raise_err (e : ErrCode) (s : State) : (raise e s).err = true := rfl
@[simp] theorem raise_errcode (e : ErrCode) (s : State) : (raise e s).errcode = e := rfl
@[simp] theorem raise_synz (e : ErrCode) (s : State) : (raise e s).synz = s.synz := rfl
@[simp] theorem raise_drop (e : ErrCode) (s : State) : (raise e s).drop = s.drop := rfl
@[simp] theorem raise_ovr (e : ErrCode) (s : State) : (raise e s).ovr = s.ovr := rfl
@[simp] theorem raise_result (e : ErrCode) (s : State) : (raise e s).result = s.result := rfl
@[simp] theorem raise_errcmd (e : ErrCode) (s : State) : (raise e s).errcmd = s.pend.getD 0 := rfl
@[simp] theorem raise_cmdcnt (e : ErrCode) (s : State) : (raise e s).cmdcnt = s.cmdcnt + 1 := rfl
@[simp] theorem raise_version (e : ErrCode) (s : State) : (raise e s).version = s.version := rfl
@[simp] theorem raise_level (e : ErrCode) (s : State) : (raise e s).level = s.level := rfl
@[simp] theorem raise_eccpb (e : ErrCode) (s : State) : (raise e s).eccpb = s.eccpb := rfl
@[simp] theorem raise_g1blk (e : ErrCode) (s : State) : (raise e s).g1blk = s.g1blk := rfl
@[simp] theorem raise_g1sz (e : ErrCode) (s : State) : (raise e s).g1sz = s.g1sz := rfl
@[simp] theorem raise_g2blk (e : ErrCode) (s : State) : (raise e s).g2blk = s.g2blk := rfl
@[simp] theorem raise_g2sz (e : ErrCode) (s : State) : (raise e s).g2sz = s.g2sz := rfl
@[simp] theorem raise_charLen (e : ErrCode) (s : State) : (raise e s).charLen = s.charLen := rfl
@[simp] theorem raise_bbLen (e : ErrCode) (s : State) : (raise e s).bbLen = s.bbLen := rfl
@[simp] theorem raise_rsSrc (e : ErrCode) (s : State) : (raise e s).rsSrc = s.rsSrc := rfl
@[simp] theorem raise_rsDst (e : ErrCode) (s : State) : (raise e s).rsDst = s.rsDst := rfl
@[simp] theorem raise_cwLen (e : ErrCode) (s : State) : (raise e s).cwLen = s.cwLen := rfl
@[simp] theorem raise_matVer (e : ErrCode) (s : State) : (raise e s).matVer = s.matVer := rfl
@[simp] theorem raise_genCache (e : ErrCode) (s : State) : (raise e s).genCache = s.genCache := rfl
@[simp] theorem raise_bufs (e : ErrCode) (s : State) : (raise e s).bufs = s.bufs := rfl
@[simp] theorem raise_inputs (e : ErrCode) (s : State) : (raise e s).inputs = s.inputs := rfl
@[simp] theorem raise_bus (e : ErrCode) (s : State) : (raise e s).bus = s.bus := rfl
@[simp] theorem raise_draws (e : ErrCode) (s : State) : (raise e s).draws = s.draws := rfl
@[simp] theorem raise_depthSeen (e : ErrCode) (s : State) : (raise e s).depthSeen = s.depthSeen := rfl

/-- The claims' command cycle is completion. -/
theorem complete_eq_commandCycle (s : State) : complete s = commandCycle s := rfl

/-- The claims' recorded error is the shared error entry. -/
theorem raise_eq_erred (e : ErrCode) (s : State) (w : Word) (h : s.pend = some w) : raise e s = erred s w e := by
  simp [raise, erred, complete, commandCycle, h]

end Sys2Proof.Machine
end

