-- ==== Sys2Proof/Laws/Memory.lean ====
section
/-! SUPPORT. The laws of the sparse memories: read after write, and that every operation keeps the canonical form. -/

namespace Sys2Proof.Machine

@[simp] theorem read_nil (i : Nat) : Memory.read [] i = unlistedByte := rfl

theorem read_cons (a : Nat) (v : Byte) (m : Memory) (i : Nat) :
    Memory.read ((a, v) :: m) i = if a = i then v else Memory.read m i := rfl

/-- An index that no entry names reads as unlisted. -/
theorem read_of_absent (m : Memory) (i : Nat) (h : ∀ c ∈ m, c.1 ≠ i) : Memory.read m i = unlistedByte := by
  induction m with
  | nil => rfl
  | cons c m ih =>
    rw [Memory.read, if_neg (h c (by simp)), ih fun d hd => h d (by simp [hd])]

/-- Removing entries that `i` does not need leaves its reading. -/
theorem read_filter (m : Memory) (p : Host.Cell → Bool) (i : Nat) (h : ∀ c ∈ m, c.1 = i → p c = true) :
    Memory.read (m.filter p) i = Memory.read m i := by
  induction m with
  | nil => rfl
  | cons c m ih =>
    have ih := ih fun d hd => h d (by simp [hd])
    by_cases hp : p c = true
    · simp only [List.filter_cons, hp, if_true, Memory.read]; split <;> simp_all
    · have hne : c.1 ≠ i := fun e => hp (h c (by simp) e)
      simp only [List.filter_cons, hp, Memory.read, hne, if_false, Bool.false_eq_true]; exact ih

theorem mem_insert (m : Memory) (i : Nat) (v : Byte) (c : Host.Cell) :
    c ∈ Memory.insert m i v ↔ c = (i, v) ∨ c ∈ m := by
  induction m with
  | nil => simp [Memory.insert]
  | cons d m ih =>
    unfold Memory.insert
    split
    · simp
    · simp only [List.mem_cons, ih]; tauto

/-- Reading after an insertion, where no other entry has the index. -/
theorem read_insert (m : Memory) (i j : Nat) (v : Byte) (h : ∀ c ∈ m, c.1 ≠ i) :
    Memory.read (Memory.insert m i v) j = if i = j then v else Memory.read m j := by
  induction m with
  | nil => rfl
  | cons d m ih =>
    obtain ⟨a, w⟩ := d
    have ha : a ≠ i := h (a, w) (by simp)
    have ih := ih fun c hc => h c (by simp [hc])
    unfold Memory.insert
    split
    · rfl
    · rw [read_cons, read_cons, ih]
      by_cases haj : a = j
      · simp [haj, show i ≠ j from fun e => ha (haj.trans e.symm)]
      · simp [haj]

/-- What reading an index gives after a write. -/
theorem read_write (m : Memory) (i j : Nat) (v : Byte) :
    Memory.read (Memory.write m i v) j = if i = j then v else Memory.read m j := by
  have habs : ∀ c ∈ m.filter (fun c => c.1 != i), c.1 ≠ i := by simp
  have hoth : i ≠ j → Memory.read (m.filter (fun c => c.1 != i)) j = Memory.read m j := fun hne =>
    read_filter m _ j fun c _ hc => by simp [hc, Ne.symm hne]
  simp only [Memory.write]
  split
  · next hv =>
    by_cases hij : i = j
    · subst hij; rw [read_of_absent _ _ habs, if_pos rfl, hv]
    · rw [if_neg hij, hoth hij]
  · rw [read_insert _ _ _ _ habs]
    by_cases hij : i = j
    · simp [hij]
    · rw [if_neg hij, if_neg hij, hoth hij]

/-- What reading an index gives after a clear. -/
theorem read_clear (m : Memory) (took : Nat → Bool) (i : Nat) :
    Memory.read (Memory.clear m took) i = if took i then unlistedByte else Memory.read m i := by
  unfold Memory.clear
  by_cases h : took i = true
  · rw [if_pos h, read_of_absent]
    intro c hc e
    simp only [List.mem_filter, Bool.not_eq_true'] at hc
    rw [e, h] at hc
    simp at hc
  · rw [if_neg h, read_filter]
    intro c _ e
    simp [e, h]

theorem wf_nil : Memory.wf [] := ⟨List.Pairwise.nil, fun _ h => by cases h⟩

theorem wf_filter (m : Memory) (p : Host.Cell → Bool) (h : Memory.wf m) : Memory.wf (m.filter p) :=
  ⟨h.1.filter p, fun c hc => h.2 c (List.mem_of_mem_filter hc)⟩

theorem wf_insert (m : Memory) (i : Nat) (v : Byte) (h : Memory.wf m) (hi : ∀ c ∈ m, c.1 ≠ i)
    (hv : v ≠ unlistedByte) : Memory.wf (Memory.insert m i v) := by
  refine ⟨?_, fun c hc => ?_⟩
  · obtain ⟨hs, -⟩ := h
    induction m with
    | nil => simp [Memory.insert]
    | cons d m ih =>
      rw [List.pairwise_cons] at hs
      have hdi := hi d (by simp)
      unfold Memory.insert
      split
      · next hlt =>
        refine List.pairwise_cons.2 ⟨fun c hc => ?_, List.pairwise_cons.2 hs⟩
        rcases List.mem_cons.1 hc with rfl | hc
        · exact hlt
        · exact Nat.lt_trans hlt (hs.1 c hc)
      · next hge =>
        refine List.pairwise_cons.2 ⟨fun c hc => ?_, ih (fun c hc => hi c (by simp [hc])) hs.2⟩
        rcases (mem_insert _ _ _ _).1 hc with rfl | hc
        · exact Nat.lt_of_le_of_ne (Nat.le_of_not_lt hge) hdi
        · exact hs.1 c hc
  · rcases (mem_insert _ _ _ _).1 hc with rfl | hc
    · exact hv
    · exact h.2 c hc

/-- A write keeps the canonical form. -/
theorem wf_write (m : Memory) (i : Nat) (v : Byte) (h : Memory.wf m) : Memory.wf (Memory.write m i v) := by
  simp only [Memory.write]
  split
  · exact wf_filter m _ h
  · next hv => exact wf_insert _ _ _ (wf_filter m _ h) (by simp) hv

/-- A clear keeps the canonical form. -/
theorem wf_clear (m : Memory) (took : Nat → Bool) (h : Memory.wf m) : Memory.wf (Memory.clear m took) :=
  wf_filter m _ h

/-- Every entry after a write is an old one or the written one. -/
theorem mem_write (m : Memory) (i : Nat) (v : Byte) (c : Host.Cell) (h : c ∈ Memory.write m i v) :
    c = (i, v) ∨ c ∈ m := by
  simp only [Memory.write] at h
  split at h
  · exact .inr (List.mem_of_mem_filter h)
  · rcases (mem_insert _ _ _ _).1 h with h | h
    · exact .inl h
    · exact .inr (List.mem_of_mem_filter h)

@[simp] theorem get_set_same (bs : Buffers) (b : Buf) (m : Memory) : (bs.set b m).get b = m := by cases b <;> rfl

theorem get_set_other (bs : Buffers) (b c : Buf) (m : Memory) (h : c ≠ b) : (bs.set b m).get c = bs.get c := by
  cases b <;> cases c <;> first | rfl | exact absurd rfl h

/-- What reading an element gives after storing one. -/
theorem cell_putCell (s : State) (b c : Buf) (i j : Nat) (v : Byte) :
    (s.putCell b i v).cell c j = if c = b ∧ j = i then v &&& bufMask b else s.cell c j := by
  unfold State.cell State.putCell
  by_cases hb : c = b
  · subst hb
    simp only [get_set_same, read_write, true_and]
    by_cases hij : i = j
    · subst hij; simp [BitVec.and_assoc]
    · simp [hij, Ne.symm hij]
  · simp [get_set_other _ _ _ _ hb, hb]

/-- What reading an element gives after clearing a buffer. -/
theorem cell_clearBuf (s : State) (b c : Buf) (took : Nat → Bool) (j : Nat) :
    (s.clearBuf b took).cell c j = if c = b ∧ took j = true then 0 else s.cell c j := by
  unfold State.cell State.clearBuf
  by_cases hb : c = b
  · subst hb
    simp only [get_set_same, read_clear, true_and]
    by_cases ht : took j = true <;> simp [ht, unlistedByte]
  · simp [get_set_other _ _ _ _ hb, hb]

end Sys2Proof.Machine
end

