-- ==== Sys2Proof/Laws/Writes.lean ====
section
/-! SUPPORT. What one write and a list of writes can do, and how a command ends. -/

namespace Sys2Proof.Machine

/-- `t` agrees with `s` on every field that no command's writes own. -/
structure SameOuter (s t : State) : Prop where
  ieDone : t.ieDone = s.ieDone
  ieErr : t.ieErr = s.ieErr
  pend : t.pend = s.pend
  done : t.done = s.done
  err : t.err = s.err
  errcode : t.errcode = s.errcode
  drop : t.drop = s.drop
  ovr : t.ovr = s.ovr
  errcmd : t.errcmd = s.errcmd
  cmdcnt : t.cmdcnt = s.cmdcnt
  version : t.version = s.version
  level : t.level = s.level
  eccpb : t.eccpb = s.eccpb
  g1blk : t.g1blk = s.g1blk
  g1sz : t.g1sz = s.g1sz
  g2blk : t.g2blk = s.g2blk
  g2sz : t.g2sz = s.g2sz
  charLen : t.charLen = s.charLen
  rsSrc : t.rsSrc = s.rsSrc
  rsDst : t.rsDst = s.rsDst
  inputs : t.inputs = s.inputs
  bus : t.bus = s.bus
  draws : t.draws = s.draws
  depthSeen : t.depthSeen = s.depthSeen

theorem sameOuter_refl (s : State) : SameOuter s s := by constructor <;> rfl

theorem sameOuter_trans {s t u : State} (h : SameOuter s t) (k : SameOuter t u) : SameOuter s u := by
  cases h; cases k; constructor <;> simp_all

/-- One write keeps every field that no command owns. -/
theorem apply_sameOuter (took : Nat → Bool) (w : Write) (s : State) : SameOuter s (w.apply took s) := by
  cases w <;> simp only [Write.apply] <;> (try split) <;> constructor <;> rfl

@[simp] theorem applyAll_nil (s : State) : applyAll s [] = s := rfl

@[simp] theorem applyAll_cons (s : State) (w : Write) (ws : List Write) :
    applyAll s (w :: ws) = applyAll (w.apply (fun _ => true) s) ws := rfl

theorem applyAll_append (s : State) (ws vs : List Write) : applyAll s (ws ++ vs) = applyAll (applyAll s ws) vs :=
  List.foldl_append

/-- Any list of writes keeps every field that no command owns. -/
theorem applyAll_sameOuter (ws : List Write) (s : State) : SameOuter s (applyAll s ws) := by
  induction ws generalizing s with
  | nil => exact sameOuter_refl s
  | cons w ws ih => exact sameOuter_trans (apply_sameOuter _ w s) (ih _)

/-- An induction over a list of writes: what each write keeps, the list keeps. -/
theorem applyAll_induction {P : State → Prop} (ws : List Write) (s : State) (h0 : P s)
    (hw : ∀ w ∈ ws, ∀ s, P s → P (w.apply (fun _ => true) s)) : P (applyAll s ws) := by
  induction ws generalizing s with
  | nil => exact h0
  | cons w ws ih =>
    exact ih _ (hw w (by simp) s h0) fun v hv => hw v (by simp [hv])

/-- The same for a command whose writes happened only in part. -/
theorem applySome_induction {P : State → Prop} (took : Nat → Nat → Bool) (k : Nat) (ws : List Write) (s : State)
    (h0 : P s) (hw : ∀ w ∈ ws, ∀ k s, P s → P (w.apply (took k) s)) : P (applySome took s k ws) := by
  induction ws generalizing s k with
  | nil => exact h0
  | cons w ws ih =>
    exact ih _ _ (hw w (by simp) k s h0) fun v hv => hw v (by simp [hv])

/-- The buffer elements a write may touch. -/
def Write.touches : Write → Buf → Nat → Bool
  | .bit i _, b, k => decide (b = .bitbuf) && k == i / 8
  | .put c i _, b, k => decide (b = c) && k == i
  | .clear c, b, _ => decide (b = c)
  | _, _, _ => false

/-- A write keeps every element it does not touch. -/
theorem apply_cell_untouched (took : Nat → Bool) (w : Write) (s : State) (b : Buf) (k : Nat)
    (h : w.touches b k = false) : (w.apply took s).cell b k = s.cell b k := by
  cases w <;> simp only [Write.apply] <;> (try split) <;> (try rfl) <;>
    simp_all [Write.touches, cell_putCell, cell_clearBuf]

/-- A list of writes keeps every element that none of them touches. -/
theorem applyAll_cell_untouched (ws : List Write) (s : State) (b : Buf) (k : Nat)
    (h : ∀ w ∈ ws, w.touches b k = false) : (applyAll s ws).cell b k = s.cell b k :=
  applyAll_induction (P := fun t => t.cell b k = s.cell b k) ws s rfl fun w hw t ht =>
    (apply_cell_untouched _ w t b k (h w hw)).trans ht

/-- A run of element writes leaves the run's values there, and every other element as it was. -/
theorem applyAll_putRun_cell (b c : Buf) (vs : List Byte) (start k : Nat) (s : State) :
    (applyAll s (putRun b start vs)).cell c k =
      if c = b ∧ start ≤ k ∧ k < start + vs.length then vs.getD (k - start) 0 &&& bufMask b else s.cell c k := by
  induction vs generalizing start s with
  | nil => rw [if_neg (by simp only [List.length_nil]; omega)]; rfl
  | cons v vs ih =>
    simp only [putRun, applyAll_cons, Write.apply, ih, cell_putCell, List.length_cons, if_true]
    by_cases hc : c = b
    · subst hc
      by_cases hk : k = start
      · subst hk; simp
      · by_cases hin : start + 1 ≤ k ∧ k < start + 1 + vs.length
        · have h2 : start ≤ k ∧ k < start + (vs.length + 1) := by omega
          rw [if_pos ⟨rfl, hin⟩, if_pos ⟨rfl, h2⟩]
          rw [show k - start = (k - (start + 1)) + 1 by omega]; simp
        · have h2 : ¬ (start ≤ k ∧ k < start + (vs.length + 1)) := by omega
          rw [if_neg (fun h => hin h.2), if_neg (fun h => hk h.2), if_neg (fun h => h2 h.2)]
    · simp [hc]

/-- A command ends in a next state, always: its writes and completion, or its error. -/
theorem commit_ok (s : State) (ws : List Write) : commit s (.ok ws) = .next (complete (applyAll s ws)) := rfl

theorem commit_error (s : State) (e : ErrCode) : commit s (.error e) = .next (raise e s) := rfl

/-- How a command can end, and nothing else. -/
theorem commit_cases (s t : State) (r : Except ErrCode (List Write)) (h : commit s r = .next t) :
    (∃ ws, r = .ok ws ∧ t = complete (applyAll s ws)) ∨ (∃ e, r = .error e ∧ t = raise e s) := by
  cases r with
  | ok ws => exact .inl ⟨ws, rfl, by cases h; rfl⟩
  | error e => exact .inr ⟨e, rfl, by cases h; rfl⟩

@[simp] theorem bufs_get_cell (s t : State) (b : Buf) (k : Nat) (h : t.bufs = s.bufs) : t.cell b k = s.cell b k := by
  simp [State.cell, h]

@[simp] theorem complete_cell (s : State) (b : Buf) (k : Nat) : (complete s).cell b k = s.cell b k := rfl

@[simp] theorem raise_cell (e : ErrCode) (s : State) (b : Buf) (k : Nat) : (raise e s).cell b k = s.cell b k := rfl

end Sys2Proof.Machine
end

