-- ==== Sys2Proof/Laws/Step.lean ====
section
/-! SUPPORT. What a step can do: one lemma for the dispatch, one for the executor's turn, one for the inputs. -/

namespace Sys2Proof.Machine

/-- Every command is the end of its plan. -/
theorem exec_eq_commit (i : Instr) (s : State) : exec i s = commit s (plan i s) := by cases i <;> rfl

/-- Everything a command can do: make its plan's writes and complete, or record its plan's error. -/
theorem exec_cases (i : Instr) (s t : State) (h : exec i s = .next t) :
    (∃ ws, plan i s = .ok ws ∧ t = complete (applyAll s ws)) ∨ (∃ e, plan i s = .error e ∧ t = raise e s) :=
  commit_cases s t _ (by rw [← exec_eq_commit]; exact h)

/-- A command whose plan is its writes completes with them. -/
theorem exec_of_plan_ok (i : Instr) (s : State) (ws : List Write) (h : plan i s = .ok ws) :
    exec i s = .next (complete (applyAll s ws)) := by rw [exec_eq_commit, h]; rfl

/-- A command whose plan is an error records it. -/
theorem raises_of_plan_error (i : Instr) (s : State) (e : ErrCode) (h : plan i s = .error e) : Raises i s e := by
  intro w hw
  rw [exec_eq_commit, h]
  simp [commit, raise, complete, erred, commandCycle, hw]

/-- Everything the executor's turn can do. -/
theorem executorTurn_cases (s t : State) (h : executorTurn s = .next t) :
    (s.pend = none ∧ t = s) ∨
    (∃ w e, s.pend = some w ∧ decode w = .error e ∧ t = raise .illegalCommand s) ∨
    (∃ w i, s.pend = some w ∧ decode w = .ok i ∧ exec i s = .next t) := by
  unfold executorTurn at h
  split at h
  · next hp => exact .inl ⟨hp, by cases h; rfl⟩
  · next w hp =>
    split at h
    · next e hd => exact .inr (.inl ⟨w, e, hp, hd, by cases h; rfl⟩)
    · next i hd => exact .inr (.inr ⟨w, i, hp, hd, h⟩)

theorem step_idle (s : State) (h : s.inputs = []) : step s = executorTurn s := by simp [step, h]

theorem step_input (s : State) (a : Input) (rest : List Input) (h : s.inputs = a :: rest) :
    step s = perform a { s with inputs := rest } := by simp [step, h]

/-- Everything a step can do. -/
theorem step_cases (s t : State) (h : step s = .next t) :
    (s.inputs = [] ∧ executorTurn s = .next t) ∨
    (∃ rest, s.inputs = .executor :: rest ∧ executorTurn { s with inputs := rest } = .next t) ∨
    (∃ size off rest, s.inputs = .read size off :: rest ∧ t = hostRead size off { s with inputs := rest }) ∨
    (∃ size off v rest, s.inputs = .write size off v :: rest ∧
      t = hostWrite size off v { s with inputs := rest }) ∨
    (∃ content rest, s.inputs = .hardReset content :: rest ∧ t = hardReset content { s with inputs := rest }) := by
  unfold step at h
  split at h
  · next hi => exact .inl ⟨hi, h⟩
  · next a rest hi =>
    cases a with
    | read size off => exact .inr (.inr (.inl ⟨size, off, rest, hi, by cases h; rfl⟩))
    | write size off v => exact .inr (.inr (.inr (.inl ⟨size, off, v, rest, hi, by cases h; rfl⟩)))
    | hardReset content => exact .inr (.inr (.inr (.inr ⟨content, rest, hi, by cases h; rfl⟩)))
    | executor => exact .inr (.inl ⟨rest, hi, h⟩)

/-- The word that `withFetchWord` latches runs at the very next step. -/
theorem step_withFetchWord (s : State) (nbits w : Nat) :
    step (s.withFetchWord nbits w) = executorTurn { s with pend := some (BitVec.ofNat 32 (w % 2 ^ nbits)) } := by
  simp [step, State.withFetchWord, latchWord, perform]

end Sys2Proof.Machine
end

