-- ==== Sys2Proof/Laws/Bus.lean ====
section
/-! SUPPORT. What a step that is a host access does: one lemma per outcome of the access. -/

namespace Sys2Proof.Machine

/-- The accesses that are performed (20_memory.md R61). -/
theorem accessOk_word (off : Nat) (h : off % 4 = 0) (h' : off < 0x80000) : accessOk 4 off = true := by
  simp [accessOk, h, h']

/-- The accesses that are not (20_memory.md R61). -/
theorem accessOk_eq_false (size off : Nat) (h : size ≠ 4 ∨ off % 4 ≠ 0 ∨ 0x80000 ≤ off) :
    accessOk size off = false := by
  rcases h with h | h | h <;> simp [accessOk, h]

theorem step_read_busError (s : State) (size off : Nat) (rest : List Input) (h : s.inputs = .read size off :: rest)
    (ha : accessOk size off = false) : step s = .next { s with inputs := rest, bus := .busError } := by
  simp only [step, h, perform, hostRead, ha, if_true]

theorem step_write_busError (s : State) (size off : Nat) (v : Word) (rest : List Input)
    (h : s.inputs = .write size off v :: rest) (ha : accessOk size off = false) :
    step s = .next { s with inputs := rest, bus := .busError } := by
  simp only [step, h, perform, hostWrite, ha, if_true]

/-- Reading a target depends on nothing but the architectural state. -/
theorem readTarget_congr (s : State) (inputs : List Input) (bus : BusResponse) (t : Target) :
    readTarget { s with inputs := inputs, bus := bus } t = readTarget s t := by cases t <;> rfl

/-- A read while BUSY = 0. -/
theorem step_read_idle (s : State) (size off : Nat) (rest : List Input) (h : s.inputs = .read size off :: rest)
    (ha : accessOk size off = true) (hb : s.busy = false) :
    step s = .next { s with inputs := rest, bus := .performed (readTarget s (target off)) } := by
  have hb' : State.busy { s with inputs := rest } = false := hb
  rw [step_input s _ rest h]
  simp only [perform, hostRead, ha, hb', Bool.true_eq_false, if_false, Bool.false_eq_true]
  rw [← readTarget_congr s rest s.bus]

/-- A read while BUSY = 1 (70_reset_and_hazards.md R287). -/
theorem step_read_busy (s : State) (size off : Nat) (rest : List Input) (h : s.inputs = .read size off :: rest)
    (ha : accessOk size off = true) (hb : s.busy = true) :
    step s = .next { afterBusyRead { s with inputs := rest } (target off) with
      bus := .performed (readBusy { s with inputs := rest } (target off)) } := by
  have hb' : State.busy { s with inputs := rest } = true := hb
  rw [step_input s _ rest h]
  simp only [perform, hostRead, ha, hb', Bool.true_eq_false, if_false, if_true]

/-- A write that acts: BUSY = 0, or CTRL or STATUS. -/
theorem step_write_acts (s : State) (size off : Nat) (v : Word) (rest : List Input)
    (h : s.inputs = .write size off v :: rest) (ha : accessOk size off = true)
    (hb : s.busy = false ∨ writableBusy (target off) = true) :
    step s = .next { writeTarget v { s with inputs := rest } (target off) with bus := .performed 0 } := by
  have hc : (State.busy { s with inputs := rest } && !writableBusy (target off)) = false := by
    rcases hb with hb | hb
    · rw [show State.busy { s with inputs := rest } = false from hb]; rfl
    · rw [hb]; simp
  rw [step_input s _ rest h]
  simp only [perform, hostWrite, ha, hc, Bool.true_eq_false, if_false, Bool.false_eq_true]

/-- A write that BUSY discards (70_reset_and_hazards.md R288). -/
theorem step_write_discarded (s : State) (size off : Nat) (v : Word) (rest : List Input)
    (h : s.inputs = .write size off v :: rest) (ha : accessOk size off = true) (hb : s.busy = true)
    (ht : writableBusy (target off) = false) :
    step s = .next { s with inputs := rest, bus := .performed 0, ovr := true } := by
  have hc : (State.busy { s with inputs := rest } && !writableBusy (target off)) = true := by
    rw [show State.busy { s with inputs := rest } = true from hb, ht]; rfl
  rw [step_input s _ rest h]
  simp only [perform, hostWrite, ha, hc, Bool.true_eq_false, if_false, if_true]

/-- The targets that take writes while BUSY are CTRL and STATUS alone. -/
theorem writableBusy_target (off : Nat) (h1 : off ≠ 0x004) (h2 : off ≠ 0x008) : writableBusy (target off) = false := by
  unfold target
  split
  · unfold csrTarget; split <;> simp_all [writableBusy]
  · repeat (first | rfl | split)

/-- The cache after the executor's turn is the one that a read while BUSY looks ahead to. -/
theorem executorTurn_genCache (s u : State) (h : executorTurn s = .next u) : u.genCache = inFlightCache s := by
  rcases executorTurn_cases s u h with ⟨hp, rfl⟩ | ⟨w, e, hp, hd, rfl⟩ | ⟨w, i, hp, hd, hx⟩
  · simp [inFlightCache, inFlightWrites, hp]
  · simp [inFlightCache, inFlightWrites, hp, hd, raise, complete]
  · rcases exec_cases i s u hx with ⟨ws, hw, rfl⟩ | ⟨e, he, rfl⟩
    · simp [inFlightCache, inFlightWrites, hp, hd, hw, complete]
    · simp [inFlightCache, inFlightWrites, hp, hd, he, raise, complete]

/-- A command's end in terms of the error record: BUSY is 0 and DONE is 1, whatever the outcome
(46_control.md R242). -/
theorem executorTurn_completes (s : State) (hb : s.busy = true) :
    ∃ t, executorTurn s = .next t ∧ t.pend = none ∧ t.done = true ∧ t.ieDone = s.ieDone ∧ t.ieErr = s.ieErr := by
  obtain ⟨w, hp⟩ := Option.isSome_iff_exists.1 hb
  cases hd : decode w with
  | error e => exact ⟨raise .illegalCommand s, by simp [executorTurn, hp, hd], by simp [raise, complete]⟩
  | ok i =>
    cases hw : plan i s with
    | error e => exact ⟨raise e s, by simp [executorTurn, hp, hd, exec_eq_commit, hw, commit], by simp [raise, complete]⟩
    | ok ws =>
      have hs := applyAll_sameOuter ws s
      exact ⟨complete (applyAll s ws), by simp [executorTurn, hp, hd, exec_eq_commit, hw, commit],
        by simp [complete, hs.ieDone, hs.ieErr]⟩

end Sys2Proof.Machine
end

