-- ==== Sys2Proof/Laws/Gf.lean ====
section
/-! SUPPORT. The ROMs and tables of the spec, checked entry by entry against their definitions. -/

namespace Sys2Proof.Machine

/-- The logs are in 0 … 254 (40_gf.md R112). -/
theorem glog_lt (a : Byte) (x : Nat) (h : glog a = some x) : x < 255 := by
  have key : ∀ a : Byte, ∀ x ∈ glog a, x < 255 := by decide +kernel
  exact key a x h

/-- A value has no log exactly when it is 0 (40_gf.md R100). -/
theorem glog_eq_none (a : Byte) : glog a = none ↔ a = 0 := by
  unfold glog; split <;> simp_all

/-- The antilog of a value's log is the value (40_gf.md R100). -/
theorem alog_glog (a : Byte) (x : Nat) (h : glog a = some x) : alog x = a := by
  have key : ∀ a : Byte, ∀ x ∈ glog a, alog x = a := by decide +kernel
  exact key a x h

/-- The log of an antilog is its exponent (40_gf.md R100). -/
theorem glog_alog (x : Nat) (h : x < 255) : glog (alog x) = some x := by
  have key : ∀ x < 255, glog (alog x) = some x := by decide +kernel
  exact key x h

/-- The exponent 255 is the exponent 0 (40_gf.md R100). -/
theorem alog_255 : alog 255 = 1 := by decide

/-- No entry of ALOG is 0 (40_gf.md R100). -/
theorem alog_ne_zero (x : Nat) (h : x < 256) : alog x ≠ 0 := by
  have key : ∀ x < 256, alog x ≠ 0 := by decide +kernel
  exact key x h

/-- A product of non-zero values, through the logs (40_gf.md R102). -/
theorem gmul_of_logs (a b : Byte) (x y : Nat) (ha : glog a = some x) (hb : glog b = some y) :
    gmul a b = alog ((x + y) % 255) := by simp [gmul, ha, hb]

@[simp] theorem gmul_zero_left (b : Byte) : gmul 0 b = 0 := by
  have : glog 0 = none := by decide
  simp only [gmul, this]

@[simp] theorem gmul_zero_right (a : Byte) : gmul a 0 = 0 := by
  have : glog 0 = none := by decide
  simp only [gmul, this]
  cases glog a <;> rfl

/-- The RAWCW table as 44_blocks.md R182 prints it. -/
theorem rawCw_table : (List.range' 1 40).map rawCw =
    [26, 44, 70, 100, 134, 172, 196, 242, 292, 346, 404, 466, 532, 581, 655, 733, 815, 901, 991, 1085] ++
    [1156, 1258, 1364, 1474, 1588, 1706, 1828, 1921, 2051, 2185, 2323, 2465, 2611, 2761, 2876, 3034, 3196, 3362,
      3532, 3706] := by decide +kernel

/-- RAWCW never passes that of version 40 (44_blocks.md R182). -/
theorem rawCw_le (V : Nat) (h : V ≤ 40) : rawCw V ≤ 3706 := by
  have key : ∀ V < 41, rawCw V ≤ 3706 := by decide +kernel
  exact key V (by omega)

/-- Generators of 41_rs.md R133, most significant coefficient first. -/
theorem generator_7 : generator 7 = [0x01, 0x7F, 0x7A, 0x9A, 0xA4, 0x0B, 0x44, 0x75] := by decide +kernel

/-- Generators of 41_rs.md R133, most significant coefficient first. -/
theorem generator_10 :
    generator 10 = [0x01, 0xD8, 0xC2, 0x9F, 0x6F, 0xC7, 0x5E, 0x5F, 0x71, 0x9D, 0xC1] := by decide +kernel

/-- What the record check says (44_blocks.md R181). -/
theorem vrecOk_iff (s : State) : s.vrecOk = true ↔
    1 ≤ s.V ∧ s.V ≤ 40 ∧ 1 ≤ s.ECCPB ∧ s.ECCPB ≤ 30 ∧ 1 ≤ s.g1blk.toNat ∧ 1 ≤ s.g1sz.toNat ∧
    (s.g2blk.toNat = 0 ∨ s.g2sz.toNat = s.g1sz.toNat + 1) ∧ s.NBLK * s.ECCPB + s.DATA_TOTAL = rawCw s.V := by
  simp [State.vrecOk, and_assoc]

/-- A record that passes holds at most 3706 codewords, so its capacity is below 32768 bits (43_serializer.md R165). -/
theorem capbits_le (s : State) (h : s.vrecOk = true) : s.CAPBITS ≤ 29648 := by
  obtain ⟨-, hv, -, -, -, -, -, ht⟩ := (vrecOk_iff s).1 h
  have := rawCw_le s.V hv
  unfold State.CAPBITS; omega

end Sys2Proof.Machine
end

