-- ==== Sys2Proof/Laws/PerInstr.lean ====
section
/-! SUPPORT. Statements made per instruction: every command's word carries its opcode, and no bit outside the word's
32 is needed for its operands. -/

namespace Sys2Proof.Laws.EncodeOpcode

/-- The word of a well-formed command holds its opcode in bits 31:26, and its operands fit below
(30_encoding.md R80, R83). -/
def Statement (i : Instr) : Prop := i.wf = true → slice (encode i) 31 26 = i.opcode ∧ i.operandBits < 2 ^ 26

theorem slice_of_operands (op b : Nat) (hop : op < 64) (hb : b < 2 ^ 26) :
    slice (BitVec.ofNat 32 (op * 2 ^ 26 + b)) 31 26 = op := by
  simp only [slice, BitVec.toNat_ofNat]; omega

theorem opcode_lt (i : Instr) : i.opcode < 64 := by cases i <;> simp [Instr.opcode]

theorem of_bound (i : Instr) (hb : i.wf = true → i.operandBits < 2 ^ 26) : Statement i :=
  fun h => ⟨slice_of_operands _ _ (opcode_lt i) (hb h), hb h⟩

theorem nop : Statement .nop := of_bound _ fun _ => by decide
theorem gfLi (rd : Fin 16) (imm8 : Byte) : Statement (.gfLi rd imm8) :=
  of_bound _ fun _ => by simp only [Instr.operandBits]; omega
theorem gfAdd (rd ra rb : Fin 16) : Statement (.gfAdd rd ra rb) :=
  of_bound _ fun _ => by simp only [Instr.operandBits]; omega
theorem gfMul (rd ra rb : Fin 16) : Statement (.gfMul rd ra rb) :=
  of_bound _ fun _ => by simp only [Instr.operandBits]; omega
theorem gfDiv (rd ra rb : Fin 16) : Statement (.gfDiv rd ra rb) :=
  of_bound _ fun _ => by simp only [Instr.operandBits]; omega
theorem gfInv (rd ra : Fin 16) : Statement (.gfInv rd ra) :=
  of_bound _ fun _ => by simp only [Instr.operandBits]; omega
theorem gfExp (rd ra : Fin 16) : Statement (.gfExp rd ra) :=
  of_bound _ fun _ => by simp only [Instr.operandBits]; omega
theorem gfLog (rd ra : Fin 16) : Statement (.gfLog rd ra) :=
  of_bound _ fun _ => by simp only [Instr.operandBits]; omega
theorem bbClr : Statement .bbClr := of_bound _ fun _ => by decide
theorem bbApp (n : Nat) (imm16 : BitVec 16) : Statement (.bbApp n imm16) :=
  of_bound _ fun h => by simp only [Instr.wf, decide_eq_true_eq] at h; simp only [Instr.operandBits]; omega
theorem bbAppr (n : Nat) (ra : Fin 16) : Statement (.bbAppr n ra) :=
  of_bound _ fun h => by simp only [Instr.wf, decide_eq_true_eq] at h; simp only [Instr.operandBits]; omega
theorem bbRd (n pos : Nat) : Statement (.bbRd n pos) :=
  of_bound _ fun h => by
    simp only [Instr.wf, Bool.and_eq_true, decide_eq_true_eq] at h; simp only [Instr.operandBits]; omega
theorem rsGen (d : Nat) : Statement (.rsGen d) :=
  of_bound _ fun h => by simp only [Instr.wf, decide_eq_true_eq] at h; simp only [Instr.operandBits]; omega
theorem rsEnc (n e : Nat) : Statement (.rsEnc n e) :=
  of_bound _ fun h => by
    simp only [Instr.wf, Bool.and_eq_true, decide_eq_true_eq] at h; simp only [Instr.operandBits]; omega
theorem rsSyn (n e : Nat) : Statement (.rsSyn n e) :=
  of_bound _ fun h => by
    simp only [Instr.wf, Bool.and_eq_true, decide_eq_true_eq] at h; simp only [Instr.operandBits]; omega
theorem serHdr (mode : EncMode) : Statement (.serHdr mode) :=
  of_bound _ fun _ => by cases mode <;> decide
theorem serAln : Statement .serAln := of_bound _ fun _ => by decide
theorem serPad : Statement .serPad := of_bound _ fun _ => by decide
theorem blkEcc : Statement .blkEcc := of_bound _ fun _ => by decide
theorem blkWeave : Statement .blkWeave := of_bound _ fun _ => by decide
theorem plInit : Statement .plInit := of_bound _ fun _ => by decide
theorem plPlace : Statement .plPlace := of_bound _ fun _ => by decide
theorem plMask (m : Fin 8) : Statement (.plMask m) :=
  of_bound _ fun _ => by simp only [Instr.operandBits]; omega
theorem plFmt (m : Fin 8) : Statement (.plFmt m) :=
  of_bound _ fun _ => by simp only [Instr.operandBits]; omega

end Sys2Proof.Laws.EncodeOpcode
end

