-- ==== Sys2Proof/Laws/Plan.lean ====
section
/-! SUPPORT. What the plan of a command depends on, and what the command in flight leaves of the generator cache. -/

namespace Sys2Proof.Machine

theorem bbBits_inputs (s : State) (r : List Input) (pos n : Nat) :
    State.bbBits { s with inputs := r } pos n = s.bbBits pos n := by
  induction n with
  | zero => rfl
  | succ n ih => rw [State.bbBits, State.bbBits, ih]; rfl

theorem OFF_inputs (s : State) (r : List Input) (b : Nat) : State.OFF { s with inputs := r } b = s.OFF b := by
  induction b with
  | zero => rfl
  | succ b ih => rw [State.OFF, State.OFF, ih]; rfl

theorem blockData_inputs (s : State) (r : List Input) (b : Nat) :
    blockData { s with inputs := r } b = blockData s b := by
  rw [blockData, blockData, OFF_inputs]; rfl

theorem blockEccWrites_inputs (s : State) (r : List Input) (gen : List Byte) (bs : List Nat) :
    blockEccWrites { s with inputs := r } gen bs = blockEccWrites s gen bs := by
  induction bs with
  | nil => rfl
  | cons b bs ih => rw [blockEccWrites, blockEccWrites, ih, blockData_inputs]; rfl

theorem interleave_inputs (s : State) (r : List Input) : interleave { s with inputs := r } = interleave s := by
  simp only [interleave, OFF_inputs]; rfl

theorem zigzagFrom_inputs (s : State) (r : List Input) (N fuel right : Nat) :
    zigzagFrom { s with inputs := r } N fuel right = zigzagFrom s N fuel right := by
  induction fuel generalizing right with
  | zero => rfl
  | succ fuel ih => simp only [zigzagFrom, ih]; rfl

/-- A command's plan does not depend on what the agents still do. -/
theorem plan_inputs (i : Instr) (s : State) (r : List Input) : plan i { s with inputs := r } = plan i s := by
  cases i with
  | bbRd n pos => simp only [plan, planBbRd, bbBits_inputs]
  | blkEcc => simp only [plan, planBlkEcc, blockEccWrites_inputs]; rfl
  | blkWeave => simp only [plan, planBlkWeave, interleave_inputs]; rfl
  | plPlace => simp only [plan, planPlPlace, zigzag, zigzagFrom_inputs]; rfl
  | _ => rfl

/-- The cache after some writes depends on the cache before, and on nothing else of the state. -/
theorem applyAll_genCache_congr (ws : List Write) (s t : State) (h : s.genCache = t.genCache) :
    (applyAll s ws).genCache = (applyAll t ws).genCache := by
  induction ws generalizing s t with
  | nil => exact h
  | cons w ws ih =>
    refine ih _ _ ?_
    cases w <;> simp only [Write.apply] <;> (try split) <;> exact h

/-- The cache that the command in flight will leave does not depend on what the agents still do. -/
theorem inFlightCache_inputs (s : State) (r : List Input) : inFlightCache { s with inputs := r } = inFlightCache s := by
  have h : inFlightWrites { s with inputs := r } = inFlightWrites s := by
    simp only [inFlightWrites, plan_inputs]
  rw [inFlightCache, inFlightCache, h]
  exact applyAll_genCache_congr _ _ _ rfl

/-- Growing adds the entries asked for. -/
theorem growCache_length (k : Nat) (c : List (List Byte)) : (growCache k c).length = c.length + k := by
  induction k generalizing c with
  | zero => rfl
  | succ k ih => simp only [growCache, ih, List.length_append, List.length_singleton]; omega

/-- The depth after an extension (41_rs.md R126). -/
theorem extendCache_length (c : List (List Byte)) (d : Nat) : (extendCache c d).length = max c.length d := by
  rw [extendCache, growCache_length]; omega

end Sys2Proof.Machine
end

