-- ==== Sys2Proof/Tests/Slice0.lean ====
section
/-! SUPPORT. Tests: ill-formed terms, words written out from 30_encoding.md, one small step per command with the
values of 95_test_vectors.md, and a witness for the hypotheses of every statement. -/

namespace Sys2Proof.Tests

open Sys2Proof Sys2Proof.Machine

/-! ## Small states -/

/-- The state after one step that runs word `w` (the same state if the step stopped). -/
def after (w : Nat) (s : State) : State :=
  match step (s.withFetchWord 32 w) with
  | .next t => t
  | .fault _ => s
  | .refused _ => s

/-- The state after one step of the input `a`. -/
def afterInput (a : Input) (s : State) : State :=
  match step { s with inputs := [a] } with
  | .next t => t
  | .fault _ => s
  | .refused _ => s

/-- `m` is listed from element `i` on. -/
def image (i : Nat) : List Byte → Memory
  | [] => []
  | v :: vs => if v = 0 then image (i + 1) vs else (i, v) :: image (i + 1) vs

/-- Reset, with g1 and g2 given. -/
def gf (a b : Byte) : State := { State.reset with g := (State.reset.g.set 1 a).set 2 b }

/-- Reset, with the bit buffer given. -/
def bb (bytes : List Byte) (len : Nat) : State :=
  { State.reset with bufs := { State.reset.bufs with bitbuf := image 0 bytes }, bbLen := BitVec.ofNat 16 len }

/-- `s` with the 1-L record (VREC0 = 0x00070001, VREC1 = 0x00001301). -/
def rec1L (s : State) : State := { s with version := 1, eccpb := 7, g1blk := 1, g1sz := 19 }

/-- `s` with the 5-Q record (VREC0 = 0x00120205, VREC1 = 0x10020F02). -/
def rec5Q (s : State) : State :=
  { s with version := 5, level := 2, eccpb := 18, g1blk := 2, g1sz := 15, g2blk := 2, g2sz := 16 }

/-- `s` with the 7-L record (VREC0 = 0x00140007, VREC1 = 0x00004E02). -/
def rec7L (s : State) : State := { s with version := 7, eccpb := 20, g1blk := 2, g1sz := 78 }

/-- "HELLO" in CHARBUF. -/
def hello (s : State) : State :=
  { s with charLen := 5, bufs := { s.bufs with charbuf := image 0 [0x48, 0x45, 0x4C, 0x4C, 0x4F] } }

/-- The padded data of "HELLO" at 1-L (95_test_vectors.md SR3). -/
def helloData : List Byte :=
  [0x20, 0x2B, 0x0B, 0x78, 0xCC, 0x00, 0xEC, 0x11, 0xEC, 0x11, 0xEC, 0x11, 0xEC, 0x11, 0xEC, 0x11, 0xEC, 0x11, 0xEC]

/-- The state after SR3. -/
def padded : State := rec1L (bb helloData 152)

/-- `s` with the word `w` in PEND. -/
def pending (w : Word) (s : State) : State := { s with pend := some w }

/-! ## Ill-formed terms -/

theorem test_wf_refuses :
    (Instr.bbApp 32 0).wf = false ∧ (Instr.bbAppr 32 0).wf = false ∧
    (Instr.bbRd 32 0).wf = false ∧ (Instr.bbRd 0 32768).wf = false ∧ (Instr.rsGen 32).wf = false ∧
    (Instr.rsEnc 256 0).wf = false ∧ (Instr.rsEnc 0 32).wf = false ∧
    (Instr.rsSyn 256 0).wf = false ∧ (Instr.rsSyn 0 32).wf = false := by decide

theorem test_wf_takes_the_largest :
    (Instr.bbApp 31 0xFFFF).wf = true ∧ (Instr.bbAppr 31 15).wf = true ∧ (Instr.bbRd 31 32767).wf = true ∧
    (Instr.rsGen 31).wf = true ∧ (Instr.rsEnc 255 31).wf = true ∧ (Instr.rsSyn 255 31).wf = true := by decide

/-! ## Decoding: words written out field by field (30_encoding.md R81, R83) -/

theorem test_decode_nop : decode 0b000000_00000000000000000000000000 = .ok .nop := by decide
theorem test_decode_gfLi : decode 0b000001_0001_01010011_00000000000000 = .ok (.gfLi 1 0x53) := by decide
theorem test_decode_gfAdd : decode 0b000010_0011_0001_0010_00000000000000 = .ok (.gfAdd 3 1 2) := by decide
theorem test_decode_gfMul : decode 0b000011_0011_0001_0010_00000000000000 = .ok (.gfMul 3 1 2) := by decide
theorem test_decode_gfDiv : decode 0b000100_1111_1110_1101_00000000000000 = .ok (.gfDiv 15 14 13) := by decide
theorem test_decode_gfInv : decode 0b000101_0100_0001_000000000000000000 = .ok (.gfInv 4 1) := by decide
theorem test_decode_gfExp : decode 0b000110_0010_0001_000000000000000000 = .ok (.gfExp 2 1) := by decide
theorem test_decode_gfLog : decode 0b000111_0010_0001_000000000000000000 = .ok (.gfLog 2 1) := by decide
theorem test_decode_bbClr : decode 0b010000_00000000000000000000000000 = .ok .bbClr := by decide
theorem test_decode_bbApp : decode 0b010001_10000_00000_1010101111001101 = .ok (.bbApp 16 0xABCD) := by decide
theorem test_decode_bbAppr : decode 0b010010_01000_0011_00000000000000000 = .ok (.bbAppr 8 3) := by decide
theorem test_decode_bbRd : decode 0b010011_00100_000000_000000000001101 = .ok (.bbRd 4 13) := by decide
theorem test_decode_rsGen : decode 0b011000_00000000_01010_0000000000000 = .ok (.rsGen 10) := by decide
theorem test_decode_rsEnc : decode 0b011001_00010000_01010_0000000000000 = .ok (.rsEnc 16 10) := by decide
theorem test_decode_rsSyn : decode 0b011010_11111111_11111_0000000000000 = .ok (.rsSyn 255 31) := by decide
theorem test_decode_serHdr :
    decode 0b100000_00_000000000000000000000000 = .ok (.serHdr .numeric) ∧
    decode 0b100000_01_000000000000000000000000 = .ok (.serHdr .alphaNumeric) ∧
    decode 0b100000_10_000000000000000000000000 = .ok (.serHdr .byte) ∧
    decode 0b100000_11_000000000000000000000000 = .ok (.serHdr .kanji) := by decide
theorem test_decode_serAln : decode 0b100001_00000000000000000000000000 = .ok .serAln := by decide
theorem test_decode_serPad : decode 0b100010_00000000000000000000000000 = .ok .serPad := by decide
theorem test_decode_blkEcc : decode 0b101000_00000000000000000000000000 = .ok .blkEcc := by decide
theorem test_decode_blkWeave : decode 0b101001_00000000000000000000000000 = .ok .blkWeave := by decide
theorem test_decode_plInit : decode 0b110000_00000000000000000000000000 = .ok .plInit := by decide
theorem test_decode_plPlace : decode 0b110001_00000000000000000000000000 = .ok .plPlace := by decide
theorem test_decode_plMask : decode 0b110010_010_00000000000000000000000 = .ok (.plMask 2) := by decide
theorem test_decode_plFmt : decode 0b110011_101_00000000000000000000000 = .ok (.plFmt 5) := by decide

/-- A reserved bit set, at both ends of some formats' reserved fields (30_encoding.md R84 case (b)). -/
theorem test_decode_refuses_reserved_bits :
    decode 0x00000001 = .error .reservedBits ∧ decode 0x02000000 = .error .reservedBits ∧
    decode 0x0454C001 = .error .reservedBits ∧ decode 0x0454E000 = .error .reservedBits ∧
    decode 0x44810000 = .error .reservedBits ∧ decode 0x44900000 = .error .reservedBits ∧
    decode 0x4C008000 = .error .reservedBits ∧ decode 0x60040000 = .error .reservedBits ∧
    decode 0x60001000 = .error .reservedBits ∧ decode 0xC8400000 = .error .reservedBits := by decide

/-- Unassigned opcodes (30_encoding.md R84 case (a)). -/
theorem test_decode_refuses_unknown_opcodes :
    ([0x08, 0x0F, 0x14, 0x17, 0x1B, 0x1F, 0x23, 0x27, 0x2A, 0x2F, 0x34, 0x3F].all fun op =>
      decide (decode (BitVec.ofNat 32 (op * 2 ^ 26)) = .error .unknownOpcode)) = true := by decide

/-- Words of 95_test_vectors.md P1, encoded. -/
theorem test_encode_printed_words :
    encode (.gfDiv 4 3 2) = 0x110C8000 ∧ encode (.gfInv 5 1) = 0x15440000 ∧ encode (.gfExp 7 1) = 0x19C40000 ∧
    encode (.gfAdd 9 9 2) = 0x0A648000 ∧ Pseudo.gfSub 10 1 1 = [.gfAdd 10 1 1] ∧
    encode (.bbApp 8 1) = 0x45000001 ∧ encode (.plFmt 0) = 0xCC000000 := by decide

/-- The host's two names: the table's word is decoded, and runs at the very next step. -/
theorem test_table_word_runs :
    decodeTableWord 32 0x0454C000 = some (.gfLi 1 0x53) ∧ decodeTableWord 32 0x20000000 = none ∧
    (after 0x0454C000 State.reset).g[1] = 0x53 := by decide

/-! ## The GF family (95_test_vectors.md GF1-GF23) -/

theorem test_nop : (after 0x00000000 State.reset).statusWord = 0x00000002 ∧
    (after 0x00000000 State.reset).cmdcnt = 1 := by decide
theorem test_gfLi : (after 0x0454C000 State.reset).g[1] = 0x53 ∧
    (after 0x0454C001 State.reset).statusWord = 0x00000016 := by decide
theorem test_gfAdd : (after 0x08C48000 (gf 0x53 0xCA)).g[3] = 0x99 := by decide
theorem test_gfMul : (after 0x0CC48000 (gf 0x53 0xCA)).g[3] = 0x8F ∧
    (after 0x0CC48000 (gf 0x57 0x83)).g[3] = 0x31 := by decide
theorem test_gfMul_zero : (after 0x0CC48000 (gf 0x00 0x53)).g[3] = 0x00 := by decide
theorem test_gfDiv : (after 0x10C48000 (gf 0x53 0xCA)).g[3] = 0x6D ∧
    (after 0x10C48000 (gf 0x00 0x53)).g[3] = 0x00 := by decide
theorem test_gfDiv_by_zero : (after 0x10840000 (gf 0x07 0x55)).statusWord = 0x00000026 ∧
    (after 0x10840000 (gf 0x07 0x55)).g[2] = 0x55 ∧
    (after 0x10840000 (gf 0x07 0x55)).errcmd = 0x10840000 := by decide
theorem test_gfInv : (after 0x14840000 (gf 0x53 0)).g[2] = 0x8C ∧ (after 0x14840000 (gf 0x01 0)).g[2] = 0x01 := by
  decide
theorem test_gfInv_of_zero : (after 0x14840000 (gf 0x00 0)).statusWord = 0x00000026 := by decide
theorem test_gfExp : (after 0x18840000 (gf 8 0)).g[2] = 0x1D ∧ (after 0x18840000 (gf 255 0)).g[2] = 0x01 := by
  decide
theorem test_gfLog : (after 0x1C840000 (gf 0x53 0)).g[2] = 0xCE ∧ (after 0x1C840000 (gf 0xFF 0)).g[2] = 175 := by
  decide
theorem test_gfLog_of_zero : (after 0x1C840000 (gf 0x00 0)).statusWord = 0x00000036 := by decide

/-! ## The BB family (95_test_vectors.md BB1-BB19) -/

theorem test_bbClr : (after 0x40000000 (bb [0xD0, 0x1D] 16)).bbLen = 0 ∧
    (after 0x40000000 (bb [0xD0, 0x1D] 16)).bufs.bitbuf = [] := by decide
theorem test_bbApp : (after 0x4480FFFF State.reset).cells .bitbuf 0 2 = [0xF0, 0x00] ∧
    (after 0x4480FFFF State.reset).bbLen = 4 := by decide
/-- BB18: the bits after the appended one are cleared. -/
theorem test_bbApp_fills : (after 0x44200000 (bb [0xFF] 3)).cell .bitbuf 0 = 0xE0 ∧
    (after 0x44200000 (bb [0xFF] 3)).bbLen = 4 := by decide
/-- BB8, its second command. -/
theorem test_bbAppr : (after 0x48660000 { bb [0xA5] 8 with g := State.reset.g.set 3 0xA5 }).cells .bitbuf 0 2 =
    [0xA5, 0xA0] := by decide
theorem test_bbAppr_count : (after 0x49260000 State.reset).statusWord = 0x00000016 := by decide
theorem test_bbRd : (after 0x4D800000 (bb [0xD0, 0x1D] 16)).result = 0x0D01 ∧
    (after 0x4C20000F (bb [0xD0, 0x1D] 16)).result = 0x0001 := by decide
theorem test_bbRd_range : (after 0x4C80000D (bb [0xD0, 0x1D] 16)).statusWord = 0x00000076 := by decide

/-! ## The RS family (95_test_vectors.md RS1-RS17, PQ7) -/

theorem test_rsGen : (after 0x6000E000 State.reset).statusWord = 0x00000702 ∧
    cachedGen (after 0x6000E000 State.reset).genCache 4 = [0x01, 0x0F, 0x36, 0x78, 0x40] := by decide +kernel
theorem test_rsGen_degree : (after 0x6003E000 State.reset).statusWord = 0x00000046 := by decide
theorem test_pdivrem : pdivrem [1, 0, 0, 0] [1, 3, 2] = .ok ([1, 3], [7, 6]) := by decide +kernel
/-- RS8: leading zeros of the data. -/
theorem test_rsEnc : (after 0x640C8000 (bb [0x00, 0x00, 0x01] 24)).cells .eccbuf 0 4 = [0x0F, 0x36, 0x78, 0x40] := by
  decide +kernel
theorem test_rsEnc_length : (after 0x6400E000 State.reset).statusWord = 0x00000056 := by decide
/-- RS11's block `01 02` with ECC `01 02`, then with its last byte wrong by 55 (as RS17: every syndrome is 55). -/
theorem test_rsSyn :
    (after 0x68084000 { bb [1, 2] 16 with bufs := ⟨[], [(0, 1), (1, 2)], [(0, 1), (1, 2)], [], []⟩ }).synz = true ∧
    (after 0x68084000 { bb [1, 2] 16 with bufs := ⟨[], [(0, 1), (1, 2)], [(0, 1), (1, 0x57)], [], []⟩ }).syn[1] =
      0x55 := by decide +kernel
theorem test_rsSyn_degree : (after 0x68040000 State.reset).statusWord = 0x00000046 := by decide

/-! ## The SER family (95_test_vectors.md SR1-SR21) -/

theorem test_serHdr : (after 0x81000000 (hello (rec1L State.reset))).cells .bitbuf 0 2 = [0x20, 0x28] ∧
    (after 0x81000000 (hello (rec1L State.reset))).bbLen = 13 := by decide +kernel
/-- SR11: the mode is checked before the record. -/
theorem test_serHdr_mode : (after 0x80000000 State.reset).statusWord = 0x00000096 := by decide
theorem test_serAln : (after 0x84000000 (hello (rec1L (bb [0x20, 0x28] 13)))).cells .bitbuf 0 6 =
    [0x20, 0x2B, 0x0B, 0x78, 0xCC, 0x00] := by decide +kernel
/-- SR12: "HeLLO". -/
theorem test_serAln_character :
    (after 0x84000000 { rec1L (bb [0x20, 0x28] 13) with
      charLen := 5, bufs := ⟨image 0 [0x48, 0x65, 0x4C, 0x4C, 0x4F], [], [], [], []⟩ }).statusWord = 0x000000A6 := by
  decide
/-- SR21. -/
theorem test_serPad : (after 0x88000000 (rec1L (bb [] 135))).cells .bitbuf 16 3 = [0x00, 0x00, 0xEC] ∧
    (after 0x88000000 (rec1L (bb [] 135))).bbLen = 152 := by decide +kernel
/-- SR19. -/
theorem test_serPad_capacity : (after 0x88000000 (rec1L (bb [] 153))).statusWord = 0x000000B6 := by decide
/-- The count field's width changes between versions 9 and 10 and between 26 and 27 (43_serializer.md R163). -/
theorem test_ccbits : [1, 9, 10, 26, 27, 40].map ccbits = [9, 9, 11, 11, 13, 13] := by decide

/-! ## The BLK family (95_test_vectors.md BK1-BK6) -/

theorem test_blkEcc : (after 0xA0000000 padded).cells .eccbuf 0 7 = [0x6E, 0x39, 0xDD, 0x98, 0x8E, 0xDB, 0x1F] := by
  decide +kernel
/-- BK3. -/
theorem test_blkEcc_sequence : (after 0xA0000000 (rec1L (bb [] 41))).statusWord = 0x000000C6 := by decide
/-- BK2. -/
theorem test_blkWeave : (after 0xA4000000 padded).cells .cwbuf 0 19 = helloData ∧
    (after 0xA4000000 padded).cwLen = 26 := by decide +kernel
/-- BK6: column 14, and column 15, which takes only blocks 2 and 3. -/
theorem test_interleave_two_groups :
    ((interleave (rec5Q (bb ((List.range 62).map (BitVec.ofNat 8)) 496))).take 62).drop 56 =
      [0x0E, 0x1D, 0x2C, 0x3C, 0x2D, 0x3D] := by decide +kernel

/-! ## The PL family (95_test_vectors.md PL1-PL15) -/

/-- PL1: rows 0 and 8. -/
theorem test_plInit :
    (List.range 21).map ((after 0xC0000000 (rec1L State.reset)).matCell 0) =
      [3, 3, 3, 3, 3, 3, 3, 2, 6, 0, 0, 0, 0, 2, 3, 3, 3, 3, 3, 3, 3] ∧
    (List.range 21).map ((after 0xC0000000 (rec1L State.reset)).matCell 8) =
      [6, 6, 6, 6, 6, 6, 3, 6, 6, 0, 0, 0, 0, 6, 6, 6, 6, 6, 6, 6, 6] := by decide +kernel
/-- The record check's vectors: V = 0, V = 41, ECCPB = 0, G1BLK = 0, G2SZ = G1SZ, and a G2SZ that is ignored. -/
theorem test_record_check :
    { rec1L State.reset with version := 0 }.vrecOk = false ∧ { rec1L State.reset with version := 41 }.vrecOk = false ∧
    { rec1L State.reset with eccpb := 0 }.vrecOk = false ∧ { rec1L State.reset with g1blk := 0 }.vrecOk = false ∧
    { rec5Q State.reset with g2sz := 15 }.vrecOk = false ∧ (rec5Q State.reset).vrecOk = true ∧
    { rec1L State.reset with g2sz := 99 }.vrecOk = true := by decide
/-- PL9 on a matrix without function cells: the first eight cells of the sweep. -/
theorem test_plPlace :
    [(20, 20), (20, 19), (19, 20), (19, 19), (18, 20), (18, 19), (17, 20), (17, 19)].map
      (fun rc => (after 0xC4000000 { rec1L State.reset with
        matVer := 1, cwLen := 1, bufs := ⟨[], [], [], [(0, 0x20)], [(5396, 1)]⟩ }).matCell rc.1 rc.2) =
      [0, 0, 1, 0, 0, 0, 0, 0] := by decide +kernel
/-- PL6. -/
theorem test_plPlace_sequence : (after 0xC4000000 (rec1L State.reset)).statusWord = 0x000000C6 := by decide
/-- PL10: a data cell and its neighbour; a function cell stays. -/
theorem test_plMask :
    [(20, 20), (20, 19), (0, 0)].map (fun rc => (after 0xC8000000 { rec1L State.reset with
      matVer := 1, bufs := ⟨[], [], [], [], [(0, 3)]⟩ }).matCell rc.1 rc.2) = [1, 0, 3] := by decide +kernel
/-- PL12. -/
theorem test_maskCond : (List.finRange 8).map (fun m => (List.range 6).map (maskCond m 1)) =
    [[false, true, false, true, false, true], [false, false, false, false, false, false],
     [true, false, false, true, false, false], [false, false, true, false, false, true],
     [true, true, true, false, false, false], [true, false, false, false, false, false],
     [true, true, true, false, false, false], [false, false, false, true, true, true]] := by decide +kernel
/-- P3, row 8: format bits 14 to 7 of 0x77C4 in columns 0 to 5, 7 and 8. -/
theorem test_plFmt : [0, 1, 2, 3, 4, 5, 7, 8].map ((after 0xCC000000 { rec1L State.reset with matVer := 1 }).matCell 8) =
    [3, 3, 3, 2, 3, 3, 3, 3] := by decide +kernel
/-- PL13 and PL5. -/
theorem test_info_words : fmtWord 0 0 = 0x77C4 ∧ fmtWord 1 5 = 0x40CE ∧ verWord 7 = 0x07C94 := by decide
/-- PL3. -/
theorem test_alignPos : alignPos 2 = [6, 18] ∧ alignPos 7 = [6, 22, 38] ∧
    alignPos 40 = [6, 30, 58, 86, 114, 142, 170] := by decide

/-! ## The host's side (95_test_vectors.md CC1-CC10, P5) -/

/-- CC3 and CC4. -/
theorem test_drop :
    (afterInput (.write 4 0x00C 0) (after 0x20000000 State.reset)).statusWord = 0x00002016 ∧
    (afterInput (.write 4 0x00C 0) (after 0x20000000 State.reset)).cmdcnt = 1 := by decide
/-- CC5. -/
theorem test_clear_error :
    (afterInput (.write 4 0x008 0x00002006) (after 0x20000000 State.reset)).statusWord = 0 ∧
    (afterInput (.write 4 0x008 0x00002006) (after 0x20000000 State.reset)).errcmd = 0 := by decide
/-- CC6, its discarded write. -/
theorem test_busy_write_is_discarded :
    (afterInput (.write 4 0x104 0x55) (pending 0 State.reset)).g[1] = 0 ∧
    (afterInput (.write 4 0x104 0x55) (pending 0 State.reset)).ovr = true := by decide
/-- CC8. -/
theorem test_irq_masked :
    { after 0x20000000 State.reset with ieErr := true }.irq = true ∧
    (afterInput (.write 4 0x004 0) { after 0x20000000 State.reset with ieErr := true }).irq = false := by decide
/-- CC9: MAT stays, MATVER and the version record do not. -/
theorem test_soft_reset :
    (afterInput (.write 4 0x004 7) { rec1L State.reset with matVer := 1, bufs := ⟨[], [], [], [], [(0, 3)]⟩ }).matVer = 0 ∧
    (afterInput (.write 4 0x004 7) { rec1L State.reset with
      matVer := 1, bufs := ⟨[], [], [], [], [(0, 3)]⟩ }).bufs.mat = [(0, 3)] ∧
    (afterInput (.write 4 0x004 7) (rec1L State.reset)).ctrlWord = 0 := by decide +kernel
/-- The address map at its edges (20_memory.md R62). -/
theorem test_address_map :
    target 0x000 = .id ∧ target 0x03C = .matVer ∧ target 0x040 = .reserved ∧ target 0x13C = .greg 15 ∧
    target 0x27C = .syn 31 ∧ target 0x1FFC = .genram 31 31 ∧ target 0x8010 = .element .charbuf 4 ∧
    target 0xFFFC = .element .charbuf 8191 ∧ target 0x1BFFC = .element .cwbuf 4095 ∧
    target 0x7FFFC = .element .mat 65535 := by decide
/-- The version record's words, as P3 writes them. -/
theorem test_record_words :
    (afterInput (.write 4 0x024 0x10020F02) (afterInput (.write 4 0x020 0x00120205) State.reset)) =
      { rec5Q State.reset with bus := .performed 0 } ∧
    readTarget (rec5Q State.reset) .vrec0 = 0x00120205 ∧ readTarget (rec5Q State.reset) .vrec1 = 0x10020F02 := by
  decide

/-! ## Witnesses: for each statement with hypotheses, a state and operands that meet them, each clause at the ends
of its range -/

theorem test_witness_DecodingAndEncodingAreInverse :
    (Instr.bbRd 31 32767).wf = true ∧ decode 0x4D800000 = .ok (.bbRd 12 0) := by decide

theorem test_witness_LegalWordsAreTheTableRows :
    (⟨0x33, "PL.FMT", 0x007FFFFF⟩ : OpRow) ∈ opcodeMap ∧
    OpRow.selects ⟨0x33, "PL.FMT", 0x007FFFFF⟩ 0xCF800000 = true := by decide

theorem test_witness_IllegalWordIsAcceptedThenRecorded :
    (∀ r ∈ opcodeMap, r.selects 0x20000000 = false) ∧ (∀ r ∈ opcodeMap, r.selects 0x00000001 = false) ∧
    { State.reset with inputs := [.write 4 0x00C 0x20000000] }.inputs = .write 4 0x00C 0x20000000 :: [] ∧
    State.reset.pend = none ∧ State.reset.err = false ∧
    { pending 0x00000001 State.reset with inputs := [.executor] }.inputs = .executor :: [] ∧
    (pending 0x00000001 State.reset).pend = some 0x00000001 := by decide

theorem test_witness_StepRunsTheDecodedCommand :
    (pending 0x0454C000 State.reset).pend = some 0x0454C000 ∧ decode 0x0454C000 = .ok (.gfLi 1 0x53) ∧
    { pending 0x0454C000 State.reset with inputs := [.executor] }.inputs = .executor :: [] ∧
    (pending 0x0454C000 State.reset).inputs = [] := by decide

theorem test_witness_CommandCompletesOrRecordsOneError : (pending 0 State.reset).pend = some 0 := by decide

theorem test_witness_RecordedErrorIsOneOfTheCommandsCodes :
    CacheOk (pending 0x14840000 State.reset) ∧ (pending 0x14840000 State.reset).pend = some 0x14840000 ∧
    exec (.gfInv 2 1) (pending 0x14840000 State.reset) =
      .next (erred (pending 0x14840000 State.reset) 0x14840000 .divisionByZero) ∧
    (pending 0x14840000 State.reset).err = false :=
  ⟨fun k hk => absurd hk (Nat.not_lt_zero k), rfl, rfl, rfl⟩

theorem test_witness_FieldTablesSatisfyTheirDefinition : (254 : Nat) < 255 := by decide

theorem test_witness_FieldLaws : (0xCA : Byte) ≠ 0 := by decide

/-- Each format's opcode with clear reserved bits, and with one reserved bit set and the word in PEND. -/
theorem test_witness_DecodesAs :
    slice 0x0CC48000 31 26 = 0x03 ∧ (∀ z ∈ [(13, 0)], slice 0x0CC48000 z.1 z.2 = 0) ∧
    slice 0x60041000 31 26 = 0x18 ∧ (∃ z ∈ [(25, 18), (12, 0)], slice 0x60041000 z.1 z.2 ≠ 0) ∧
    (pending 0x60041000 State.reset).pend = some 0x60041000 := by decide

/-- The hypothesis of every `Raises`, and the clauses on the divisor (GF.DIV, GF.INV, GF.LOG). -/
theorem test_witness_GfDivWritesTheQuotientOrRaises :
    (gf 7 0).g[(2 : Fin 16)] = 0 ∧ (pending 0x10848000 (gf 7 0)).pend = some 0x10848000 ∧
    (gf 7 1).g[(2 : Fin 16)] ≠ 0 := by decide

theorem test_witness_GfInvWritesTheInverseOrRaises :
    (gf 0 0).g[(1 : Fin 16)] = 0 ∧ (gf 0xFF 0).g[(1 : Fin 16)] ≠ 0 := by decide

theorem test_witness_GfLogWritesTheLogOrRaises :
    (gf 0 1).g[(1 : Fin 16)] = 0 ∧ (gf 1 0).g[(1 : Fin 16)] ≠ 0 := by decide

theorem test_witness_BbClrEmptiesTheBitBuffer : (4095 : Nat) < 4096 ∧ Buf.mat ≠ .bitbuf := by decide

theorem test_witness_BbAppAppendsOrRaises :
    ((0 : Nat) < 1 ∧ 16 < 17) ∧ (1 ≤ 16 ∧ 16 ≤ 16 ∧ 32768 < (bb [] 32753).bbLen.toNat + 16) ∧
    (1 ≤ 1 ∧ 1 ≤ 16 ∧ (bb [] 32767).bbLen.toNat + 1 ≤ 32768) := by decide

theorem test_witness_BbApprAppendsOrRaises :
    ((0 : Nat) < 1 ∧ 8 < 9) ∧ (1 ≤ 8 ∧ 8 ≤ 8 ∧ 32768 < (bb [] 32761).bbLen.toNat + 8) ∧
    (1 ≤ 8 ∧ 8 ≤ 8 ∧ (bb [] 32760).bbLen.toNat + 8 ≤ 32768) := by decide

theorem test_witness_BbRdReadsOrRaises :
    ((0 : Nat) < 1 ∧ 16 < 17) ∧ (1 ≤ 1 ∧ 1 ≤ 16 ∧ (bb [] 16).bbLen.toNat < 16 + 1) ∧
    (1 ≤ 16 ∧ 16 ≤ 16 ∧ 0 + 16 ≤ (bb [] 16).bbLen.toNat) := by decide

theorem test_witness_AppendThenReadReturnsTheValue :
    1 ≤ 16 ∧ 16 ≤ 16 ∧ (bb [] 32752).bbLen.toNat + 16 ≤ 32768 := by decide

theorem test_witness_OnlyBbClrShortensTheBitBuffer :
    Instr.nop ≠ .bbClr ∧ exec .nop State.reset = .next (commandCycle State.reset) ∧
    11 < (bb [0xD0, 0x10] 12).bbLen.toNat := ⟨by decide, rfl, by decide⟩

theorem test_witness_RsGenExtendsTheCacheOrRaises :
    ((0 : Nat) < 1 ∧ 30 < 31) ∧ (1 ≤ 30 ∧ 30 ≤ 30) ∧
    { State.reset with genCache := [[1, 1]] }.genDepth < 2 ∧
    1 ≤ { State.reset with genCache := [[1, 1]] }.genDepth := by decide

theorem test_witness_RsEncAndSynCheckTheirOperandsInOrder :
    Instr.rsSyn 1 30 ∈ [Instr.rsEnc 1 30, Instr.rsSyn 1 30] ∧ ((0 : Nat) < 1 ∧ 30 < 31) ∧
    (1 ≤ 30 ∧ 30 ≤ 30 ∧ (1 : Nat) ≠ 0 ∧ 4096 < { State.reset with rsSrc := 4095 }.rsSrc.toNat + 2) ∧
    ({ State.reset with rsSrc := 4095, rsDst := 4067 }.rsSrc.toNat + 1 ≤ 4096 ∧
      4096 < { State.reset with rsSrc := 4095, rsDst := 4067 }.rsDst.toNat + 30) := by decide

/-- 255 data bytes and 30 ECC bytes that end at the ends of their buffers, with a cache of depth 1. -/
def edgeRuns : State := { State.reset with rsSrc := 3841, rsDst := 4066, genCache := [[1, 1]] }

/-- The checks of RS.ENC (RS.SYN has the same), and past them both runs at the ends of their buffers. -/
theorem test_witness_RsEncWritesTheRemainder :
    ((0 : Nat) < 1 ∧ 30 < 31) ∧ 4096 < edgeRuns.rsSrc.toNat + 256 ∧
    CacheOk edgeRuns ∧ 1 ≤ 30 ∧ 30 ≤ 30 ∧ 255 ≠ 0 ∧ edgeRuns.rsSrc.toNat + 255 ≤ 4096 ∧
    edgeRuns.rsDst.toNat + 30 ≤ 4096 :=
  ⟨by decide, by decide, by unfold CacheOk; decide +kernel, by decide, by decide, by decide, by decide, by decide⟩

theorem test_witness_RsSynWritesTheSyndromes :
    1 ≤ 30 ∧ 30 ≤ 30 ∧ 255 ≠ 0 ∧ edgeRuns.rsSrc.toNat + 255 ≤ 4096 ∧ edgeRuns.rsDst.toNat + 30 ≤ 4096 := by decide

theorem test_witness_SyndromeIsThePowerSum : (254 : Nat) < 255 := by decide

theorem test_witness_EncodedBlockHasZeroSyndromes :
    CacheOk (bb [0x20, 0x5B] 16) ∧ 1 ≤ 10 ∧ 10 ≤ 30 ∧ 2 ≠ 0 ∧ (bb [0x20, 0x5B] 16).rsSrc.toNat + 2 ≤ 4096 ∧
    (bb [0x20, 0x5B] 16).rsDst.toNat + 10 ≤ 4096 :=
  ⟨fun k hk => absurd hk (Nat.not_lt_zero k), by decide, by decide, by decide, by decide, by decide⟩

/-- 1-L, the largest count of its field, and room for the header exactly. -/
def lastHeader : State := { rec1L (bb [] 139) with charLen := 511 }

/-- The count 512 is the first that 7-L's 9-bit field does not hold (SR15); with BB_LEN = 139, 4 + 9 bits just fit
1-L's 152, and with 140 they do not. -/
theorem test_witness_SerHdrAppendsTheHeaderOrRaises :
    EncMode.kanji ≠ .alphaNumeric ∧ State.reset.vrecOk = false ∧
    ((rec7L { State.reset with charLen := 512 }).vrecOk = true ∧
      2 ^ ccbits (rec7L { State.reset with charLen := 512 }).V ≤
        (rec7L { State.reset with charLen := 512 }).charLen.toNat) ∧
    ((rec1L (bb [] 140)).vrecOk = true ∧
      (rec1L (bb [] 140)).CAPBITS < (rec1L (bb [] 140)).bbLen.toNat + 4 + ccbits (rec1L (bb [] 140)).V) ∧
    (lastHeader.vrecOk = true ∧ lastHeader.charLen.toNat < 2 ^ ccbits lastHeader.V ∧
      lastHeader.bbLen.toNat + 4 + ccbits lastHeader.V ≤ lastHeader.CAPBITS) := by decide

/-- "HELLO" needs 28 bits: at BB_LEN = 124 they just fit 152, at 125 they do not; CHARBUF empty has no characters. -/
theorem test_witness_SerAlnAppendsThePayloadOrRaises :
    State.reset.vrecOk = false ∧
    ((rec1L { State.reset with charLen := 1 }).vrecOk = true ∧
      ∃ k < (rec1L { State.reset with charLen := 1 }).charLen.toNat,
      alnumIndex ((rec1L { State.reset with charLen := 1 }).cell .charbuf k) = none) ∧
    ((hello (rec1L (bb [] 125))).vrecOk = true ∧
      (∀ k < (hello (rec1L (bb [] 125))).charLen.toNat,
        alnumIndex ((hello (rec1L (bb [] 125))).cell .charbuf k) ≠ none) ∧
      (hello (rec1L (bb [] 125))).CAPBITS < (hello (rec1L (bb [] 125))).bbLen.toNat + (11 * (5 / 2) + 6 * (5 % 2))) ∧
    ((hello (rec1L (bb [] 124))).vrecOk = true ∧
      (∀ k < (hello (rec1L (bb [] 124))).charLen.toNat,
        alnumIndex ((hello (rec1L (bb [] 124))).cell .charbuf k) ≠ none) ∧
      (hello (rec1L (bb [] 124))).bbLen.toNat + (11 * (5 / 2) + 6 * (5 % 2)) ≤ (hello (rec1L (bb [] 124))).CAPBITS) := by
  decide

theorem test_witness_SerPadFillsToCapacityOrRaises :
    State.reset.vrecOk = false ∧ ((rec1L (bb [] 153)).vrecOk = true ∧
      (rec1L (bb [] 153)).CAPBITS < (rec1L (bb [] 153)).bbLen.toNat) ∧
    ((rec1L (bb [] 152)).vrecOk = true ∧ (rec1L (bb [] 152)).bbLen.toNat ≤ (rec1L (bb [] 152)).CAPBITS) := by decide

theorem test_witness_BlkEccWritesEveryBlocksEccOrRaises :
    State.reset.vrecOk = false ∧
    ((rec1L (bb [] 151)).vrecOk = true ∧ (rec1L (bb [] 151)).bbLen.toNat ≠ (rec1L (bb [] 151)).CAPBITS) ∧
    CacheOk padded ∧ padded.vrecOk = true ∧ padded.bbLen.toNat = padded.CAPBITS :=
  ⟨by decide, by decide, fun k hk => absurd hk (Nat.not_lt_zero k), by decide, by decide⟩

theorem test_witness_BlkWeaveWritesTheInterleavedCodewordsOrRaises :
    State.reset.vrecOk = false ∧
    ((rec5Q (bb [] 495)).vrecOk = true ∧ (rec5Q (bb [] 495)).bbLen.toNat ≠ (rec5Q (bb [] 495)).CAPBITS) ∧
    ((rec5Q (bb [] 496)).vrecOk = true ∧ (rec5Q (bb [] 496)).bbLen.toNat = (rec5Q (bb [] 496)).CAPBITS) := by decide

theorem test_witness_InterleaveIsAPermutation : (rec5Q State.reset).vrecOk = true := by decide

theorem test_witness_PlInitDrawsTheFunctionPatternsOrRaises :
    State.reset.vrecOk = false ∧ (rec7L State.reset).vrecOk = true ∧ (255 : Nat) < 256 := by decide

/-- The 1-L record, a blank matrix taken for version 1, and `n` codewords. -/
def blank1 (n : Nat) : State := { rec1L State.reset with matVer := 1, cwLen := BitVec.ofNat 13 n }

/-- With no function cell in MAT, version 1 has 441 - 21 cells off column 6, room for 52 codewords and not for 53. -/
theorem test_witness_PlPlacePlacesTheCodewordBitsOrRaises :
    State.reset.vrecOk = false ∧
    ((rec1L State.reset).vrecOk = true ∧ (rec1L State.reset).matVer.toNat ≠ (rec1L State.reset).V) ∧
    ((blank1 53).vrecOk = true ∧ (blank1 53).matVer.toNat = (blank1 53).V ∧
      (zigzag (blank1 53) (blank1 53).N).length < 8 * (blank1 53).cwLen.toNat) ∧
    ((blank1 52).vrecOk = true ∧ (blank1 52).matVer.toNat = (blank1 52).V ∧
      8 * (blank1 52).cwLen.toNat ≤ (zigzag (blank1 52) (blank1 52).N).length) := by
  decide +kernel

theorem test_witness_ZigzagVisitsEachDataCellOnce :
    (1 ≤ { State.reset with version := 1 }.V ∧ { State.reset with version := 1 }.V ≤ 40) ∧
    (1 ≤ { State.reset with version := 40 }.V ∧ { State.reset with version := 40 }.V ≤ 40) := by decide

/-- PL.MASK and PL.FMT: no record, a matrix of no version, a matrix of the record's version; 7 is the first version
with version information. -/
theorem test_witness_PlFmtWritesTheFormatAndVersionBitsOrRaises :
    State.reset.vrecOk = false ∧
    ((rec7L State.reset).vrecOk = true ∧ (rec7L State.reset).matVer.toNat ≠ (rec7L State.reset).V) ∧
    { rec7L State.reset with matVer := 7 }.vrecOk = true ∧
    { rec7L State.reset with matVer := 7 }.matVer.toNat = { rec7L State.reset with matVer := 7 }.V ∧
    7 ≤ (rec7L State.reset).V ∧ isFormat 45 44 44 = false ∧ isVersionArea 7 45 44 44 = false := by decide

theorem test_witness_PlMaskInvertsTheMaskedDataCellsOrRaises :
    State.reset.vrecOk = false ∧
    ((rec1L State.reset).vrecOk = true ∧ (rec1L State.reset).matVer.toNat ≠ (rec1L State.reset).V) ∧
    { rec1L State.reset with matVer := 1 }.vrecOk = true ∧
    { rec1L State.reset with matVer := 1 }.matVer.toNat = { rec1L State.reset with matVer := 1 }.V := by decide

theorem test_witness_NoModuleStaysReservedAfterPlFmt : (rec7L State.reset).vrecOk = true := by decide

theorem test_witness_CommandsWriteOnlyTheirOwnRegisters :
    exec (.gfLi 1 0x53) State.reset = .next { commandCycle State.reset with g := State.reset.g.set 1 0x53 } ∧
    gfDest (.gfLi 1 0x53) ≠ some 0 ∧ extendsCache (.gfLi 1 0x53) = false ∧ writesBbLen (.gfLi 1 0x53) = false :=
  ⟨rfl, by decide, rfl, rfl⟩

theorem test_witness_CommandsWriteOnlyTheirOutputBuffer :
    exec .bbClr State.reset = .next (commandCycle State.reset) ∧ outputBuffer .bbClr ≠ some .mat := ⟨rfl, by decide⟩

/-- A state with two bytes, a cache of depth 1 and a command in PEND. -/
def busyState : State := { pending 0x0454C000 (bb [0xD0, 0x10] 12) with genCache := [[1, 1]] }

theorem test_witness_EveryStepKeepsTheMachineInvariant :
    Inv busyState ∧ step busyState = .next { commandCycle busyState with g := busyState.g.set 1 0x53 } :=
  ⟨⟨by decide, by decide, by decide, by decide, by decide, by decide, by unfold CacheOk; decide +kernel, by decide,
    by decide, by decide⟩, rfl⟩

theorem test_witness_CmdWriteIsAcceptedOrDiscarded :
    { State.reset with inputs := [.write 4 0x00C 1] }.inputs = .write 4 0x00C 1 :: [] ∧
    (pending 0 State.reset).busy = true ∧ State.reset.busy = false ∧ { State.reset with err := true }.err = true := by
  decide

theorem test_witness_StatusWriteClearsTheErrorRecord :
    { State.reset with inputs := [.write 4 0x008 0x6006] }.inputs = .write 4 0x008 0x6006 :: [] ∧
    { State.reset with inputs := [.write 4 0x008 4, .write 4 0x00C 1] }.inputs =
      .write 4 0x008 4 :: .write 4 0x00C 1 :: [] ∧ (4 : Word).getLsbD 2 = true ∧ State.reset.busy = false := by decide

theorem test_witness_WritesWhileBusyAreDiscarded :
    { pending 0 State.reset with inputs := [.write 4 0x7FFFC 1] }.inputs = .write 4 0x7FFFC 1 :: [] ∧
    (pending 0 State.reset).busy = true ∧
    ([0x000, 0x00C, 0x7FFFC].all fun off =>
      decide (off % 4 = 0 ∧ off < 0x80000 ∧ off ≠ 0x004 ∧ off ≠ 0x008)) = true ∧
    { pending 0 State.reset with inputs := [.write 4 0x004 6] }.inputs = .write 4 0x004 6 :: [] ∧
    (6 : Word).getLsbD 0 = false ∧
    { pending 0 State.reset with inputs := [.write 4 0x008 6] }.inputs = .write 4 0x008 6 :: [] := by decide

theorem test_witness_BusErrorsChangeNothing :
    (1 ≠ 4 ∨ 0 % 4 ≠ 0 ∨ 0x80000 ≤ 0) ∧ (4 ≠ 4 ∨ 2 % 4 ≠ 0 ∨ 0x80000 ≤ 2) ∧
    (4 ≠ 4 ∨ 0x80000 % 4 ≠ 0 ∨ 0x80000 ≤ 0x80000) ∧
    ({ State.reset with inputs := [.read 2 0] }.inputs = .read 2 0 :: [] ∨
      { State.reset with inputs := [.read 2 0] }.inputs = .write 2 0 0 :: []) := by decide

theorem test_witness_ReadsHaveNoSideEffect :
    { State.reset with inputs := [.read 4 0x008] }.inputs = .read 4 0x008 :: [] ∧ State.reset.busy = false ∧
    (∀ off ∈ [0x000, 0x004, 0x00C, 0x010, 0x014, 0x018, 0x020, 0x024, 0x028, 0x02C, 0x030, 0x034, 0x038, 0x03C],
      ∃ p ∈ registerWords (rec5Q State.reset), p.1 = off) ∧
    (0x020, 0x00120205) ∈ registerWords (rec5Q State.reset) ∧
    (0x024, 0x10020F02) ∈ registerWords (rec5Q State.reset) ∧
    { State.reset with inputs := [.read 4 0x13C] }.inputs = .read 4 (0x100 + 4 * (15 : Fin 16).val) :: [] ∧
    { State.reset with inputs := [.read 4 0x27C] }.inputs = .read 4 (0x200 + 4 * (31 : Fin 32).val) :: [] ∧
    { State.reset with inputs := [.read 4 0xFFFC] }.inputs = .read 4 (elementOffset .charbuf 8191) :: [] ∧
    8191 < bufSize .charbuf := by decide

theorem test_witness_WrittenElementReadsBack :
    65535 < bufSize .mat ∧ State.reset.busy = false ∧
    { State.reset with inputs := [.write 4 0x7FFFC 0xFF, .read 4 0x7FFFC] }.inputs =
      .write 4 (elementOffset .mat 65535) 0xFF :: .read 4 (elementOffset .mat 65535) :: [] ∧
    { State.reset with inputs := [.write 4 0x13C 0x1FF, .read 4 0x13C] }.inputs =
      .write 4 (0x100 + 4 * (15 : Fin 16).val) 0x1FF :: .read 4 (0x100 + 4 * (15 : Fin 16).val) :: [] := by decide

theorem test_witness_ReservedOffsetsReadZeroAndIgnoreWrites :
    State.reset.busy = false ∧
    ([0x01C, 0x040, 0x0FC, 0x140, 0x1FC, 0x280, 0xFFC, 0x2000, 0x7FFC, 0x1C000, 0x3FFFC].all fun off => decide
      (off % 4 = 0 ∧ (off = 0x01C ∨ (0x040 ≤ off ∧ off < 0x100) ∨ (0x140 ≤ off ∧ off < 0x200) ∨
        (0x280 ≤ off ∧ off < 0x1000) ∨ (0x2000 ≤ off ∧ off < 0x8000) ∨ (0x1C000 ≤ off ∧ off < 0x40000)))) = true ∧
    { State.reset with inputs := [.read 4 0x01C] }.inputs = .read 4 0x01C :: [] ∧
    ([0x000, 0x010, 0x014, 0x018, 0x03C, 0x200, 0x27C, 0x1000, 0x1FFC].all fun off => decide
      (off % 4 = 0 ∧ (off ∈ [0x000, 0x010, 0x014, 0x018, 0x03C] ∨ (0x200 ≤ off ∧ off < 0x280) ∨
        (0x1000 ≤ off ∧ off < 0x2000)))) = true ∧
    { State.reset with inputs := [.write 4 0x018 1] }.inputs = .write 4 0x018 1 :: [] := by decide

theorem test_witness_GenramShowsTheCachedCoefficients :
    CacheOk busyState ∧ 31 < 32 ∧ { busyState with inputs := [.read 4 (0x1000 + 4 * (32 * 1 + 31))] }.inputs =
      .read 4 (0x1000 + 4 * (32 * 1 + 31)) :: [] ∧ 1 ≤ busyState.genDepth ∧ State.reset.busy = false :=
  ⟨by unfold CacheOk; decide +kernel, by decide, by decide, by decide, by decide⟩

theorem test_witness_StatusReadShowsTheFlags :
    { State.reset with inputs := [.read 4 0x008], genCache := [[1, 1]] }.inputs = .read 4 0x008 :: [] ∧
    State.reset.busy = false ∧ { State.reset with genCache := [[1, 1]] }.genDepth ≤ 30 ∧
    { pending 0x6003C000 State.reset with inputs := [.read 4 0x008] }.inputs = .read 4 0x008 :: [] ∧
    (pending 0x6003C000 State.reset).busy = true ∧
    { State.reset with inputs := [.read 4 0x000] }.inputs = .read 4 0x000 :: [] ∧
    { State.reset with inputs := [.read 4 0x004] }.inputs = .read 4 0x004 :: [] := by decide

/-- The busy clause: the command in flight, rs.gen 30, answers a next state whose depth is the largest, 30. -/
theorem test_witness_StatusReadShowsTheFlags_busy :
    ∃ u, executorTurn (pending 0x6003C000 State.reset) = .next u ∧ u.genDepth ≤ 30 :=
  ⟨_, rfl, by decide +kernel⟩

theorem test_witness_LengthRegistersIgnoreIllegalValues :
    State.reset.busy = false ∧
    { State.reset with inputs := [.write 4 0x028 8193] }.inputs = .write 4 0x028 8193 :: [] ∧
    { State.reset with inputs := [.write 4 0x02C 32768] }.inputs = .write 4 0x02C 32768 :: [] ∧
    { State.reset with inputs := [.write 4 0x038 4097] }.inputs = .write 4 0x038 4097 :: [] ∧
    { State.reset with inputs := [.write 4 0x020 0xFFFFFFFF] }.inputs = .write 4 0x020 0xFFFFFFFF :: [] ∧
    { State.reset with inputs := [.write 4 0x024 0xFFFFFFFF] }.inputs = .write 4 0x024 0xFFFFFFFF :: [] ∧
    { State.reset with inputs := [.write 4 0x030 0xFFF] }.inputs = .write 4 0x030 0xFFF :: [] ∧
    { State.reset with inputs := [.write 4 0x034 0x1000] }.inputs = .write 4 0x034 0x1000 :: [] := by decide

theorem test_witness_SoftResetResetsTheRegistersAndKeepsTheBuffers :
    { pending 0x40000000 State.reset with inputs := [.write 4 0x004 7] }.inputs = .write 4 0x004 7 :: [] ∧
    (7 : Word).getLsbD 0 = true ∧ State.reset.pend = none ∧ (pending 0x40000000 State.reset).pend = some 0x40000000 ∧
    decode 0x40000000 = .ok .bbClr ∧ outputBuffer .bbClr ≠ some .mat ∧
    decode 0x20000000 = .error .unknownOpcode := by decide

theorem test_witness_HardResetTakesAnyMemoryContent :
    { State.reset with inputs := [.hardReset ⟨[], [(5, 1)], [], [], [(0, 0xFF)]⟩] }.inputs =
      .hardReset ⟨[], [(5, 1)], [], [], [(0, 0xFF)]⟩ :: [] ∧ 65535 < bufSize .mat := by decide

theorem test_witness_IrqFollowsTheEnabledSources :
    { State.reset with inputs := [.write 4 0x008 2] }.inputs = .write 4 0x008 2 :: [] ∧
    { State.reset with inputs := [.write 4 0x004 6] }.inputs = .write 4 0x004 6 :: [] ∧
    (6 : Word).getLsbD 0 = false ∧
    { pending 0 State.reset with inputs := [.executor] }.inputs = .executor :: [] ∧
    (pending 0 State.reset).busy = true := by decide

end Sys2Proof.Tests
end

section
/-! SUPPORT. Which writes each command's plan may hold. One inversion of the plans, from which the frames of all
commands follow. -/

namespace Sys2Proof.Machine

/-- The writes that command `i` may make when it starts in `s`. -/
def Owns (i : Instr) (s : State) : Write → Prop
  | .greg r _ => gfDest i = some r
  | .syndromes _ => ∃ n e, i = .rsSyn n e
  | .synz _ => ∃ n e, i = .rsSyn n e
  | .result _ => ∃ n pos, i = .bbRd n pos
  | .bbLen _ => writesBbLen i = true
  | .cwLen _ => i = .blkWeave
  | .matVer _ => i = .plInit
  | .genCache c => extendsCache i = true ∧ ∃ d, c = extendCache s.genCache d
  | .bit _ _ => outputBuffer i = some .bitbuf
  | .put b _ _ => outputBuffer i = some b
  | .clear b => outputBuffer i = some b

/-- Every write of the list stores one element of buffer `b`. -/
def PutsInto (b : Buf) (ws : List Write) : Prop := ∀ w ∈ ws, ∃ k v, w = .put b k v

theorem putsInto_nil (b : Buf) : PutsInto b [] := fun _ h => nomatch h

theorem putsInto_cons {b : Buf} {k : Nat} {v : Byte} {ws : List Write} (h : PutsInto b ws) :
    PutsInto b (.put b k v :: ws) := List.forall_mem_cons.2 ⟨⟨k, v, rfl⟩, h⟩

theorem putsInto_pair {b : Buf} {k l : Nat} {v w : Byte} : PutsInto b [.put b k v, .put b l w] :=
  putsInto_cons (putsInto_cons (putsInto_nil b))

theorem putsInto_append {b : Buf} {ws vs : List Write} (h : PutsInto b ws) (k : PutsInto b vs) :
    PutsInto b (ws ++ vs) := List.forall_mem_append.2 ⟨h, k⟩

theorem putsInto_flatMap {α : Type} {b : Buf} (l : List α) {f : α → List Write} (h : ∀ a, PutsInto b (f a)) :
    PutsInto b (l.flatMap f) := fun w hw =>
  let ⟨a, _, ha⟩ := List.mem_flatMap.1 hw
  h a w ha

theorem putsInto_map {α : Type} {b : Buf} (l : List α) {k : α → Nat} {v : α → Byte} :
    PutsInto b (l.map fun a => .put b (k a) (v a)) := fun _ hw =>
  let ⟨a, _, ha⟩ := List.mem_map.1 hw
  ⟨k a, v a, ha.symm⟩

theorem putsInto_zipWith {α β : Type} {b : Buf} (l : List α) (m : List β) {k : α → β → Nat} {v : α → β → Byte} :
    PutsInto b (List.zipWith (fun a c => .put b (k a c) (v a c)) l m) := by
  rw [← List.map_uncurry_zip_eq_zipWith]
  exact putsInto_map _

theorem putsInto_ite {b : Buf} {c : Prop} [Decidable c] {ws vs : List Write} (h : PutsInto b ws)
    (k : PutsInto b vs) : PutsInto b (if c then ws else vs) := by split <;> assumption

theorem putsInto_putRun (b : Buf) (start : Nat) (vs : List Byte) : PutsInto b (putRun b start vs) := by
  induction vs generalizing start with
  | nil => exact putsInto_nil b
  | cons v vs ih => exact putsInto_cons (ih _)

theorem putsInto_blockEccWrites (s : State) (gen : List Byte) (bs : List Nat) (ws : List Write)
    (h : blockEccWrites s gen bs = .ok ws) : PutsInto .eccbuf ws := by
  induction bs generalizing ws with
  | nil => cases h; exact putsInto_nil _
  | cons b bs ih =>
    unfold blockEccWrites at h
    split at h
    · next ecc vs _ hvs => cases h; exact putsInto_append (putsInto_putRun _ _ _) (ih vs hvs)
    · cases h
    · cases h

theorem putsInto_drawFinder {N cr cc : Nat} : PutsInto .mat (drawFinder N cr cc) :=
  putsInto_flatMap _ fun _ => putsInto_flatMap _ fun _ => putsInto_ite (putsInto_cons (putsInto_nil _)) (putsInto_nil _)

theorem putsInto_drawAlignments (V : Nat) : PutsInto .mat (drawAlignments V) :=
  putsInto_flatMap _ fun _ => putsInto_flatMap _ fun _ => putsInto_ite (putsInto_nil _)
    (putsInto_flatMap _ fun _ => putsInto_map _)

theorem putsInto_functionPatterns (V : Nat) : PutsInto .mat (functionPatterns V) := by
  have htiming : PutsInto .mat (drawTiming (sideOf V)) := putsInto_flatMap _ fun _ => putsInto_pair
  have hfinders : PutsInto .mat (drawFinders (sideOf V)) :=
    putsInto_append (putsInto_append putsInto_drawFinder putsInto_drawFinder) putsInto_drawFinder
  have hformat : PutsInto .mat (reserveFormat (sideOf V)) := putsInto_flatMap _ fun _ => putsInto_pair
  have hversion : PutsInto .mat (reserveVersion (sideOf V)) := putsInto_flatMap _ fun _ => putsInto_pair
  exact putsInto_append (putsInto_append (putsInto_append (putsInto_append (putsInto_append htiming hfinders)
    (putsInto_drawAlignments V)) hformat) (putsInto_cons (putsInto_nil _))) (putsInto_ite hversion (putsInto_nil _))

/-- A command owns every store into its output buffer. -/
theorem owns_of_putsInto {i : Instr} {s : State} {b : Buf} {ws : List Write} (h : PutsInto b ws)
    (hi : outputBuffer i = some b) : ∀ w ∈ ws, Owns i s w := fun w hw => by
  obtain ⟨k, v, rfl⟩ := h w hw
  exact hi

/-- A command that writes the bit buffer and BB_LEN owns every append. -/
theorem owns_appends {i : Instr} {s : State} (hbits : outputBuffer i = some .bitbuf) (hlen : writesBbLen i = true)
    (len : Nat) (vs : List (Nat × Nat)) : ∀ w ∈ appends len vs, Owns i s w := by
  induction vs generalizing len with
  | nil => exact List.forall_mem_singleton.2 hlen
  | cons v vs ih =>
    have hvalue : ∀ w ∈ valueBits len v.1 v.2, Owns i s w := List.forall_mem_map.2 fun _ _ => hbits
    have hfill : ∀ w ∈ fillBits (len + v.1), Owns i s w := List.forall_mem_map.2 fun _ _ => hbits
    exact List.forall_mem_append.2 ⟨List.forall_mem_append.2 ⟨hvalue, hfill⟩, ih _⟩

/-- A plan that checks `c` first has writes only when `c` does not hold. -/
theorem guard_eq_ok {c : Prop} [Decidable c] {e : ErrCode} {r : Except ErrCode (List Write)} {ws : List Write} :
    (if c then .error e else r) = .ok ws ↔ ¬ c ∧ r = .ok ws := by split <;> simp [*]

/-- A computed value's writes are those of the value. -/
theorem map_eq_ok {α : Type} {r : Except ErrCode α} {f : α → List Write} {ws : List Write} :
    r.map f = .ok ws ↔ ∃ a, r = .ok a ∧ f a = ws := by cases r <;> simp [Except.map]

/-- Every write in a command's plan is one that the command owns. -/
theorem plan_owned (i : Instr) (s : State) (ws : List Write) (h : plan i s = .ok ws) : ∀ w ∈ ws, Owns i s w := by
  cases i with
  | nop => cases h; exact fun _ hw => nomatch hw
  | gfLi | gfAdd | gfMul | gfExp => cases h; exact List.forall_mem_singleton.2 rfl
  | gfDiv | gfInv => obtain ⟨v, -, rfl⟩ := map_eq_ok.1 h; exact List.forall_mem_singleton.2 rfl
  | gfLog rd ra =>
    simp only [plan, planGfLog] at h
    split at h <;> cases h
    exact List.forall_mem_singleton.2 rfl
  | bbClr => cases h; exact List.forall_mem_cons.2 ⟨rfl, List.forall_mem_singleton.2 rfl⟩
  | bbApp | bbAppr =>
    simp only [plan, planBbApp, planBbAppr, guard_eq_ok] at h
    obtain ⟨-, -, hws⟩ := h
    cases hws; exact owns_appends rfl rfl _ _
  | bbRd n pos =>
    simp only [plan, planBbRd, guard_eq_ok] at h
    obtain ⟨-, -, hws⟩ := h
    cases hws; exact List.forall_mem_singleton.2 ⟨n, pos, rfl⟩
  | rsGen d =>
    obtain ⟨-, hws⟩ := guard_eq_ok.1 h
    cases hws; exact List.forall_mem_singleton.2 ⟨rfl, d, rfl⟩
  | rsEnc n e =>
    simp only [plan, planRsEnc] at h
    split at h
    · cases h
    · obtain ⟨ecc, -, rfl⟩ := map_eq_ok.1 h
      exact List.forall_mem_cons.2 ⟨⟨rfl, e, rfl⟩, owns_of_putsInto (putsInto_putRun _ _ _) rfl⟩
  | rsSyn n e =>
    simp only [plan, planRsSyn] at h
    split at h <;> cases h
    exact List.forall_mem_cons.2 ⟨⟨n, e, rfl⟩, List.forall_mem_singleton.2 ⟨n, e, rfl⟩⟩
  | serHdr mode =>
    simp only [plan, planSerHdr, guard_eq_ok] at h
    obtain ⟨-, -, -, -, hws⟩ := h
    cases hws; exact owns_appends rfl rfl _ _
  | serAln =>
    obtain ⟨-, h⟩ := guard_eq_ok.1 h
    split at h
    · cases h
    · obtain ⟨-, hws⟩ := guard_eq_ok.1 h
      cases hws; exact owns_appends rfl rfl _ _
  | serPad =>
    simp only [plan, planSerPad, guard_eq_ok] at h
    obtain ⟨-, -, hws⟩ := h
    cases hws; exact owns_appends rfl rfl _ _
  | blkEcc =>
    simp only [plan, planBlkEcc, guard_eq_ok, map_eq_ok] at h
    obtain ⟨-, -, vs, hvs, rfl⟩ := h
    exact List.forall_mem_cons.2 ⟨⟨rfl, _, rfl⟩, owns_of_putsInto (putsInto_blockEccWrites _ _ _ _ hvs) rfl⟩
  | blkWeave =>
    simp only [plan, planBlkWeave, guard_eq_ok] at h
    obtain ⟨-, -, hws⟩ := h
    cases hws
    exact List.forall_mem_append.2
      ⟨owns_of_putsInto (putsInto_putRun _ _ _) rfl, List.forall_mem_singleton.2 rfl⟩
  | plInit =>
    obtain ⟨-, hws⟩ := guard_eq_ok.1 h
    cases hws
    exact List.forall_mem_cons.2 ⟨rfl, List.forall_mem_append.2
      ⟨owns_of_putsInto (putsInto_functionPatterns _) rfl, List.forall_mem_singleton.2 rfl⟩⟩
  | plPlace =>
    simp only [plan, planPlPlace, guard_eq_ok] at h
    obtain ⟨-, -, -, hws⟩ := h
    cases hws
    exact owns_of_putsInto (putsInto_append (putsInto_map _) (putsInto_zipWith _ _)) rfl
  | plMask m =>
    simp only [plan, planPlMask, guard_eq_ok] at h
    obtain ⟨-, -, hws⟩ := h
    cases hws
    exact owns_of_putsInto (putsInto_flatMap _ fun _ => putsInto_flatMap _ fun _ =>
      putsInto_ite (putsInto_cons (putsInto_nil _)) (putsInto_nil _)) rfl
  | plFmt m =>
    simp only [plan, planPlFmt, guard_eq_ok] at h
    obtain ⟨-, -, hws⟩ := h
    cases hws
    exact owns_of_putsInto (putsInto_append (putsInto_flatMap _ fun _ => putsInto_pair)
      (putsInto_ite (putsInto_flatMap _ fun _ => putsInto_pair) (putsInto_nil _))) rfl

end Sys2Proof.Machine
end

section
/-! SUPPORT. What every command keeps: the registers, flags and buffers that it does not own. -/

namespace Sys2Proof.Machine

/-- `t` differs from `s` at most in what the writes of command `i` own, and its generator cache is as deep at
least. -/
structure Keeps (i : Instr) (s t : State) : Prop where
  g : ∀ r : Fin 16, gfDest i ≠ some r → t.g[r] = s.g[r]
  syn : (∀ n e, i ≠ .rsSyn n e) → t.syn = s.syn
  synz : (∀ n e, i ≠ .rsSyn n e) → t.synz = s.synz
  result : (∀ n pos, i ≠ .bbRd n pos) → t.result = s.result
  genCache : extendsCache i = false → t.genCache = s.genCache
  bbLen : writesBbLen i = false → t.bbLen = s.bbLen
  cwLen : i ≠ .blkWeave → t.cwLen = s.cwLen
  matVer : i ≠ .plInit → t.matVer = s.matVer
  cell : ∀ b k, outputBuffer i ≠ some b → t.cell b k = s.cell b k
  depth : s.genDepth ≤ t.genDepth

theorem keeps_refl (i : Instr) (s : State) : Keeps i s s where
  g _ _ := rfl
  syn _ := rfl
  synz _ := rfl
  result _ := rfl
  genCache _ := rfl
  bbLen _ := rfl
  cwLen _ := rfl
  matVer _ := rfl
  cell _ _ _ := rfl
  depth := Nat.le_refl _

variable {i : Instr} {s t : State}

/-- Storing into the output buffer, whatever is stored. -/
theorem keeps_setBuf (h : Keeps i s t) {b : Buf} (hb : outputBuffer i = some b) (m : Memory) :
    Keeps i s { t with bufs := t.bufs.set b m } :=
  { h with
    cell := fun c k hc => by
      have hcb : c ≠ b := fun e => hc (e ▸ hb)
      rw [State.cell, get_set_other _ _ _ _ hcb]
      exact h.cell c k hc }

/-- A write that the command owns keeps what the command does not own, whether it happens or not. -/
theorem apply_keeps (took : Nat → Bool) (w : Write) (hw : Owns i s w) (h : Keeps i s t) :
    Keeps i s (w.apply took t) := by
  cases w with
  | greg r v =>
    exact { h with
      g := fun q hq => by
        have hrq : r.val ≠ q.val := fun e => hq (Fin.ext e ▸ hw)
        exact (Vector.getElem_set_ne r.isLt q.isLt hrq).trans (h.g q hq) }
  | syndromes v => obtain ⟨n, e, hi⟩ := hw; exact { h with syn := fun hn => absurd hi (hn n e) }
  | synz b => obtain ⟨n, e, hi⟩ := hw; exact { h with synz := fun hn => absurd hi (hn n e) }
  | result v => obtain ⟨n, pos, hi⟩ := hw; exact { h with result := fun hn => absurd hi (hn n pos) }
  | bbLen n => exact { h with bbLen := fun hn => absurd (hw.symm.trans hn) (by decide) }
  | cwLen n => exact { h with cwLen := fun hn => absurd hw hn }
  | matVer n => exact { h with matVer := fun hn => absurd hw hn }
  | genCache c =>
    obtain ⟨hi, d, rfl⟩ := hw
    exact { h with
      genCache := fun hn => absurd (hi.symm.trans hn) (by decide)
      depth := (Nat.le_max_left _ d).trans_eq (extendCache_length s.genCache d).symm }
  | bit k b =>
    simp only [Write.apply]
    split
    · exact keeps_setBuf h hw _
    · exact h
  | put b k v =>
    simp only [Write.apply]
    split
    · exact keeps_setBuf h hw _
    · exact h
  | clear b => exact keeps_setBuf h hw _

/-- The writes of a command's plan keep what the command does not own. -/
theorem applyAll_plan_keeps {ws : List Write} (h : plan i s = .ok ws) : Keeps i s (applyAll s ws) :=
  applyAll_induction (P := Keeps i s) ws s (keeps_refl i s) fun w hw _ ht =>
    apply_keeps _ w (plan_owned i s ws h w hw) ht

/-- A command, completed or failed, keeps what it does not own. -/
theorem exec_keeps (h : exec i s = .next t) : Keeps i s t := by
  rcases exec_cases i s t h with ⟨ws, hws, rfl⟩ | ⟨e, -, rfl⟩
  · exact { applyAll_plan_keeps hws with }
  · exact { keeps_refl i s with }

/-- No command writes the registers that only the host writes: CTRL, the version record, CHARLEN, RS_SRC and RS_DST;
nor DROP and OVR (10_state.md R48). -/
theorem exec_keeps_hostRegisters (h : exec i s = .next t) :
    t.ieDone = s.ieDone ∧ t.ieErr = s.ieErr ∧ t.drop = s.drop ∧ t.ovr = s.ovr ∧
      t.version = s.version ∧ t.level = s.level ∧ t.eccpb = s.eccpb ∧
      t.g1blk = s.g1blk ∧ t.g1sz = s.g1sz ∧ t.g2blk = s.g2blk ∧ t.g2sz = s.g2sz ∧
      t.charLen = s.charLen ∧ t.rsSrc = s.rsSrc ∧ t.rsDst = s.rsDst := by
  rcases exec_cases i s t h with ⟨ws, -, rfl⟩ | ⟨e, -, rfl⟩
  · have hs := applyAll_sameOuter ws s
    exact ⟨hs.ieDone, hs.ieErr, hs.drop, hs.ovr, hs.version, hs.level, hs.eccpb, hs.g1blk, hs.g1sz, hs.g2blk,
      hs.g2sz, hs.charLen, hs.rsSrc, hs.rsDst⟩
  · simp

/-- The executor's turn never lowers GEN_DEPTH. -/
theorem executorTurn_genDepth_le (h : executorTurn s = .next t) : s.genDepth ≤ t.genDepth := by
  rcases executorTurn_cases s t h with ⟨-, rfl⟩ | ⟨w, e, -, -, rfl⟩ | ⟨w, i, -, -, hx⟩
  · exact Nat.le_refl _
  · exact Nat.le_refl _
  · exact (exec_keeps hx).depth

end Sys2Proof.Machine
end

section

open Sys2Proof Sys2Proof.Machine

namespace Sys2Proof.Proofs

/-- Settles O43: every write of a plan is owned by its command, and the rest of the state is kept. -/
theorem commandsWriteOnlyTheirOwnRegisters : Obligations.CommandsWriteOnlyTheirOwnRegisters := by
  intro i s t h
  have k := exec_keeps h
  exact ⟨k.g, fun hi => ⟨k.syn hi, k.synz hi⟩, k.result, k.genCache, k.bbLen, k.cwLen, k.matVer,
    exec_keeps_hostRegisters h⟩

/-- Settles O44: the elements of the other buffers are part of what a command keeps. -/
theorem commandsWriteOnlyTheirOutputBuffer : Obligations.CommandsWriteOnlyTheirOutputBuffer :=
  fun _ _ _ h => (exec_keeps h).cell

end Sys2Proof.Proofs
end

section
/-! SUPPORT. The host's registers: the STATUS word bit by bit, what a read while BUSY shows of GEN_DEPTH, and what a
write to CTRL, to STATUS or to a length register stores. -/

namespace Sys2Proof.Machine

theorem errCode_code_le (e : ErrCode) : e.code ≤ 12 := by cases e <;> decide

/-- Every field of STATUS but GEN_DEPTH fits its place (10_state.md R24). -/
theorem statusFields_le (s : State) : s.busy.toNat ≤ 1 ∧ s.done.toNat ≤ 1 ∧ s.err.toNat ≤ 1 ∧ s.synz.toNat ≤ 1 ∧
    s.errcode.code ≤ 12 ∧ s.drop.toNat ≤ 1 ∧ s.ovr.toNat ≤ 1 :=
  ⟨Bool.toNat_le _, Bool.toNat_le _, Bool.toNat_le _, Bool.toNat_le _, errCode_code_le _, Bool.toNat_le _,
    Bool.toNat_le _⟩

/-- The STATUS word as a number: no field reaches into the next one (10_state.md R24). -/
theorem statusWith_toNat (s : State) (depth : Nat) : (s.statusWith depth).toNat =
    s.busy.toNat + s.done.toNat * 2 ^ 1 + s.err.toNat * 2 ^ 2 + s.synz.toNat * 2 ^ 3 + s.errcode.code * 2 ^ 4 +
      depth % 32 * 2 ^ 8 + s.drop.toNat * 2 ^ 13 + s.ovr.toNat * 2 ^ 14 := by
  have hfields := statusFields_le s
  rw [State.statusWith, BitVec.toNat_ofNat, Nat.mod_eq_of_lt (by omega)]

theorem getLsbD_eq_of_div_mod {w : Word} {k : Nat} {b : Bool} (h : w.toNat / 2 ^ k % 2 = b.toNat) :
    w.getLsbD k = b := by
  rw [BitVec.getLsbD, Nat.testBit_eq_decide_div_mod_eq, h]
  cases b <;> rfl

theorem statusWith_showsFlags (s : State) (depth : Nat) : ShowsFlags s (s.statusWith depth) := by
  have hfields := statusFields_le s
  have hword := statusWith_toNat s depth
  constructor
  case errcode | reserved => unfold slice; omega
  all_goals exact getLsbD_eq_of_div_mod (by omega)

theorem statusWith_depth (s : State) (depth : Nat) (h : depth ≤ 30) : slice (s.statusWith depth) 12 8 = depth := by
  have hfields := statusFields_le s
  have hword := statusWith_toNat s depth
  unfold slice; omega

/-- The GEN_DEPTH shown while BUSY does not depend on what the agents still do. -/
theorem busyDepth_inputs (s : State) (r : List Input) : busyDepth { s with inputs := r } = busyDepth s := by
  rw [busyDepth, inFlightCache_inputs]; rfl

/-- The GEN_DEPTH shown while BUSY lies between the depth now and the depth after the command in flight
(70_reset_and_hazards.md R287). -/
theorem busyDepth_bounds (s u : State) (h : executorTurn s = .next u) :
    s.genDepth ≤ busyDepth s ∧ busyDepth s ≤ u.genDepth := by
  have hle := executorTurn_genDepth_le h
  have hlen : (inFlightCache s).length = u.genDepth := congrArg List.length (executorTurn_genCache s u h).symm
  have hfree := Nat.mod_lt (Config.busyDepth s.draws)
    (Nat.add_pos_right ((inFlightCache s).length - s.genDepth) Nat.one_pos)
  unfold busyDepth; omega

/-- A read of ID or CTRL is exact, while BUSY or not (70_reset_and_hazards.md R287). -/
theorem step_read_exact (s : State) (off : Nat) (rest : List Input) (h : s.inputs = .read 4 off :: rest)
    (ha : accessOk 4 off = true) (ht : target off = .id ∨ target off = .ctrl) :
    ∃ t, step s = .next t ∧ t.bus = .performed (readTarget s (target off)) := by
  cases hb : s.busy with
  | false => exact ⟨_, step_read_idle s 4 off rest h ha hb, rfl⟩
  | true =>
    refine ⟨_, step_read_busy s 4 off rest h ha hb, ?_⟩
    rcases ht with ht | ht <;> rw [ht] <;> rfl

theorem irq_iff (s : State) :
    s.irq = true ↔ (s.done = true ∧ s.ieDone = true) ∨ (s.err = true ∧ s.ieErr = true) := by simp [State.irq]

/-- A STATUS write takes the sources it names from IRQ (60_exceptions.md R255). -/
theorem writeStatus_irq (v : Word) (s : State) : (writeStatus v s).irq =
    ((s.done && !v.getLsbD 1 && s.ieDone) || (s.err && !v.getLsbD 2 && s.ieErr)) := by
  unfold writeStatus
  cases v.getLsbD 2 <;> simp [clearError, State.irq]

/-- A CTRL write without SRST sets the two enables (10_state.md R23). -/
theorem writeCtrl_enables (v : Word) (s : State) (h : v.getLsbD 0 = false) :
    writeCtrl v s = { s with ieDone := v.getLsbD 1, ieErr := v.getLsbD 2 } := by
  rw [writeCtrl, h]; rfl

/-- A field of the written word, as a number. -/
theorem extractLsb'_eq_ofNat_div (v : Word) (lo n : Nat) :
    v.extractLsb' lo n = BitVec.ofNat n (v.toNat / 2 ^ lo) := by rw [← Nat.shiftRight_eq_div_pow]; rfl

/-- A field that starts at bit 0. -/
theorem extractLsb'_zero_eq_ofNat (v : Word) (n : Nat) : v.extractLsb' 0 n = BitVec.ofNat n v.toNat := by
  rw [extractLsb'_eq_ofNat_div, Nat.pow_zero, Nat.div_one]

theorem slice_zero (v : Word) (hi : Nat) : slice v hi 0 = v.toNat % 2 ^ (hi + 1) := by
  rw [slice, Nat.pow_zero, Nat.div_one, Nat.sub_zero]

theorem writeTarget_charLen (v : Word) (s : State) : writeTarget v s .charLen = { s with
    charLen := if v.toNat % 2 ^ 14 ≤ 8192 then BitVec.ofNat 14 v.toNat else s.charLen } := by
  simp only [writeTarget, slice_zero, extractLsb'_zero_eq_ofNat]
  split <;> rfl

theorem writeTarget_bbLen (v : Word) (s : State) : writeTarget v s .bbLen = { s with
    bbLen := if v.toNat % 2 ^ 16 ≤ 32768 then BitVec.ofNat 16 v.toNat else s.bbLen } := by
  simp only [writeTarget, slice_zero, extractLsb'_zero_eq_ofNat]
  split <;> rfl

theorem writeTarget_cwLen (v : Word) (s : State) : writeTarget v s .cwLen = { s with
    cwLen := if v.toNat % 2 ^ 13 ≤ 4096 then BitVec.ofNat 13 v.toNat else s.cwLen } := by
  simp only [writeTarget, slice_zero, extractLsb'_zero_eq_ofNat]
  split <;> rfl

end Sys2Proof.Machine
end

section

open Sys2Proof Sys2Proof.Machine

namespace Sys2Proof.Proofs

/-- Settles O56: the fields of the STATUS word do not overlap, and a command in flight only deepens the cache. -/
theorem statusReadShowsTheFlags : Obligations.StatusReadShowsTheFlags := by
  intro s off rest h
  refine ⟨?_, ?_, ?_, ?_⟩
  · rintro rfl hb hdepth
    exact ⟨_, _, step_read_idle s 4 _ rest h rfl hb, rfl, statusWith_showsFlags s _, statusWith_depth s _ hdepth⟩
  · rintro rfl hb u hu hdepth
    obtain ⟨hlow, hhigh⟩ := busyDepth_bounds s u hu
    have hflags := statusWith_showsFlags s (busyDepth s)
    have hshown := statusWith_depth s (busyDepth s) (hhigh.trans hdepth)
    refine ⟨_, s.statusWith (busyDepth s), step_read_busy s 4 _ rest h rfl hb, ?_, hflags.busy.trans hb, hflags,
      hshown.symm ▸ hlow, hshown.symm ▸ hhigh⟩
    rw [← busyDepth_inputs s rest]; rfl
  · rintro rfl
    exact step_read_exact s _ rest h rfl (.inl rfl)
  · rintro rfl
    exact step_read_exact s _ rest h rfl (.inr rfl)

/-- Settles O60: one access or one completion, and IRQ read off the state after it. -/
theorem irqFollowsTheEnabledSources : Obligations.IrqFollowsTheEnabledSources := by
  intro s v rest
  refine ⟨irq_iff s, fun h => ?_, fun h hv => ?_, fun h hb => ?_⟩
  · exact ⟨_, step_write_acts s 4 _ v rest h rfl (.inr rfl), writeStatus_irq v _⟩
  · refine ⟨_, step_write_acts s 4 _ v rest h rfl (.inr rfl), ?_⟩
    rw [show target 0x004 = .ctrl from rfl, writeTarget, writeCtrl_enables v _ hv]
    exact ⟨rfl, rfl⟩
  · obtain ⟨t, ht, hpend, hdone, hieDone, hieErr⟩ := executorTurn_completes { s with inputs := rest } hb
    refine ⟨t, (step_input s _ rest h).trans ht, by simp [State.busy, hpend], hdone, ?_⟩
    simp [State.irq, hdone, hieDone, hieErr]

/-- Settles O45: the state after reset, evaluated register by register. -/
theorem resetRegistersAreAsTabled : Obligations.ResetRegistersAreAsTabled := by
  refine ⟨fun r => Vector.getElem_replicate r.isLt, fun j => Vector.getElem_replicate j.isLt, ?_⟩
  decide

/-- Settles O46: the buffers and the cache are empty, the length registers and the error record 0. -/
theorem resetMeetsTheInvariant : Obligations.ResetMeetsTheInvariant where
  bufs := by decide
  bbLen := by decide
  charLen := by decide
  cwLen := by decide
  matVer := by decide
  cacheDepth := by decide
  cacheOk k hk := absurd hk (Nat.not_lt_zero k)
  errIdle := by decide
  errCode := by decide
  errCmd := by decide

/-- Settles O57: one write of the idle core, and the field that its target stores. -/
theorem lengthRegistersIgnoreIllegalValues : Obligations.LengthRegistersIgnoreIllegalValues := by
  intro s v rest hb
  have hstep : ∀ off, accessOk 4 off = true → s.inputs = .write 4 off v :: rest →
      step s = .next { writeTarget v { s with inputs := rest } (target off) with bus := .performed 0 } :=
    fun off ha h => step_write_acts s 4 off v rest h ha (.inl hb)
  refine ⟨fun h => ?_, fun h => ?_, fun h => ?_, fun h => ?_, fun h => ?_, fun h => ?_, fun h => ?_⟩
  · rw [hstep _ rfl h, show target 0x028 = .charLen from rfl, writeTarget_charLen]
  · rw [hstep _ rfl h, show target 0x02C = .bbLen from rfl, writeTarget_bbLen]
  · rw [hstep _ rfl h, show target 0x038 = .cwLen from rfl, writeTarget_cwLen]
  · rw [hstep _ rfl h, ← extractLsb'_zero_eq_ofNat, ← extractLsb'_eq_ofNat_div, ← extractLsb'_eq_ofNat_div]; rfl
  · rw [hstep _ rfl h, ← extractLsb'_zero_eq_ofNat, ← extractLsb'_eq_ofNat_div, ← extractLsb'_eq_ofNat_div,
      ← extractLsb'_eq_ofNat_div]; rfl
  · rw [hstep _ rfl h, ← extractLsb'_zero_eq_ofNat]; rfl
  · rw [hstep _ rfl h, ← extractLsb'_zero_eq_ofNat]; rfl

end Sys2Proof.Proofs
end

section
/-! SUPPORT. The generator polynomials, the cache that holds them, and the division by one of them: the generator of
degree d is monic with d + 1 coefficients (41_rs.md R125), an extension keeps the cache coherent (R126), and the
remainder of `rs_ecc` has exactly as many bytes as the degree (R127). -/

namespace Sys2Proof.Machine

theorem gmul_comm (a b : Byte) : gmul a b = gmul b a := by
  unfold gmul
  cases glog a with
  | none => cases glog b <;> rfl
  | some x =>
    cases glog b with
    | none => rfl
    | some y => exact congrArg (fun k => alog (k % 255)) (Nat.add_comm x y)

@[simp] theorem gmul_one_right (a : Byte) : gmul a 1 = a := by
  have hone : glog 1 = some 0 := by decide
  cases ha : glog a with
  | none => rw [(glog_eq_none a).1 ha, gmul_zero_left]
  | some x => rw [gmul_of_logs a 1 x 0 ha hone, Nat.add_zero, Nat.mod_eq_of_lt (glog_lt a x ha), alog_glog a x ha]

@[simp] theorem gmul_one_left (a : Byte) : gmul 1 a = a := (gmul_comm 1 a).trans (gmul_one_right a)

theorem gadd_self (a : Byte) : gadd a a = 0 := BitVec.xor_self

/-- A polynomial as `norm` leaves it: the zero polynomial, or a leading coefficient that is not 0 (41_rs.md R120). -/
def Normal (p : List Byte) : Prop := p = [0] ∨ ∃ a r, p = a :: r ∧ a ≠ 0

theorem normal_norm (p : List Byte) : Normal (norm p) := by
  induction p with
  | nil => exact .inl rfl
  | cons a r ih =>
    unfold norm
    split
    · exact ih
    · next ha => exact .inr ⟨a, r, rfl, ha⟩

theorem norm_cons_of_ne_zero {a : Byte} (ha : a ≠ 0) (r : List Byte) : norm (a :: r) = a :: r := by
  rw [norm, if_neg ha]

theorem norm_zero_cons (r : List Byte) : norm (0 :: r) = norm r := by rw [norm, if_pos rfl]

/-- Normalising adds no coefficient, but for the zero polynomial's one. -/
theorem norm_length_le (p : List Byte) : norm p = [0] ∨ (norm p).length ≤ p.length := by
  induction p with
  | nil => exact .inl rfl
  | cons a r ih =>
    unfold norm
    split
    · exact ih.imp_right fun h => h.trans (Nat.le_succ _)
    · exact .inr (Nat.le_refl _)

/-- Multiplying by x + c keeps a polynomial monic and adds one coefficient. -/
theorem pmul_linear_of_monic (r : List Byte) (c : Byte) :
    ∃ q, pmul (1 :: r) [1, c] = 1 :: q ∧ q.length = r.length + 1 := by
  have hlead : convCoeff (1 :: r) [1, c] 0 = 1 := by
    show gadd 0 (gmul 1 1) = 1
    decide
  refine ⟨((List.range (r.length + 1)).map Nat.succ).map (convCoeff (1 :: r) [1, c]), ?_, by simp⟩
  show norm ((List.range (r.length + 1 + 1)).map (convCoeff (1 :: r) [1, c])) = _
  rw [List.range_succ_eq_map, List.map_cons, hlead, norm_cons_of_ne_zero (by decide)]

/-- The generator of degree d is monic and has d + 1 coefficients (41_rs.md R125). -/
theorem generator_monic (d : Nat) : ∃ r, generator d = 1 :: r ∧ r.length = d := by
  induction d with
  | zero => exact ⟨[], rfl, rfl⟩
  | succ d ih =>
    obtain ⟨r, hr, rfl⟩ := ih
    rw [generator, hr]
    exact pmul_linear_of_monic r _

variable {cache : List (List Byte)}

/-- Every entry of the list is the generator polynomial of its degree (10_state.md R38). -/
def Coherent (cache : List (List Byte)) : Prop := ∀ k, k < cache.length → cache[k]? = some (generator (k + 1))

theorem cacheOk_iff_coherent (s : State) : CacheOk s ↔ Coherent s.genCache := Iff.rfl

theorem cachedGen_of_coherent (h : Coherent cache) {d : Nat} (hd : d ≤ cache.length) :
    cachedGen cache d = generator d := by
  cases d with
  | zero => rfl
  | succ d => rw [cachedGen, List.getD_cons_succ, List.getD_eq_getElem?_getD, h d hd]; rfl

/-- The entry that an extension adds is the next generator (41_rs.md R126). -/
theorem coherent_snoc (h : Coherent cache) :
    Coherent (cache ++ [pmul (cachedGen cache cache.length) [1, alog cache.length]]) := by
  intro k hk
  rw [List.length_append, List.length_singleton] at hk
  rcases Nat.lt_succ_iff_lt_or_eq.1 hk with hold | rfl
  · rw [List.getElem?_append_left hold, h k hold]
  · rw [List.getElem?_concat_length, cachedGen_of_coherent h (Nat.le_refl _), generator]

theorem growCache_coherent (k : Nat) (h : Coherent cache) : Coherent (growCache k cache) := by
  induction k generalizing cache with
  | zero => exact h
  | succ k ih => exact ih (coherent_snoc h)

theorem extendCache_coherent (h : Coherent cache) (d : Nat) : Coherent (extendCache cache d) :=
  growCache_coherent _ h

theorem growCache_prefix (k : Nat) (cache : List (List Byte)) : cache <+: growCache k cache := by
  induction k generalizing cache with
  | zero => exact List.prefix_refl cache
  | succ k ih => exact (List.prefix_append cache _).trans (ih _)

/-- An extension keeps the entries that were there (41_rs.md R126). -/
theorem extendCache_prefix (cache : List (List Byte)) (d : Nat) : cache <+: extendCache cache d :=
  growCache_prefix _ cache

theorem cachedGen_of_prefix {larger : List (List Byte)} (h : cache <+: larger) {d : Nat} (hd : d ≤ cache.length) :
    cachedGen larger d = cachedGen cache d := by
  obtain ⟨l, rfl⟩ := h
  exact List.getD_append ([1] :: cache) l [0] d (Nat.lt_succ_of_le hd)

/-- After `extend(d)` the cache holds the generator of degree d. -/
theorem cachedGen_extendCache (h : Coherent cache) (d : Nat) :
    cachedGen (extendCache cache d) d = generator d :=
  cachedGen_of_coherent (extendCache_coherent h d) ((extendCache_length cache d).symm ▸ Nat.le_max_right _ d)

theorem padTo_length {n : Nat} {p : List Byte} (h : p.length ≤ n) : (padTo n p).length = n := by
  rw [padTo, List.length_append, List.length_replicate, Nat.sub_add_cancel h]

theorem padTo_of_length {n : Nat} {p : List Byte} (h : p.length = n) : padTo n p = p := by
  rw [padTo, h, Nat.sub_self]; rfl

/-- One pass of the division by a monic polynomial cancels the leading term of the dividend (41_rs.md R124). -/
theorem padd_pmulmono_of_monic {a : Byte} (ha : a ≠ 0) (d r : List Byte) (h : d.length ≤ r.length) :
    padd (a :: r) (pmulmono (1 :: d) (r.length - d.length) a) =
      norm (List.zipWith gadd r (d.map (fun x => gmul x a) ++ List.replicate (r.length - d.length) 0)) := by
  have hshift : pmulmono (1 :: d) (r.length - d.length) a =
      a :: (d.map (fun x => gmul x a) ++ List.replicate (r.length - d.length) 0) := by
    rw [pmulmono, if_neg ha, List.map_cons, gmul_one_left, List.cons_append, norm_cons_of_ne_zero ha]
  have hlen : (a :: (d.map (fun x => gmul x a) ++ List.replicate (r.length - d.length) 0)).length = r.length + 1 := by
    simp only [List.length_cons, List.length_append, List.length_map, List.length_replicate]; omega
  rw [padd, hshift, hlen, List.length_cons, Nat.max_self, padTo_of_length List.length_cons, padTo_of_length hlen,
    List.zipWith_cons_cons, gadd_self, norm_zero_cons]

/-- Division by a monic polynomial ends with a remainder of smaller degree, or zero, if it has a pass for each
coefficient of the dividend (41_rs.md R124). -/
theorem pdivLoop_remainder (d : List Byte) (fuel : Nat) (q r : List Byte) (hr : Normal r)
    (hfuel : r = [0] ∨ r.length ≤ fuel) :
    (pdivLoop (1 :: d) 1 fuel q r).2 = [0] ∨ (pdivLoop (1 :: d) 1 fuel q r).2.length ≤ d.length := by
  induction fuel generalizing q r with
  | zero => exact hfuel.imp_right fun h => h.trans (Nat.zero_le _)
  | succ fuel ih =>
    unfold pdivLoop
    split
    · next hstop => exact hstop.imp_right Nat.le_of_lt_succ
    · next hgo =>
      obtain ⟨hne, hlong⟩ := not_or.1 hgo
      obtain ⟨a, r, rfl, ha⟩ := hr.resolve_left hne
      have hd : d.length ≤ r.length := Nat.le_of_succ_le_succ (Nat.le_of_not_lt hlong)
      have hk : (a :: r).length - (1 :: d).length = r.length - d.length := Nat.add_sub_add_right _ _ _
      simp only [hk, List.headD_cons, gmul_one_right, padd_pmulmono_of_monic ha d r hd]
      refine ih _ _ (normal_norm _) ((norm_length_le _).imp_right fun h => h.trans ?_)
      rw [List.length_zipWith]
      exact (Nat.min_le_left _ _).trans (Nat.le_of_succ_le_succ (hfuel.resolve_left hne))

/-- Division by a monic polynomial never fails, and its remainder has smaller degree or is zero. -/
theorem pdivrem_of_monic (p d : List Byte) :
    ∃ q r, pdivrem p (1 :: d) = .ok (q, r) ∧ (r = [0] ∨ r.length ≤ d.length) := by
  have hinv : ginv ((norm (1 :: d)).headD 0) = .ok 1 := by
    rw [norm_cons_of_ne_zero (by decide)]; show ginv 1 = .ok 1; decide
  refine ⟨(pdivLoop (1 :: d) 1 p.length [0] (norm p)).1, _, ?_,
    pdivLoop_remainder d p.length [0] (norm p) (normal_norm p) (norm_length_le p)⟩
  rw [pdivrem, hinv, norm_cons_of_ne_zero (by decide)]

/-- With the generator of degree e, `rs_ecc` gives e bytes (41_rs.md R127). -/
theorem rsEcc_generator (data : List Byte) {e : Nat} (he : 1 ≤ e) :
    ∃ ecc, rsEcc data e (generator e) = .ok ecc ∧ ecc.length = e := by
  obtain ⟨d, hgen, hd⟩ := generator_monic e
  obtain ⟨q, r, hdiv, hr⟩ := pdivrem_of_monic (pmulmono (norm data) e 1) d
  refine ⟨padTo e r, by rw [rsEcc, hgen, hdiv]; rfl, padTo_length ?_⟩
  rcases hr with rfl | hr
  · exact he
  · exact hr.trans_eq hd

end Sys2Proof.Machine
end

section
/-! SUPPORT. The address map read backwards: the offset of each register, view and element names it, and what an idle
access to it does (20_memory.md R62-R65, R68). -/

namespace Sys2Proof.Machine

theorem ofNat_word_div {n : Nat} [NeZero n] (i : Fin n) : Fin.ofNat n (4 * i.val / 4) = i := by
  rw [Nat.mul_div_cancel_left _ (by decide), Fin.ofNat_val_eq_self]

theorem target_greg (r : Fin 16) : target (0x100 + 4 * r.val) = .greg r := by
  unfold target
  rw [if_neg (by omega), if_pos (by omega), Nat.add_sub_cancel_left, ofNat_word_div]

theorem target_syn (j : Fin 32) : target (0x200 + 4 * j.val) = .syn j := by
  unfold target
  rw [if_neg (by omega), if_neg (by omega), if_pos (by omega), Nat.add_sub_cancel_left, ofNat_word_div]

theorem target_genram {d k : Nat} (hd : d < 32) (hk : k < 32) :
    target (0x1000 + 4 * (32 * d + k)) = .genram d k := by
  unfold target
  rw [if_neg (by omega), if_neg (by omega), if_neg (by omega), if_pos (by omega), Nat.add_sub_cancel_left,
    Nat.mul_div_cancel_left _ (by decide), show (32 * d + k) / 32 = d by omega, show (32 * d + k) % 32 = k by omega]

theorem target_elementOffset {b : Buf} {i : Nat} (h : i < bufSize b) : target (elementOffset b i) = .element b i := by
  cases b
  all_goals
    simp only [bufSize] at h
    simp only [elementOffset]
    unfold target
    repeat rw [if_neg (by omega)]
    rw [if_pos (by omega), Nat.add_sub_cancel_left, Nat.mul_div_cancel_left i (by decide)]

/-- The offset of an element is a word of the window (20_memory.md R60, R62). -/
theorem accessOk_elementOffset {b : Buf} {i : Nat} (h : i < bufSize b) : accessOk 4 (elementOffset b i) = true := by
  cases b
  all_goals
    simp only [bufSize] at h
    simp only [elementOffset]
    exact accessOk_word _ (by omega) (by omega)

theorem csrTarget_ne_element (off : Nat) (b : Buf) (i : Nat) : csrTarget off ≠ .element b i := by
  unfold csrTarget
  split <;> exact fun h => nomatch h

/-- The element that an offset names lies inside its buffer (20_memory.md R62). -/
theorem target_element_lt {off i : Nat} {b : Buf} (h : target off = .element b i) : i < bufSize b := by
  unfold target at h
  split_ifs at h
  · exact absurd h (csrTarget_ne_element off b i)
  all_goals cases h
  all_goals
    simp only [bufSize]
    omega

/-- The offsets that the map assigns to nothing (20_memory.md R62, R63). -/
theorem target_reserved {off : Nat} (h : off = 0x01C ∨ (0x040 ≤ off ∧ off < 0x100) ∨ (0x140 ≤ off ∧ off < 0x200) ∨
    (0x280 ≤ off ∧ off < 0x1000) ∨ (0x2000 ≤ off ∧ off < 0x8000) ∨ (0x1C000 ≤ off ∧ off < 0x40000)) :
    target off = .reserved := by
  rcases h with rfl | h
  · rfl
  · unfold target
    repeat rw [if_neg (by omega)]

/-- The registers and views that ignore writes (20_memory.md R62, R63). -/
def ignoresWrites : Target → Bool
  | .id | .result | .errcmd | .cmdcnt | .matVer | .syn _ | .genram _ _ | .reserved => true
  | _ => false

theorem writeTarget_of_ignoresWrites (v : Word) (s : State) {x : Target} (h : ignoresWrites x = true) :
    writeTarget v s x = s := by
  cases x with
  | id | result | errcmd | cmdcnt | matVer | syn | genram | reserved => rfl
  | _ => cases h

/-- The offsets of the read-only registers and views name them (20_memory.md R62). -/
theorem ignoresWrites_target {off : Nat} (hword : off % 4 = 0) (h : off ∈ [0x000, 0x010, 0x014, 0x018, 0x03C] ∨
    (0x200 ≤ off ∧ off < 0x280) ∨ (0x1000 ≤ off ∧ off < 0x2000)) : ignoresWrites (target off) = true := by
  rcases h with hcsr | hsyn | hgenram
  · have hall : ∀ o ∈ [0x000, 0x010, 0x014, 0x018, 0x03C], ignoresWrites (target o) = true := by decide
    exact hall off hcsr
  · have hoff : off = 0x200 + 4 * (⟨(off - 0x200) / 4, by omega⟩ : Fin 32).val := by dsimp only; omega
    rw [hoff, target_syn]; rfl
  · have hoff : off = 0x1000 + 4 * (32 * ((off - 0x1000) / 128) + (off - 0x1000) / 4 % 32) := by omega
    rw [hoff, target_genram (by omega) (by omega)]; rfl

/-- An idle write to what ignores writes changes nothing (20_memory.md R63). -/
theorem step_write_ignored (s : State) (off : Nat) (v : Word) (rest : List Input)
    (h : s.inputs = .write 4 off v :: rest) (ha : accessOk 4 off = true) (hb : s.busy = false)
    (ht : ignoresWrites (target off) = true) : step s = .next { s with inputs := rest, bus := .performed 0 } := by
  rw [step_write_acts s 4 off v rest h ha (.inl hb), writeTarget_of_ignoresWrites v _ ht]

/-- An idle read of a register other than STATUS shows its fields in place (10_state.md R22-R36). -/
theorem readTarget_of_mem_registerWords (s : State) :
    ∀ p ∈ registerWords s, accessOk 4 p.1 = true ∧ readTarget s (target p.1) = BitVec.ofNat 32 p.2 := by
  simp only [registerWords, List.forall_mem_append, List.forall_mem_cons, BitVec.ofNat_toNat]
  simp [accessOk, target, csrTarget, readTarget, State.ctrlWord]

/-- A read while BUSY moves the model's own fields alone (20_memory.md R65). -/
theorem afterBusyRead_eq (s : State) (x : Target) :
    ∃ depthSeen, afterBusyRead s x = { s with draws := s.draws + 1, depthSeen := depthSeen } := by
  unfold afterBusyRead
  split
  · exact ⟨_, rfl⟩
  · exact ⟨s.depthSeen, rfl⟩

/-! ## Idle accesses to registers and elements -/

section

variable {s : State} {rest : List Input} {v : Word} {b : Buf} {i : Nat}

theorem step_read_greg (r : Fin 16) (h : s.inputs = .read 4 (0x100 + 4 * r.val) :: rest) (hb : s.busy = false) :
    step s = .next { s with inputs := rest, bus := .performed (BitVec.ofNat 32 s.g[r].toNat) } := by
  rw [step_read_idle s 4 _ rest h (accessOk_word _ (by omega) (by omega)) hb, target_greg, BitVec.ofNat_toNat]; rfl

theorem step_read_syn (j : Fin 32) (h : s.inputs = .read 4 (0x200 + 4 * j.val) :: rest) (hb : s.busy = false) :
    step s = .next { s with inputs := rest, bus := .performed (BitVec.ofNat 32 s.syn[j].toNat) } := by
  rw [step_read_idle s 4 _ rest h (accessOk_word _ (by omega) (by omega)) hb, target_syn, BitVec.ofNat_toNat]; rfl

theorem step_read_element (hi : i < bufSize b) (h : s.inputs = .read 4 (elementOffset b i) :: rest)
    (hb : s.busy = false) :
    step s = .next { s with inputs := rest, bus := .performed (BitVec.ofNat 32 (s.cell b i).toNat) } := by
  rw [step_read_idle s 4 _ rest h (accessOk_elementOffset hi) hb, target_elementOffset hi, BitVec.ofNat_toNat]; rfl

theorem step_write_greg (r : Fin 16) (h : s.inputs = .write 4 (0x100 + 4 * r.val) v :: rest) (hb : s.busy = false) :
    step s = .next { s with inputs := rest, bus := .performed 0, g := s.g.set r (BitVec.ofNat 8 v.toNat) } := by
  rw [step_write_acts s 4 _ v rest h (accessOk_word _ (by omega) (by omega)) (.inl hb), target_greg,
    ← extractLsb'_zero_eq_ofNat]; rfl

theorem step_write_element (hi : i < bufSize b) (h : s.inputs = .write 4 (elementOffset b i) v :: rest)
    (hb : s.busy = false) :
    step s = .next { s.putCell b i (v.extractLsb' 0 8) with inputs := rest, bus := .performed 0 } := by
  rw [step_write_acts s 4 _ v rest h (accessOk_elementOffset hi) (.inl hb), target_elementOffset hi]; rfl

end

theorem bufMask_toNat (b : Buf) : (bufMask b).toNat = 2 ^ (if b = .mat then 3 else 8) - 1 := by cases b <;> rfl

/-- The low bits that an element keeps of a written word, as a number (20_memory.md R64). -/
theorem lowByte_and_bufMask_toNat (b : Buf) (v : Word) :
    (v.extractLsb' 0 8 &&& bufMask b).toNat = if b = .mat then v.toNat % 8 else v.toNat % 256 := by
  rw [extractLsb'_zero_eq_ofNat, BitVec.toNat_and, BitVec.toNat_ofNat, bufMask_toNat, Nat.and_two_pow_sub_one_eq_mod]
  split <;> omega

/-- Writes that a command owns keep the entries that were cached (41_rs.md R126). -/
theorem plan_genCache_prefix {i : Instr} {s : State} {ws : List Write} (h : plan i s = .ok ws) :
    s.genCache <+: (applyAll s ws).genCache := by
  refine applyAll_induction (P := fun t => s.genCache <+: t.genCache) ws s (List.prefix_refl _) fun w hw t ht => ?_
  have howned := plan_owned i s ws h w hw
  cases w with
  | genCache cache => obtain ⟨-, d, rfl⟩ := howned; exact extendCache_prefix _ d
  | bit | put => simp only [Write.apply]; split <;> exact ht
  | _ => exact ht

/-- The command in flight keeps the entries that are cached (20_memory.md R68). -/
theorem inFlightCache_prefix (s : State) : s.genCache <+: inFlightCache s := by
  unfold inFlightCache inFlightWrites
  split
  · exact List.prefix_refl _
  · split
    · exact List.prefix_refl _
    · split
      · exact List.prefix_refl _
      · next hplan => exact plan_genCache_prefix hplan

/-- The GENRAM view of a deeper cache shows the same coefficients at the degrees cached before. -/
theorem genramWord_of_prefix {cache larger : List (List Byte)} (h : cache <+: larger) {d : Nat}
    (hd : d ≤ cache.length) (k : Nat) : genramWord larger d k = genramWord cache d k := by
  simp only [genramWord, cachedGen_of_prefix h hd, hd, hd.trans h.length_le]

/-- A GENRAM read shows the cached coefficients, up to GEN_DEPTH also while BUSY (20_memory.md R68). -/
theorem step_read_genram {s : State} {d k : Nat} {rest : List Input} (hd : d < 32) (hk : k < 32)
    (h : s.inputs = .read 4 (0x1000 + 4 * (32 * d + k)) :: rest) (hbusy : s.busy = false ∨ d ≤ s.genDepth) :
    ∃ t, step s = .next t ∧ t.bus = .performed (genramWord s.genCache d k) := by
  have ha : accessOk 4 (0x1000 + 4 * (32 * d + k)) = true := accessOk_word _ (by omega) (by omega)
  cases hb : s.busy with
  | false => exact ⟨_, step_read_idle s 4 _ rest h ha hb, by rw [target_genram hd hk]; rfl⟩
  | true =>
    have hdepth : d ≤ s.genDepth := hbusy.resolve_left (by simp [hb])
    have hseen : d ≤ max s.genDepth s.depthSeen := hdepth.trans (Nat.le_max_left _ _)
    refine ⟨_, step_read_busy s 4 _ rest h ha hb, ?_⟩
    rw [target_genram hd hk, ← genramWord_of_prefix (inFlightCache_prefix s) hdepth k,
      ← inFlightCache_inputs s rest]
    exact congrArg _ (if_pos hseen)

end Sys2Proof.Machine
end

section
/-! SUPPORT. Every write of a plan stays in range: element indexes inside the buffers, lengths inside their registers'
ranges, the cache coherent; and a plan that fails names one of its command's error codes (20_memory.md R70,
60_exceptions.md R251). -/

namespace Sys2Proof.Machine

/-- The write keeps the element indexes and the length registers in range, and the cache coherent and at most `depth`
or 30 deep (20_memory.md R70, 41_rs.md R126). -/
def Write.InRange (depth : Nat) : Write → Prop
  | .bit i _ => i < 32768
  | .put b i _ => i < bufSize b
  | .bbLen n => n ≤ 32768
  | .cwLen n => n ≤ 4096
  | .matVer n => n ≤ 40
  | .genCache cache => cache.length ≤ max depth 30 ∧ Coherent cache
  | _ => True

/-- A plan whose writes are all in range, or whose error is one of `codes`. -/
def PlanSound (depth : Nat) (codes : List ErrCode) : Except ErrCode (List Write) → Prop
  | .ok ws => ∀ w ∈ ws, w.InRange depth
  | .error e => e ∈ codes

variable {depth : Nat}

/-- A check that raises one of the codes, and a sound plan past it. -/
theorem planSound_guard {codes : List ErrCode} {c : Prop} [Decidable c] {e : ErrCode}
    {r : Except ErrCode (List Write)} (he : e ∈ codes) (h : ¬ c → PlanSound depth codes r) :
    PlanSound depth codes (if c then .error e else r) := by
  split
  · exact he
  · next hc => exact h hc

/-! ## Appends -/

/-- The bits that a list of appends adds. -/
def appendedBits : List (Nat × Nat) → Nat
  | [] => 0
  | (n, _) :: rest => n + appendedBits rest

/-- Appends that end inside the bit buffer write inside it (42_bitbuf.md R141). -/
theorem appends_inRange (len : Nat) (vs : List (Nat × Nat)) (h : len + appendedBits vs ≤ 32768) :
    ∀ w ∈ appends len vs, w.InRange depth := by
  induction vs generalizing len with
  | nil => exact List.forall_mem_singleton.2 h
  | cons v vs ih =>
    obtain ⟨n, v⟩ := v
    rw [appendedBits] at h
    have hvalue : ∀ w ∈ valueBits len n v, w.InRange depth := List.forall_mem_map.2 fun j hj => by
      have hj := List.mem_range.1 hj
      show len + j < 32768
      omega
    have hfill : ∀ w ∈ fillBits (len + n), w.InRange depth := List.forall_mem_map.2 fun j hj => by
      have hj := List.mem_range.1 hj
      show len + n + j < 32768
      omega
    exact List.forall_mem_append.2 ⟨List.forall_mem_append.2 ⟨hvalue, hfill⟩, ih _ (by omega)⟩

/-- The payload's appends add the payload's size (43_serializer.md R166, R169). -/
theorem appendedBits_payload (ks : List Nat) : appendedBits (payload ks) = payloadSize ks.length := by
  induction ks using payload.induct with
  | case1 a b rest ih => simp only [payload, appendedBits, ih, payloadSize, List.length_cons]; omega
  | case2 a => simp [payload, appendedBits, payloadSize]
  | case3 => rfl

theorem alnumIndexes_length {cs : List Byte} {ks : List Nat} (h : alnumIndexes cs = some ks) :
    ks.length = cs.length := by
  induction cs generalizing ks with
  | nil => cases h; rfl
  | cons c cs ih =>
    unfold alnumIndexes at h
    split at h
    · next k ks' _ hks => cases h; exact congrArg Nat.succ (ih hks)
    · cases h

theorem appendedBits_append (vs ws : List (Nat × Nat)) :
    appendedBits (vs ++ ws) = appendedBits vs + appendedBits ws := by
  induction vs with
  | nil => exact (Nat.zero_add _).symm
  | cons v vs ih => simp only [List.cons_append, appendedBits, ih, Nat.add_assoc]

theorem appendedBits_padBytes (even : Bool) (count : Nat) : appendedBits (padBytes even count) = 8 * count := by
  induction count generalizing even with
  | zero => rfl
  | succ count ih => rw [padBytes, appendedBits, ih]; omega

/-- Padding fills a capacity of whole bytes exactly (43_serializer.md R167). -/
theorem appendedBits_padding {len cap : Nat} (hcap : cap % 8 = 0) (h : len ≤ cap) :
    len + appendedBits (padding len cap) = cap := by
  have hterm : ∀ t, appendedBits (if 0 < t then [(t, 0)] else []) = t := fun t => by
    split <;> simp only [appendedBits] <;> omega
  have halign : ∀ a, appendedBits (if a ≠ 0 then [(a, 0)] else []) = a := fun a => by
    split <;> simp only [appendedBits] <;> omega
  simp only [padding, appendedBits_append, appendedBits_padBytes, hterm, halign]
  omega

/-! ## Element runs -/

theorem putRun_inRange (b : Buf) (start : Nat) (vs : List Byte) (h : start + vs.length ≤ bufSize b) :
    ∀ w ∈ putRun b start vs, w.InRange depth := by
  induction vs generalizing start with
  | nil => exact fun _ hw => nomatch hw
  | cons v vs ih =>
    rw [List.length_cons] at h
    exact List.forall_mem_cons.2 ⟨show start < bufSize b by omega, ih _ (by omega)⟩

/-- With the generator of the record's degree every block's ECC is written, inside the ECC buffer
(44_blocks.md R184). -/
theorem blockEccWrites_generator (s : State) (bs : List Nat) (he : 1 ≤ s.ECCPB)
    (hbs : ∀ b ∈ bs, (b + 1) * s.ECCPB ≤ 4096) :
    ∃ ws, blockEccWrites s (generator s.ECCPB) bs = .ok ws ∧ ∀ w ∈ ws, w.InRange depth := by
  induction bs with
  | nil => exact ⟨[], rfl, fun _ hw => nomatch hw⟩
  | cons b bs ih =>
    obtain ⟨hb, hbs⟩ := List.forall_mem_cons.1 hbs
    obtain ⟨ws, hws, hin⟩ := ih hbs
    obtain ⟨ecc, hecc, hlen⟩ := rsEcc_generator (blockData s b) he
    refine ⟨putRun .eccbuf (b * s.ECCPB) ecc ++ ws, by rw [blockEccWrites, hecc, hws], ?_⟩
    refine List.forall_mem_append.2 ⟨putRun_inRange _ _ _ ?_, hin⟩
    rw [hlen, ← Nat.succ_mul]
    exact hb

/-- The blocks before block b hold their sizes' sum (10_state.md R47). -/
theorem OFF_eq (s : State) (b : Nat) :
    s.OFF b = min b s.g1blk.toNat * s.g1sz.toNat + (b - s.g1blk.toNat) * s.g2sz.toNat := by
  induction b with
  | zero => simp [State.OFF]
  | succ b ih =>
    rw [State.OFF, ih, State.SIZE]
    split
    · next hlt =>
      rw [Nat.min_eq_left hlt.le, Nat.min_eq_left hlt, Nat.sub_eq_zero_of_le hlt.le, Nat.sub_eq_zero_of_le hlt,
        Nat.succ_mul]
      omega
    · next hge =>
      have hge := Nat.le_of_not_lt hge
      rw [Nat.min_eq_right hge, Nat.min_eq_right (hge.trans (Nat.le_succ b)), Nat.succ_sub hge, Nat.succ_mul]
      omega

theorem OFF_NBLK (s : State) : s.OFF s.NBLK = s.DATA_TOTAL := by
  rw [OFF_eq, State.NBLK, Nat.min_eq_right (Nat.le_add_right _ _), Nat.add_sub_cancel_left]; rfl

/-- The columns below `k`, of `m` columns or fewer. -/
theorem sum_columns_below (k m : Nat) :
    ((List.range m).map fun col => if col < k then 1 else 0).sum = min k m := by
  induction m with
  | zero => exact (Nat.min_zero k).symm
  | succ m ih => rw [List.sum_range_succ, ih]; split <;> omega

/-- Column by column or block by block, the blocks' bytes are as many (44_blocks.md R186). -/
theorem sum_dataColumns (s : State) (m n : Nat) (h : ∀ b < n, s.SIZE b ≤ m) :
    ((List.range m).map fun col =>
      ((List.range n).map fun b => if col < s.SIZE b then 1 else 0).sum).sum = s.OFF n := by
  induction n with
  | zero => simp [State.OFF]
  | succ n ih =>
    simp only [List.sum_range_succ, List.sum_map_add, sum_columns_below, State.OFF,
      ih fun b hb => h b (Nat.lt_succ_of_lt hb), Nat.min_eq_left (h n (Nat.lt_succ_self n))]

theorem le_foldl_max_range (f : Nat → Nat) (n b : Nat) (hb : b < n) :
    f b ≤ (List.range n).foldl (fun m b => max m (f b)) 0 := by
  induction n with
  | zero => exact absurd hb (Nat.not_lt_zero b)
  | succ n ih =>
    rw [List.range_succ, List.foldl_append]
    rcases Nat.lt_succ_iff_lt_or_eq.1 hb with hlt | rfl
    · exact (ih hlt).trans (Nat.le_max_left _ _)
    · exact Nat.le_max_right _ _

/-- The interleaved codewords are as many as the data and ECC bytes (44_blocks.md R186, R187). -/
theorem interleave_length (s : State) : (interleave s).length = s.NBLK * s.ECCPB + s.DATA_TOTAL := by
  have hdata := sum_dataColumns s (maxSize s) s.NBLK (le_foldl_max_range s.SIZE s.NBLK)
  have hone : ∀ (c : Prop) [Decidable c] (v : Byte), (if c then [v] else []).length = if c then 1 else 0 :=
    fun c _ v => by split <;> rfl
  simp only [interleave, List.length_append, List.length_flatMap, List.length_map, List.length_range, hone, hdata,
    OFF_NBLK, List.map_const', List.sum_replicate, smul_eq_mul]
  ring

/-- With a record that passes the check the interleaved codewords are RAWCW(V) (44_blocks.md R181, R187). -/
theorem interleave_length_of_vrecOk (s : State) (h : s.vrecOk = true) : (interleave s).length = rawCw s.V := by
  obtain ⟨-, -, -, -, -, -, -, htotal⟩ := (vrecOk_iff s).1 h
  rw [interleave_length, htotal]

/-! ## Matrix cells -/

theorem putMat_inRange {r c : Nat} (v : Byte) (hr : r < 256) (hc : c < 256) : (putMat r c v).InRange depth := by
  show 256 * r + c < 65536
  omega

/-- The symbol of a version in 1 … 40 lies inside the matrix (45_placement.md R200). -/
theorem sideOf_le {V : Nat} (h : V ≤ 40) : sideOf V ≤ 177 := by unfold sideOf; omega

theorem drawTiming_inRange {N : Nat} (hN : N ≤ 177) : ∀ w ∈ drawTiming N, w.InRange depth :=
  List.forall_mem_flatMap.2 fun i hi => by
    have hi := List.mem_range.1 hi
    exact List.forall_mem_cons.2 ⟨putMat_inRange _ (by omega) (by omega),
      List.forall_mem_singleton.2 (putMat_inRange _ (by omega) (by omega))⟩

theorem drawFinder_inRange {N : Nat} (hN : N ≤ 177) (cr cc : Nat) : ∀ w ∈ drawFinder N cr cc, w.InRange depth :=
  List.forall_mem_flatMap.2 fun i _ => List.forall_mem_flatMap.2 fun j _ => by
    split
    · next hin => exact List.forall_mem_singleton.2 (putMat_inRange _ (by omega) (by omega))
    · exact fun _ hw => nomatch hw

theorem drawAlignment_inRange {pr pc : Nat} (hr : pr ≤ 170) (hc : pc ≤ 170) :
    ∀ w ∈ drawAlignment pr pc, w.InRange depth :=
  List.forall_mem_flatMap.2 fun i hi => List.forall_mem_map.2 fun j hj => by
    have hi := List.mem_range.1 hi
    have hj := List.mem_range.1 hj
    exact putMat_inRange _ (by omega) (by omega)

/-- No alignment pattern's centre lies beyond N - 7 (45_placement.md R202). -/
theorem alignPos_getD_le {V : Nat} (h : V ≤ 40) (a : Nat) : (alignPos V).getD a 0 ≤ 170 := by
  have hside := sideOf_le h
  have hall : ∀ p ∈ alignPos V, p ≤ 170 := by
    unfold alignPos
    split
    · exact fun _ hp => nomatch hp
    · refine List.forall_mem_cons.2 ⟨by omega, fun p hp => ?_⟩
      obtain ⟨k, -, rfl⟩ := List.mem_map.1 (List.mem_reverse.1 hp)
      exact (Nat.sub_le _ _).trans (by omega)
  rw [List.getD_eq_getElem?_getD]
  cases ha : (alignPos V)[a]? with
  | none => exact Nat.zero_le _
  | some p => exact hall p (List.mem_of_getElem? ha)

theorem drawAlignments_inRange {V : Nat} (h : V ≤ 40) : ∀ w ∈ drawAlignments V, w.InRange depth :=
  List.forall_mem_flatMap.2 fun a _ => List.forall_mem_flatMap.2 fun b _ => by
    split
    · exact fun _ hw => nomatch hw
    · exact drawAlignment_inRange (alignPos_getD_le h a) (alignPos_getD_le h b)

/-- The format and version cells lie inside the symbol (45_placement.md R206, R208). -/
theorem copyA_lt (i : Nat) : (copyA i).1 < 256 ∧ (copyA i).2 < 256 := by
  unfold copyA; split_ifs <;> exact ⟨by omega, by omega⟩

theorem copyB_lt {N i : Nat} (hN : N ≤ 177) (hi : i < 15) : (copyB N i).1 < 256 ∧ (copyB N i).2 < 256 := by
  unfold copyB; split <;> exact ⟨by omega, by omega⟩

theorem verA_lt {N i : Nat} (hN : N ≤ 177) (hi : i < 18) : (verA N i).1 < 256 ∧ (verA N i).2 < 256 :=
  ⟨by unfold verA; omega, by unfold verA; omega⟩

theorem verB_lt {N i : Nat} (hN : N ≤ 177) (hi : i < 18) : (verB N i).1 < 256 ∧ (verB N i).2 < 256 :=
  ⟨by unfold verB; omega, by unfold verB; omega⟩

/-- Two matrix writes for each of `n` bits, at cells inside the matrix. -/
theorem bitPairs_inRange {n : Nat} {p q : Nat → Nat × Nat} {u v : Nat → Byte}
    (hp : ∀ i < n, (p i).1 < 256 ∧ (p i).2 < 256) (hq : ∀ i < n, (q i).1 < 256 ∧ (q i).2 < 256) :
    ∀ w ∈ (List.range n).flatMap fun i => [putMat (p i).1 (p i).2 (u i), putMat (q i).1 (q i).2 (v i)],
      w.InRange depth :=
  List.forall_mem_flatMap.2 fun i hi =>
    have hi := List.mem_range.1 hi
    List.forall_mem_cons.2 ⟨putMat_inRange _ (hp i hi).1 (hp i hi).2,
      List.forall_mem_singleton.2 (putMat_inRange _ (hq i hi).1 (hq i hi).2)⟩

theorem functionPatterns_inRange {V : Nat} (h : V ≤ 40) : ∀ w ∈ functionPatterns V, w.InRange depth := by
  have hN := sideOf_le h
  have hfinders : ∀ w ∈ drawFinders (sideOf V), w.InRange depth :=
    List.forall_mem_append.2 ⟨List.forall_mem_append.2 ⟨drawFinder_inRange hN _ _, drawFinder_inRange hN _ _⟩,
      drawFinder_inRange hN _ _⟩
  have hformat : ∀ w ∈ reserveFormat (sideOf V), w.InRange depth :=
    bitPairs_inRange (fun i _ => copyA_lt i) (fun i hi => copyB_lt hN hi)
  have hdark : ∀ w ∈ [drawModule (sideOf V - 8) 8 true], w.InRange depth :=
    List.forall_mem_singleton.2 (putMat_inRange _ (by omega) (by omega))
  have hversion : ∀ w ∈ (if 7 ≤ V then reserveVersion (sideOf V) else []), w.InRange depth := by
    split
    · exact bitPairs_inRange (fun i hi => verA_lt hN hi) (fun i hi => verB_lt hN hi)
    · exact fun _ hw => nomatch hw
  simp only [functionPatterns, List.forall_mem_append]
  exact ⟨⟨⟨⟨⟨drawTiming_inRange hN, hfinders⟩, drawAlignments_inRange h⟩, hformat⟩, hdark⟩, hversion⟩

/-- The sweep visits cells of the symbol only (45_placement.md R211). -/
theorem zigzagPair_lt (s : State) (N right : Nat) :
    ∀ rc ∈ zigzagPair s N right, rc.1 < N ∧ rc.2 ≤ right :=
  List.forall_mem_flatMap.2 fun vert hvert rc hrc => by
    have hvert := List.mem_range.1 hvert
    have hmem := List.mem_of_mem_filter hrc
    simp only [List.mem_cons, List.not_mem_nil, or_false] at hmem
    rcases hmem with rfl | rfl <;> exact ⟨by dsimp only; split <;> omega, by dsimp only; omega⟩

theorem zigzagFrom_lt (s : State) (N fuel right : Nat) :
    ∀ rc ∈ zigzagFrom s N fuel right, rc.1 < N ∧ rc.2 ≤ right := by
  induction fuel generalizing right with
  | zero => exact fun _ h => nomatch h
  | succ fuel ih =>
    unfold zigzagFrom
    split
    · exact fun _ h => nomatch h
    · have hcol : (if right = 6 then 5 else right) ≤ right := by split <;> omega
      refine List.forall_mem_append.2 ⟨fun rc hrc => ?_, fun rc hrc => ?_⟩
      · exact (zigzagPair_lt s N _ rc hrc).imp_right fun h => h.trans hcol
      · exact (ih _ rc hrc).imp_right fun h => h.trans ((Nat.sub_le _ _).trans hcol)

end Sys2Proof.Machine
end

section
/-! SUPPORT. The plan of every command is sound: its writes are in range, or it fails with one of the
command's codes. -/

namespace Sys2Proof.Machine

variable {s : State}

/-- The check of the version record, and what a record that passes it is worth (44_blocks.md R181). -/
theorem planSound_vrecOk {depth : Nat} {codes : List ErrCode} {r : Except ErrCode (List Write)}
    (he : .invalidVersionRecord ∈ codes) (h : s.vrecOk = true → s.V ≤ 40 → PlanSound depth codes r) :
    PlanSound depth codes (if s.vrecOk = false then .error .invalidVersionRecord else r) :=
  planSound_guard he fun hv =>
    have hv := Bool.eq_true_of_not_eq_false hv
    h hv ((vrecOk_iff s).1 hv).2.1

/-- The check of RS.ENC and RS.SYN raises one of their two codes, or the operands are in range (41_rs.md R130). -/
theorem rsCheck_cases (n e : Nat) (s : State) :
    (∃ err, rsCheck n e s = some err ∧ err ∈ [ErrCode.invalidGeneratorDegree, .invalidLength]) ∨
    (rsCheck n e s = none ∧ 1 ≤ e ∧ e ≤ 30 ∧ s.rsDst.toNat + e ≤ 4096) := by
  unfold rsCheck
  split_ifs
  · exact .inl ⟨_, rfl, by decide⟩
  · exact .inl ⟨_, rfl, by decide⟩
  · exact .inl ⟨_, rfl, by decide⟩
  · exact .inl ⟨_, rfl, by decide⟩
  · exact .inr ⟨rfl, by omega, by omega, by omega⟩

/-- Extending a coherent cache up to a legal degree is in range (41_rs.md R126). -/
theorem extendCache_inRange (h : CacheOk s) {d : Nat} (hd : d ≤ 30) :
    (Write.genCache (extendCache s.genCache d)).InRange s.genDepth :=
  ⟨(extendCache_length _ _).trans_le (max_le_max_left _ hd), extendCache_coherent h d⟩

theorem planGfDiv_sound (rd ra rb : Fin 16) (s : State) :
    PlanSound s.genDepth [.divisionByZero] (planGfDiv rd ra rb s) := by
  unfold planGfDiv gdiv
  split
  · exact List.mem_singleton.2 rfl
  · exact List.forall_mem_singleton.2 trivial
  · exact List.forall_mem_singleton.2 trivial

theorem planGfInv_sound (rd ra : Fin 16) (s : State) :
    PlanSound s.genDepth [.divisionByZero] (planGfInv rd ra s) := by
  unfold planGfInv ginv
  split
  · exact List.mem_singleton.2 rfl
  · exact List.forall_mem_singleton.2 trivial

theorem planGfLog_sound (rd ra : Fin 16) (s : State) :
    PlanSound s.genDepth [.logOfZero] (planGfLog rd ra s) := by
  unfold planGfLog
  split
  · exact List.mem_singleton.2 rfl
  · exact List.forall_mem_singleton.2 trivial

/-- RS.ENC writes as many bytes as the degree, and the check keeps them inside the ECC buffer. -/
theorem planRsEnc_sound (h : CacheOk s) (n e : Nat) :
    PlanSound s.genDepth [.invalidGeneratorDegree, .invalidLength] (planRsEnc n e s) := by
  unfold planRsEnc
  rcases rsCheck_cases n e s with ⟨err, hcheck, herr⟩ | ⟨hcheck, he, he30, hdst⟩
  · rw [hcheck]; exact herr
  · obtain ⟨ecc, hecc, hlen⟩ := rsEcc_generator (s.cells .bitbuf s.rsSrc.toNat n) he
    simp only [hcheck, cachedGen_extendCache h, hecc]
    exact List.forall_mem_cons.2 ⟨extendCache_inRange h he30, putRun_inRange _ _ _ (hlen.symm ▸ hdst)⟩

theorem planRsSyn_sound (n e : Nat) (s : State) :
    PlanSound s.genDepth [.invalidGeneratorDegree, .invalidLength] (planRsSyn n e s) := by
  unfold planRsSyn
  rcases rsCheck_cases n e s with ⟨err, hcheck, herr⟩ | ⟨hcheck, -⟩
  · rw [hcheck]; exact herr
  · rw [hcheck]; exact List.forall_mem_cons.2 ⟨trivial, List.forall_mem_singleton.2 trivial⟩

/-- What the serializer appends ends at the record's capacity, far inside the bit buffer. -/
theorem planSerHdr_sound (mode : EncMode) (s : State) :
    PlanSound s.genDepth [.unimplemented, .invalidVersionRecord, .capacityExceeded] (planSerHdr mode s) := by
  refine planSound_guard (by decide) fun _ => planSound_vrecOk (by decide) fun hv _ =>
    planSound_guard (by decide) fun _ => planSound_guard (by decide) fun hfit => appends_inRange _ _ ?_
  have hcap := capbits_le s hv
  simp only [appendedBits]
  omega

theorem planSerAln_sound (s : State) :
    PlanSound s.genDepth [.invalidVersionRecord, .invalidCharacter, .capacityExceeded] (planSerAln s) := by
  refine planSound_vrecOk (by decide) fun hv _ => ?_
  have hcap := capbits_le s hv
  split
  · exact List.mem_of_elem_eq_true rfl
  · next ks hks =>
    have hlen : ks.length = s.charLen.toNat :=
      (alnumIndexes_length hks).trans ((List.length_map _).trans List.length_range)
    refine planSound_guard (by decide) fun hfit => appends_inRange _ _ ?_
    rw [appendedBits_payload, hlen]
    omega

theorem planSerPad_sound (s : State) :
    PlanSound s.genDepth [.invalidVersionRecord, .capacityExceeded] (planSerPad s) := by
  refine planSound_vrecOk (by decide) fun hv _ => planSound_guard (by decide) fun hfit => appends_inRange _ _ ?_
  have hbytes : s.CAPBITS % 8 = 0 := Nat.mul_mod_right 8 _
  rw [appendedBits_padding hbytes (Nat.le_of_not_lt hfit)]
  exact (capbits_le s hv).trans (by decide)

/-- The blocks' ECC bytes are at most RAWCW(V) and fit the ECC buffer. -/
theorem planBlkEcc_sound (h : CacheOk s) :
    PlanSound s.genDepth [.invalidVersionRecord, .sequenceError] (planBlkEcc s) := by
  refine planSound_vrecOk (by decide) fun hv hV => planSound_guard (by decide) fun _ => ?_
  obtain ⟨-, -, he, he30, -, -, -, htotal⟩ := (vrecOk_iff s).1 hv
  have hraw := rawCw_le s.V hV
  obtain ⟨ws, hws, hin⟩ := blockEccWrites_generator (depth := s.genDepth) s (List.range s.NBLK) he fun b hb =>
    (Nat.mul_le_mul_right _ (List.mem_range.1 hb)).trans (by omega)
  simp only [cachedGen_extendCache h, hws]
  exact List.forall_mem_cons.2 ⟨extendCache_inRange h he30, hin⟩

theorem planBlkWeave_sound (s : State) :
    PlanSound s.genDepth [.invalidVersionRecord, .sequenceError] (planBlkWeave s) := by
  refine planSound_vrecOk (by decide) fun hv hV => planSound_guard (by decide) fun _ => ?_
  have hlen : (interleave s).length ≤ 4096 :=
    (interleave_length_of_vrecOk s hv).trans_le ((rawCw_le s.V hV).trans (by decide))
  exact List.forall_mem_append.2
    ⟨putRun_inRange _ _ _ ((Nat.zero_add _).trans_le hlen), List.forall_mem_singleton.2 hlen⟩

theorem planPlInit_sound (s : State) : PlanSound s.genDepth [.invalidVersionRecord] (planPlInit s) :=
  planSound_vrecOk (by decide) fun _ hV => List.forall_mem_cons.2 ⟨trivial, List.forall_mem_append.2
    ⟨functionPatterns_inRange hV, List.forall_mem_singleton.2 hV⟩⟩

theorem planPlPlace_sound (s : State) :
    PlanSound s.genDepth [.invalidVersionRecord, .sequenceError, .invalidLength] (planPlPlace s) := by
  refine planSound_vrecOk (by decide) fun _ hV => planSound_guard (by decide) fun _ =>
    planSound_guard (by decide) fun _ => ?_
  have hN : s.N ≤ 177 := sideOf_le hV
  have hcells : ∀ rc ∈ zigzag s s.N, ∀ v, (putMat rc.1 rc.2 v).InRange s.genDepth := fun rc hrc v => by
    have hrc := zigzagFrom_lt s s.N s.N (s.N - 1) rc hrc
    exact putMat_inRange v (by omega) (by omega)
  refine List.forall_mem_append.2 ⟨List.forall_mem_map.2 fun rc hrc => hcells rc hrc 0, ?_⟩
  rw [← List.map_uncurry_zip_eq_zipWith]
  exact List.forall_mem_map.2 fun p hp => hcells p.1 (List.of_mem_zip hp).1 _

theorem planPlMask_sound (m : Fin 8) (s : State) :
    PlanSound s.genDepth [.invalidVersionRecord, .sequenceError] (planPlMask m s) := by
  refine planSound_vrecOk (by decide) fun _ hV => planSound_guard (by decide) fun _ =>
    List.forall_mem_flatMap.2 fun r hr => List.forall_mem_flatMap.2 fun c hc => ?_
  have hN : s.N ≤ 177 := sideOf_le hV
  have hr := List.mem_range.1 hr
  have hc := List.mem_range.1 hc
  split
  · exact List.forall_mem_singleton.2 (putMat_inRange _ (by omega) (by omega))
  · exact fun _ hw => nomatch hw

theorem planPlFmt_sound (m : Fin 8) (s : State) :
    PlanSound s.genDepth [.invalidVersionRecord, .sequenceError] (planPlFmt m s) := by
  refine planSound_vrecOk (by decide) fun _ hV => planSound_guard (by decide) fun _ => ?_
  have hN : s.N ≤ 177 := sideOf_le hV
  refine List.forall_mem_append.2
    ⟨bitPairs_inRange (fun i _ => copyA_lt i) (fun i hi => copyB_lt hN hi), ?_⟩
  split
  · exact bitPairs_inRange (fun i hi => verA_lt hN hi) (fun i hi => verB_lt hN hi)
  · exact fun _ hw => nomatch hw

/-- Every command's plan keeps in range what it writes, or fails with one of the command's codes. -/
theorem plan_sound (i : Instr) (h : CacheOk s) : PlanSound s.genDepth (errorCodes i) (plan i s) := by
  cases i with
  | nop => exact fun _ hw => nomatch hw
  | gfLi | gfAdd | gfMul | gfExp => exact List.forall_mem_singleton.2 trivial
  | gfDiv rd ra rb => exact planGfDiv_sound rd ra rb s
  | gfInv rd ra => exact planGfInv_sound rd ra s
  | gfLog rd ra => exact planGfLog_sound rd ra s
  | bbClr => exact List.forall_mem_cons.2 ⟨trivial, List.forall_mem_singleton.2 (Nat.zero_le _)⟩
  | bbApp | bbAppr =>
    exact planSound_guard (by simp [errorCodes]) fun _ => planSound_guard (by simp [errorCodes]) fun hfit =>
      appends_inRange _ _ (Nat.le_of_not_lt hfit)
  | bbRd =>
    exact planSound_guard (by simp [errorCodes]) fun _ => planSound_guard (by simp [errorCodes]) fun _ =>
      List.forall_mem_singleton.2 trivial
  | rsGen d =>
    exact planSound_guard (by simp [errorCodes]) fun hd =>
      List.forall_mem_singleton.2 (extendCache_inRange h (by omega))
  | rsEnc n e => exact planRsEnc_sound h n e
  | rsSyn n e => exact planRsSyn_sound n e s
  | serHdr mode => exact planSerHdr_sound mode s
  | serAln => exact planSerAln_sound s
  | serPad => exact planSerPad_sound s
  | blkEcc => exact planBlkEcc_sound h
  | blkWeave => exact planBlkWeave_sound s
  | plInit => exact planPlInit_sound s
  | plPlace => exact planPlPlace_sound s
  | plMask m => exact planPlMask_sound m s
  | plFmt m => exact planPlFmt_sound m s

theorem plan_ok_inRange {i : Instr} {ws : List Write} (h : CacheOk s) (hplan : plan i s = .ok ws) :
    ∀ w ∈ ws, w.InRange s.genDepth := by
  have hsound := plan_sound i h
  rw [hplan] at hsound
  exact hsound

theorem plan_error_mem {i : Instr} {e : ErrCode} (h : CacheOk s) (hplan : plan i s = .error e) :
    e ∈ errorCodes i := by
  have hsound := plan_sound i h
  rw [hplan] at hsound
  exact hsound

/-- Every code that a command can raise is an error (60_exceptions.md R250). -/
theorem none_not_mem_errorCodes (i : Instr) : ErrCode.none ∉ errorCodes i := by cases i <;> simp [errorCodes]

/-- The writes of the command in flight are in range. -/
theorem inFlightWrites_inRange (h : CacheOk s) : ∀ w ∈ inFlightWrites s, w.InRange s.genDepth := by
  unfold inFlightWrites
  split
  · exact fun _ hw => nomatch hw
  · split
    · exact fun _ hw => nomatch hw
    · split
      · exact fun _ hw => nomatch hw
      · next hplan => exact plan_ok_inRange h hplan

end Sys2Proof.Machine
end

section
/-! SUPPORT. The buffers stay in canonical form, and every step of every agent keeps the machine invariant. -/

namespace Sys2Proof.Machine

variable {s t : State}

/-- One buffer's memory in canonical form, inside the buffer, with values of its elements' width. -/
def BufOk (b : Buf) (m : Memory) : Prop := Memory.wf m ∧ ∀ c ∈ m, c.1 < bufSize b ∧ c.2 &&& bufMask b = c.2

theorem buffers_wf_iff (bs : Buffers) : bs.wf ↔ ∀ b, BufOk b (bs.get b) := by
  have hbyte : ∀ v : Byte, v &&& 0xFF = v := fun v => BitVec.and_allOnes
  constructor
  · rintro ⟨hchar, hbit, hecc, hcw, hmat⟩ b
    cases b with
    | charbuf => exact ⟨hchar.1, fun c hc => ⟨hchar.2 c hc, hbyte _⟩⟩
    | bitbuf => exact ⟨hbit.1, fun c hc => ⟨hbit.2 c hc, hbyte _⟩⟩
    | eccbuf => exact ⟨hecc.1, fun c hc => ⟨hecc.2 c hc, hbyte _⟩⟩
    | cwbuf => exact ⟨hcw.1, fun c hc => ⟨hcw.2 c hc, hbyte _⟩⟩
    | mat => exact hmat
  · intro h
    exact ⟨(h .charbuf).imp_right fun hc c hm => (hc c hm).1, (h .bitbuf).imp_right fun hc c hm => (hc c hm).1,
      (h .eccbuf).imp_right fun hc c hm => (hc c hm).1, (h .cwbuf).imp_right fun hc c hm => (hc c hm).1, h .mat⟩

theorem bufOk_nil (b : Buf) : BufOk b [] := ⟨wf_nil, fun _ hc => nomatch hc⟩

theorem bufOk_write {b : Buf} {m : Memory} (h : BufOk b m) {i : Nat} (hi : i < bufSize b) (v : Byte) :
    BufOk b (Memory.write m i (v &&& bufMask b)) :=
  ⟨wf_write m i _ h.1, fun c hc => by
    rcases mem_write m i _ c hc with rfl | hc
    · exact ⟨hi, by rw [BitVec.and_assoc, BitVec.and_self]⟩
    · exact h.2 c hc⟩

theorem bufOk_clear {b : Buf} {m : Memory} (h : BufOk b m) (took : Nat → Bool) : BufOk b (Memory.clear m took) :=
  ⟨wf_clear m took h.1, fun c hc => h.2 c (List.mem_of_mem_filter hc)⟩

theorem bufOk_canonMemory (b : Buf) (m : Memory) : BufOk b (canonMemory b m) := by
  induction m with
  | nil => exact bufOk_nil b
  | cons c m ih =>
    rw [canonMemory, List.foldr_cons]
    split
    · next hi => exact bufOk_write ih hi _
    · exact ih

theorem buffers_wf_set {bs : Buffers} (h : bs.wf) {b : Buf} {m : Memory} (hm : BufOk b m) : (bs.set b m).wf :=
  (buffers_wf_iff _).2 fun c => by
    by_cases hcb : c = b
    · subst hcb; rw [get_set_same]; exact hm
    · rw [get_set_other _ _ _ _ hcb]; exact (buffers_wf_iff bs).1 h c

/-- Storing an element inside a buffer keeps the buffers well-formed (20_memory.md R64, R70). -/
theorem putCell_bufs_wf (h : s.bufs.wf) {b : Buf} {i : Nat} (hi : i < bufSize b) (v : Byte) :
    (s.putCell b i v).bufs.wf := buffers_wf_set h (bufOk_write ((buffers_wf_iff _).1 h b) hi v)

/-- Any content of the memories is brought into canonical form (70_reset_and_hazards.md R282). -/
theorem canonBuffers_wf (bs : Buffers) : (canonBuffers bs).wf :=
  (buffers_wf_iff _).2 fun b => by cases b <;> exact bufOk_canonMemory _ _

/-! ## The invariant -/

/-- A write in range keeps the invariant, whether it happens or not. -/
theorem apply_inv (took : Nat → Bool) {w : Write} (h : Inv s) (hw : w.InRange 30) : Inv (w.apply took s) := by
  cases w with
  | greg | syndromes | synz | result => exact { h with }
  | bbLen n => exact { h with bbLen := (BitVec.toNat_ofNat n 16).trans_le ((Nat.mod_le _ _).trans hw) }
  | cwLen n => exact { h with cwLen := (BitVec.toNat_ofNat n 13).trans_le ((Nat.mod_le _ _).trans hw) }
  | matVer n => exact { h with matVer := (BitVec.toNat_ofNat n 6).trans_le ((Nat.mod_le _ _).trans hw) }
  | genCache cache => exact { h with cacheDepth := hw.1, cacheOk := hw.2 }
  | bit i b =>
    simp only [Write.apply]
    split
    · exact { h with bufs := putCell_bufs_wf h.bufs (Nat.div_lt_of_lt_mul hw) _ }
    · exact h
  | put b i v =>
    simp only [Write.apply]
    split
    · exact { h with bufs := putCell_bufs_wf h.bufs hw v }
    · exact h
  | clear b =>
    exact { h with bufs := buffers_wf_set h.bufs (bufOk_clear ((buffers_wf_iff _).1 h.bufs b) took) }

/-- With the cache at most 30 deep, a write in range leaves it so. -/
theorem inRange_of_inv (h : Inv s) {w : Write} (hw : w.InRange s.genDepth) : w.InRange 30 := by
  cases w with
  | genCache cache => exact hw.imp_left fun hlen => hlen.trans (max_le h.cacheDepth (Nat.le_refl 30))
  | _ => exact hw

theorem complete_inv (h : Inv s) : Inv (complete s) := { h with errIdle := fun _ => rfl }

theorem raise_inv (h : Inv s) {e : ErrCode} (he : e ≠ .none) : Inv (raise e s) :=
  { h with
    errIdle := fun _ => rfl
    errCode := iff_of_true rfl he
    errCmd := fun herr => nomatch herr }

theorem exec_inv (i : Instr) (h : Inv s) (hexec : exec i s = .next t) : Inv t := by
  rcases exec_cases i s t hexec with ⟨ws, hplan, rfl⟩ | ⟨e, hplan, rfl⟩
  · exact complete_inv (applyAll_induction ws s h fun w hw _ hu =>
      apply_inv _ hu (inRange_of_inv h (plan_ok_inRange h.cacheOk hplan w hw)))
  · exact raise_inv h fun he => none_not_mem_errorCodes i (he ▸ plan_error_mem h.cacheOk hplan)

theorem executorTurn_inv (h : Inv s) (hturn : executorTurn s = .next t) : Inv t := by
  rcases executorTurn_cases s t hturn with ⟨-, rfl⟩ | ⟨w, e, -, -, rfl⟩ | ⟨w, i, -, -, hexec⟩
  · exact h
  · exact raise_inv h (by decide)
  · exact exec_inv i h hexec

/-- Every register at its reset value, with well-formed buffers (10_state.md R49). -/
theorem resetRegs_inv {bufs : Buffers} (h : bufs.wf) (s : State) : Inv (resetRegs bufs s) :=
  have hreset : Inv State.reset := Sys2Proof.Proofs.resetMeetsTheInvariant
  { hreset with bufs := h }

/-- A command that a reset abandons leaves well-formed buffers, whatever part of it happened
(70_reset_and_hazards.md R283). -/
theorem abandonedBuffers_wf (h : Inv s) : (abandonedBuffers s).wf :=
  (applySome_induction (P := Inv) _ _ _ s h fun w hw _ _ hu =>
    apply_inv _ hu (inRange_of_inv h (inFlightWrites_inRange h.cacheOk w hw))).bufs

theorem writeCtrl_inv (v : Word) (h : Inv s) : Inv (writeCtrl v s) := by
  unfold writeCtrl
  split
  · exact { resetRegs_inv (abandonedBuffers_wf h) s with }
  · exact { h with }

theorem writeStatus_inv (v : Word) (h : Inv s) : Inv (writeStatus v s) := by
  unfold writeStatus
  dsimp only
  split
  · exact { h with
      errIdle := fun herr => nomatch herr
      errCode := iff_of_false Bool.false_ne_true fun he => he rfl
      errCmd := fun _ => rfl }
  · exact { h with }

/-- A word is accepted only with ERR = 0, so an error is never recorded while BUSY (46_control.md R241). -/
theorem offer_inv (w : Word) (h : Inv s) : Inv (offer w s) := by
  unfold offer
  split
  · exact { h with }
  · split
    · exact { h with }
    · next herr => exact { h with errIdle := fun he => absurd he herr }

/-- A length register takes a written field that is legal, and else keeps its value (10_state.md R30, R31, R34). -/
theorem legalOrKept_le {n bound v : Nat} {x : BitVec n} (h : x.toNat ≤ bound) :
    (if v % 2 ^ n ≤ bound then BitVec.ofNat n v else x).toNat ≤ bound := by
  split
  · next hlegal => exact (BitVec.toNat_ofNat _ _).trans_le hlegal
  · exact h

/-- A host write keeps the invariant, whatever it names and whatever the value (20_memory.md R62-R65). -/
theorem writeTarget_inv (v : Word) (off : Nat) (h : Inv s) : Inv (writeTarget v s (target off)) := by
  cases ht : target off with
  | ctrl => exact writeCtrl_inv v h
  | status => exact writeStatus_inv v h
  | cmd => exact offer_inv v h
  | charLen =>
    rw [writeTarget_charLen]
    exact { h with charLen := legalOrKept_le h.charLen }
  | bbLen =>
    rw [writeTarget_bbLen]
    exact { h with bbLen := legalOrKept_le h.bbLen }
  | cwLen =>
    rw [writeTarget_cwLen]
    exact { h with cwLen := legalOrKept_le h.cwLen }
  | vrec0 | vrec1 | rsSrc | rsDst | greg => exact { h with }
  | element b i => exact { h with bufs := putCell_bufs_wf h.bufs (target_element_lt ht) _ }
  | id | result | errcmd | cmdcnt | matVer | syn | genram | reserved => exact h

theorem hostWrite_inv (size off : Nat) (v : Word) (h : Inv s) : Inv (hostWrite size off v s) := by
  unfold hostWrite
  split
  · exact { h with }
  · split
    · exact { h with }
    · exact { writeTarget_inv v off h with }

theorem hostRead_inv (size off : Nat) (h : Inv s) : Inv (hostRead size off s) := by
  obtain ⟨depthSeen, hbusy⟩ := afterBusyRead_eq s (target off)
  unfold hostRead
  rw [hbusy]
  split
  · exact { h with }
  · split <;> exact { h with }

theorem hardReset_inv (content : Buffers) (s : State) : Inv (hardReset content s) :=
  resetRegs_inv (canonBuffers_wf content) s

theorem inv_inputs (h : Inv s) (rest : List Input) : Inv { s with inputs := rest } := { h with }

end Sys2Proof.Machine
end

section

open Sys2Proof Sys2Proof.Machine

namespace Sys2Proof.Proofs

/-- Settles O47: every write of a plan is in range and every error has a code, so no agent's step leaves the
invariant. -/
theorem everyStepKeepsTheMachineInvariant : Obligations.EveryStepKeepsTheMachineInvariant := by
  intro s t h hstep
  rcases step_cases s t hstep with ⟨-, hturn⟩ | ⟨rest, -, hturn⟩ | ⟨size, off, rest, -, rfl⟩ |
    ⟨size, off, v, rest, -, rfl⟩ | ⟨content, rest, -, rfl⟩
  · exact executorTurn_inv h hturn
  · exact executorTurn_inv (inv_inputs h rest) hturn
  · exact hostRead_inv size off (inv_inputs h rest)
  · exact hostWrite_inv size off v (inv_inputs h rest)
  · exact hardReset_inv content _

/-- Settles O51: the access is not performed, whatever else holds. -/
theorem busErrorsChangeNothing : Obligations.BusErrorsChangeNothing := by
  intro s size off v rest hbad h
  have ha := accessOk_eq_false size off hbad
  refine ⟨?_, rfl⟩
  rcases h with h | h
  · exact step_read_busError s size off rest h ha
  · exact step_write_busError s size off v rest h ha

/-- Settles O54: what the offset names ignores writes, and a reserved offset reads 0. -/
theorem reservedOffsetsReadZeroAndIgnoreWrites : Obligations.ReservedOffsetsReadZeroAndIgnoreWrites := by
  intro s off v rest hb hword
  refine ⟨fun hoff h => ?_, fun hoff h => ?_⟩
  · have ha := accessOk_word off hword (by omega)
    have ht := target_reserved hoff
    rcases h with h | h
    · rw [step_read_idle s 4 off rest h ha hb, ht]; rfl
    · exact step_write_ignored s off v rest h ha hb (by rw [ht]; rfl)
  · have hlt : off < 0x80000 := by
      rcases hoff with hcsr | hview
      · exact (by decide : ∀ o ∈ [0x000, 0x010, 0x014, 0x018, 0x03C], o < 0x80000) off hcsr
      · omega
    exact step_write_ignored s off v rest h (accessOk_word off hword hlt) hb (ignoresWrites_target hword hoff)

/-- Settles O52: a read moves the model's own fields alone, and an idle one returns what its offset names. -/
theorem readsHaveNoSideEffect : Obligations.ReadsHaveNoSideEffect := by
  refine ⟨fun s size off rest h => ?_, fun s off rest h hb => ?_⟩
  · cases ha : accessOk size off with
    | false =>
      refine ⟨_, step_read_busError s size off rest h ha, rfl, fun _ => ?_⟩
      exact ⟨_, step_read_busError _ size off rest h ha, rfl⟩
    | true =>
      cases hb : s.busy with
      | false =>
        refine ⟨_, step_read_idle s size off rest h ha hb, rfl, fun _ => ?_⟩
        have hagain := readTarget_congr s s.inputs (.performed (readTarget s (target off))) (target off)
        exact ⟨_, step_read_idle _ size off rest h ha hb, congrArg BusResponse.performed hagain⟩
      | true =>
        obtain ⟨depthSeen, hread⟩ := afterBusyRead_eq { s with inputs := rest } (target off)
        refine ⟨_, step_read_busy s size off rest h ha hb, ?_, fun hidle => nomatch hidle⟩
        rw [hread]
  · have hread : ∀ n, accessOk 4 off = true → readTarget s (target off) = BitVec.ofNat 32 n →
        step s = .next { s with inputs := rest, bus := .performed (BitVec.ofNat 32 n) } := fun n ha hn => by
      rw [step_read_idle s 4 off rest h ha hb, hn]
    refine ⟨fun n hn => ?_, fun r hr => ?_, fun j hj => ?_, fun b i hi hoff => ?_⟩
    · obtain ⟨ha, hvalue⟩ := readTarget_of_mem_registerWords s _ hn
      exact hread n ha hvalue
    · exact step_read_greg r (hr ▸ h) hb
    · exact step_read_syn j (hj ▸ h) hb
    · exact step_read_element hi (hoff ▸ h) hb

/-- Settles O53: what the write stores the read returns, and storing one element keeps the others. -/
theorem writtenElementReadsBack : Obligations.WrittenElementReadsBack := by
  refine ⟨fun s b i v rest hi hb h => ?_, fun s r v rest hb h => ?_⟩
  · refine ⟨_, _, step_write_element hi h hb, step_read_element hi rfl hb, ?_, fun c k hne => ?_, rfl⟩
    · have hstored : (s.putCell b i (v.extractLsb' 0 8)).cell b i = v.extractLsb' 0 8 &&& bufMask b :=
        (cell_putCell s b b i i _).trans (if_pos ⟨rfl, rfl⟩)
      rw [← apply_ite (BitVec.ofNat 32), ← lowByte_and_bufMask_toNat, ← hstored]; rfl
    · exact (cell_putCell s b c i k _).trans (if_neg hne)
  · refine ⟨_, _, step_write_greg r h hb, step_read_greg r rfl hb, ?_, rfl⟩
    rw [show (s.g.set r (BitVec.ofNat 8 v.toNat))[r] = BitVec.ofNat 8 v.toNat from Vector.getElem_set_self _,
      BitVec.toNat_ofNat]

/-- Settles O55: the command in flight keeps the entries that are cached, and a generator is monic. -/
theorem genramShowsTheCachedCoefficients : Obligations.GenramShowsTheCachedCoefficients := by
  intro s d k rest hd hk h hbusy
  obtain ⟨t, hstep, hbus⟩ := step_read_genram hd hk h hbusy
  refine ⟨t, hstep, hbus, fun hcache hdepth hk0 => ?_⟩
  obtain ⟨r, hgen, -⟩ := generator_monic d
  have hcached := cachedGen_of_coherent ((cacheOk_iff_coherent s).1 hcache) hdepth
  rw [hbus, hk0, genramWord, if_pos ⟨hdepth, Nat.zero_le d⟩, hcached, hgen]; rfl

end Sys2Proof.Proofs
end

section
/-! SUPPORT. Decoding and encoding (30_encoding.md R80-R86). Each format of R81 is one equation between the operand
bits of a word and its fields, so that a word decodes to a command exactly when it has the command's opcode and
operand bits, which is to be the command's word. -/

namespace Sys2Proof

/-! ## The fields of a word -/

theorem slice_lt (w : Word) (hi lo : Nat) : slice w hi lo < 2 ^ (hi + 1 - lo) := Nat.mod_lt _ (Nat.two_pow_pos _)

theorem toNat_eq_opcode_add_operands (w : Word) : w.toNat = slice w 31 26 * 2 ^ 26 + slice w 25 0 := by
  have := w.isLt
  simp only [slice]
  omega

theorem regField_eq_iff (w : Word) (lo : Nat) (r : Fin 16) : regField w lo = r ↔ slice w (lo + 3) lo = r.val := by
  have h := slice_lt w (lo + 3) lo
  rw [show lo + 3 + 1 - lo = 4 by omega] at h
  simp only [← Fin.val_inj, regField, Fin.val_ofNat]
  omega

theorem maskField_eq_iff (w : Word) (m : Fin 8) : maskField w = m ↔ slice w 25 23 = m.val := by
  have h := slice_lt w 25 23
  simp only [← Fin.val_inj, maskField, Fin.val_ofNat]
  omega

theorem modeField_eq_iff (w : Word) (mode : EncMode) : modeField w = mode ↔ slice w 25 24 = mode.code := by
  have h := slice_lt w 25 24
  have hcases : slice w 25 24 = 0 ∨ slice w 25 24 = 1 ∨ slice w 25 24 = 2 ∨ slice w 25 24 = 3 := by omega
  obtain h0 | h1 | h2 | h3 := hcases
  all_goals cases mode <;> simp [modeField, EncMode.code, *]

/-! ## The formats: the operand bits that have the given fields (30_encoding.md R81) -/

theorem operands_R_iff (w : Word) (rd ra rb : Fin 16) :
    slice w 25 0 = rd.val * 2 ^ 22 + ra.val * 2 ^ 18 + rb.val * 2 ^ 14 ↔
      slice w 13 0 = 0 ∧ regField w 22 = rd ∧ regField w 18 = ra ∧ regField w 14 = rb := by
  simp only [regField_eq_iff, slice]
  omega

theorem operands_R1_iff (w : Word) (rd ra : Fin 16) :
    slice w 25 0 = rd.val * 2 ^ 22 + ra.val * 2 ^ 18 ↔
      slice w 17 0 = 0 ∧ regField w 22 = rd ∧ regField w 18 = ra := by
  simp only [regField_eq_iff, slice]
  omega

theorem operands_gfLi_iff (w : Word) (rd : Fin 16) (imm8 : Byte) :
    slice w 25 0 = rd.val * 2 ^ 22 + imm8.toNat * 2 ^ 14 ↔
      slice w 13 0 = 0 ∧ regField w 22 = rd ∧ BitVec.ofNat 8 (slice w 21 14) = imm8 := by
  simp only [regField_eq_iff, ← BitVec.toNat_inj, BitVec.toNat_ofNat, slice]
  omega

theorem operands_bbApp_iff (w : Word) (n : Nat) (imm16 : BitVec 16) :
    n < 32 ∧ slice w 25 0 = n * 2 ^ 21 + imm16.toNat ↔
      slice w 20 16 = 0 ∧ slice w 25 21 = n ∧ BitVec.ofNat 16 (slice w 15 0) = imm16 := by
  simp only [← BitVec.toNat_inj, BitVec.toNat_ofNat, slice]
  omega

theorem operands_bbAppr_iff (w : Word) (n : Nat) (ra : Fin 16) :
    n < 32 ∧ slice w 25 0 = n * 2 ^ 21 + ra.val * 2 ^ 17 ↔
      slice w 16 0 = 0 ∧ slice w 25 21 = n ∧ regField w 17 = ra := by
  simp only [regField_eq_iff, slice]
  omega

theorem operands_bbRd_iff (w : Word) (n pos : Nat) :
    (n < 32 ∧ pos < 32768) ∧ slice w 25 0 = n * 2 ^ 21 + pos ↔
      slice w 20 15 = 0 ∧ slice w 25 21 = n ∧ slice w 14 0 = pos := by
  simp only [slice]
  omega

theorem operands_rsGen_iff (w : Word) (d : Nat) :
    d < 32 ∧ slice w 25 0 = d * 2 ^ 13 ↔ (slice w 25 18 = 0 ∧ slice w 12 0 = 0) ∧ slice w 17 13 = d := by
  simp only [slice]
  omega

theorem operands_RE_iff (w : Word) (n e : Nat) :
    (n < 256 ∧ e < 32) ∧ slice w 25 0 = n * 2 ^ 18 + e * 2 ^ 13 ↔
      slice w 12 0 = 0 ∧ slice w 25 18 = n ∧ slice w 17 13 = e := by
  simp only [slice]
  omega

theorem operands_serHdr_iff (w : Word) (mode : EncMode) :
    slice w 25 0 = mode.code * 2 ^ 24 ↔ slice w 23 0 = 0 ∧ modeField w = mode := by
  simp only [modeField_eq_iff, slice]
  omega

theorem operands_PM_iff (w : Word) (m : Fin 8) :
    slice w 25 0 = m.val * 2 ^ 23 ↔ slice w 22 0 = 0 ∧ maskField w = m := by
  simp only [maskField_eq_iff, slice]
  omega

/-! ## Decoding -/

@[simp] theorem unlessReserved_eq_ok_iff {w : Word} {zeros : List (Nat × Nat)} {i j : Instr} :
    unlessReserved w zeros i = .ok j ↔ (∀ z ∈ zeros, slice w z.1 z.2 = 0) ∧ i = j := by
  unfold unlessReserved
  split <;> simp_all

/-- Every arm of the decoder answers a command of its own opcode (30_encoding.md R83). -/
theorem opcode_of_decode {w : Word} {i : Instr} (h : decode w = .ok i) : slice w 31 26 = i.opcode := by
  unfold decode at h
  split at h
  case h_25 => cases h -- no arm: an unassigned opcode
  all_goals
    obtain ⟨-, rfl⟩ := unlessReserved_eq_ok_iff.1 h
    assumption

/-- Under a command's opcode, the arm of its format compares the operand bits (`-Nat.reducePow` keeps the powers as the
formats write them). -/
theorem decode_eq_ok_iff_of_opcode {w : Word} {i : Instr} (h : slice w 31 26 = i.opcode) :
    decode w = .ok i ↔ i.wf = true ∧ slice w 25 0 = i.operandBits := by
  cases i with
  | nop | bbClr | serAln | serPad | blkEcc | blkWeave | plInit | plPlace =>
    simp [decode, h, Instr.opcode, decodeN, Instr.wf, Instr.operandBits]
  | gfLi rd imm8 =>
    simp [decode, h, Instr.opcode, Instr.wf, Instr.operandBits, -Nat.reducePow, operands_gfLi_iff]
  | gfAdd rd ra rb | gfMul rd ra rb | gfDiv rd ra rb =>
    simp [decode, h, Instr.opcode, decodeR, Instr.wf, Instr.operandBits, -Nat.reducePow, operands_R_iff]
  | gfInv rd ra | gfExp rd ra | gfLog rd ra =>
    simp [decode, h, Instr.opcode, decodeR1, Instr.wf, Instr.operandBits, -Nat.reducePow, operands_R1_iff]
  | bbApp n imm16 =>
    simp [decode, h, Instr.opcode, Instr.wf, Instr.operandBits, -Nat.reducePow, operands_bbApp_iff]
  | bbAppr n ra =>
    simp [decode, h, Instr.opcode, Instr.wf, Instr.operandBits, -Nat.reducePow, operands_bbAppr_iff]
  | bbRd n pos =>
    simp [decode, h, Instr.opcode, Instr.wf, Instr.operandBits, -Nat.reducePow, operands_bbRd_iff]
  | rsGen d =>
    simp [decode, h, Instr.opcode, Instr.wf, Instr.operandBits, -Nat.reducePow, operands_rsGen_iff]
  | rsEnc n e | rsSyn n e =>
    simp [decode, h, Instr.opcode, decodeRE, Instr.wf, Instr.operandBits, -Nat.reducePow, operands_RE_iff]
  | serHdr mode =>
    simp [decode, h, Instr.opcode, Instr.wf, Instr.operandBits, -Nat.reducePow, operands_serHdr_iff]
  | plMask m | plFmt m =>
    simp [decode, h, Instr.opcode, decodePM, Instr.wf, Instr.operandBits, -Nat.reducePow, operands_PM_iff]

/-- The per-instruction statements together. -/
theorem encode_opcode_and_operands_lt : (i : Instr) → Laws.EncodeOpcode.Statement i
  | .nop => Laws.EncodeOpcode.nop
  | .gfLi rd imm8 => Laws.EncodeOpcode.gfLi rd imm8
  | .gfAdd rd ra rb => Laws.EncodeOpcode.gfAdd rd ra rb
  | .gfMul rd ra rb => Laws.EncodeOpcode.gfMul rd ra rb
  | .gfDiv rd ra rb => Laws.EncodeOpcode.gfDiv rd ra rb
  | .gfInv rd ra => Laws.EncodeOpcode.gfInv rd ra
  | .gfExp rd ra => Laws.EncodeOpcode.gfExp rd ra
  | .gfLog rd ra => Laws.EncodeOpcode.gfLog rd ra
  | .bbClr => Laws.EncodeOpcode.bbClr
  | .bbApp n imm16 => Laws.EncodeOpcode.bbApp n imm16
  | .bbAppr n ra => Laws.EncodeOpcode.bbAppr n ra
  | .bbRd n pos => Laws.EncodeOpcode.bbRd n pos
  | .rsGen d => Laws.EncodeOpcode.rsGen d
  | .rsEnc n e => Laws.EncodeOpcode.rsEnc n e
  | .rsSyn n e => Laws.EncodeOpcode.rsSyn n e
  | .serHdr mode => Laws.EncodeOpcode.serHdr mode
  | .serAln => Laws.EncodeOpcode.serAln
  | .serPad => Laws.EncodeOpcode.serPad
  | .blkEcc => Laws.EncodeOpcode.blkEcc
  | .blkWeave => Laws.EncodeOpcode.blkWeave
  | .plInit => Laws.EncodeOpcode.plInit
  | .plPlace => Laws.EncodeOpcode.plPlace
  | .plMask m => Laws.EncodeOpcode.plMask m
  | .plFmt m => Laws.EncodeOpcode.plFmt m

/-- The word of a command is its opcode above its operands, and nothing else. -/
theorem encode_eq_iff {w : Word} {i : Instr} (hwf : i.wf = true) :
    encode i = w ↔ slice w 31 26 = i.opcode ∧ slice w 25 0 = i.operandBits := by
  have hop := Laws.EncodeOpcode.opcode_lt i
  obtain ⟨-, hlt⟩ := encode_opcode_and_operands_lt i hwf
  have hw := toNat_eq_opcode_add_operands w
  have hlow := slice_lt w 25 0
  rw [encode, ← BitVec.toNat_inj, BitVec.toNat_ofNat]
  omega

/-- A word decodes to the one command whose word it is (30_encoding.md R86). -/
theorem decode_eq_ok_iff {w : Word} {i : Instr} : decode w = .ok i ↔ i.wf = true ∧ encode i = w := by
  constructor
  · intro h
    have hop := opcode_of_decode h
    obtain ⟨hwf, hlow⟩ := (decode_eq_ok_iff_of_opcode hop).1 h
    exact ⟨hwf, (encode_eq_iff hwf).2 ⟨hop, hlow⟩⟩
  · rintro ⟨hwf, hw⟩
    obtain ⟨hop, hlow⟩ := (encode_eq_iff hwf).1 hw
    exact (decode_eq_ok_iff_of_opcode hop).2 ⟨hwf, hlow⟩

end Sys2Proof
end

section
/-! SUPPORT. The rows of the opcode table (30_encoding.md R83): a row's mask and match compare the opcode and the
reserved bits of its format, which are all that decoding checks. -/

namespace Sys2Proof

/-- Bits `hi` to `lo` of a word, all set. -/
def fieldMask (hi lo : Nat) : Word := BitVec.ofNat 32 ((2 ^ (hi + 1 - lo) - 1) * 2 ^ lo)

/-- The bits of the given fields, all set. -/
def fieldsMask : List (Nat × Nat) → Word
  | [] => 0
  | z :: zs => fieldMask z.1 z.2 ||| fieldsMask zs

/-- Masking keeps a field in its place. -/
theorem toNat_and_fieldMask (w : Word) (hi lo : Nat) : (w &&& fieldMask hi lo).toNat = slice w hi lo * 2 ^ lo := by
  refine Nat.eq_of_testBit_eq fun k => ?_
  have hw : ¬ k < 32 → w.toNat.testBit k = false := fun hk => BitVec.getLsbD_of_ge w k (by omega)
  simp only [fieldMask, slice, BitVec.toNat_and, BitVec.toNat_ofNat, Nat.testBit_and, Nat.testBit_mod_two_pow,
    Nat.testBit_mul_two_pow, Nat.testBit_two_pow_sub_one, Nat.testBit_div_two_pow]
  by_cases hlo : lo ≤ k
  · rw [Nat.sub_add_cancel hlo]
    by_cases hk : k < 32 <;> simp [*, Bool.and_comm]
  · simp [hlo]

theorem slice_eq_zero_iff (w : Word) (hi lo : Nat) : slice w hi lo = 0 ↔ w &&& fieldMask hi lo = 0 := by
  rw [← BitVec.toNat_inj, toNat_and_fieldMask]
  simp

theorem slices_eq_zero_iff (w : Word) (zeros : List (Nat × Nat)) :
    (∀ z ∈ zeros, slice w z.1 z.2 = 0) ↔ w &&& fieldsMask zeros = 0 := by
  induction zeros with
  | nil => simp [fieldsMask]
  | cons z zs ih =>
    rw [List.forall_mem_cons, ih, slice_eq_zero_iff, fieldsMask, BitVec.and_or_distrib_left]
    exact BitVec.or_eq_zero_iff.symm

theorem exists_unlessReserved_iff {w : Word} {zeros : List (Nat × Nat)} {i : Instr} {reserved : Word}
    (h : fieldsMask zeros = reserved) : (∃ j, unlessReserved w zeros i = .ok j) ↔ w &&& reserved = 0 := by
  simp only [unlessReserved_eq_ok_iff, slices_eq_zero_iff, h, exists_and_left, exists_eq', and_true]

/-- A row's mask covers the opcode and the reserved bits, so it selects a word by these two. -/
theorem selects_iff {r : OpRow} (hop : r.opcode < 64) (hres : r.reserved.toNat < 2 ^ 26) (w : Word) :
    r.selects w = true ↔ slice w 31 26 = r.opcode ∧ w &&& r.reserved = 0 := by
  have hlow : (w &&& r.reserved).toNat < 2 ^ 26 := (BitVec.toNat_and ..).trans_lt (Nat.and_lt_two_pow _ hres)
  have hmasked : (w &&& (0xFC000000 ||| r.reserved)).toNat = 2 ^ 26 * slice w 31 26 + (w &&& r.reserved).toNat := by
    rw [BitVec.and_or_distrib_left, BitVec.toNat_or, show (0xFC000000 : Word) = fieldMask 31 26 from rfl,
      toNat_and_fieldMask, Nat.mul_comm, Nat.two_pow_add_eq_or_of_lt hlow]
  have hzero : w &&& r.reserved = 0 ↔ (w &&& r.reserved).toNat = 0 := BitVec.toNat_inj.symm
  rw [OpRow.selects, beq_iff_eq, hzero, ← BitVec.toNat_inj, hmasked, BitVec.toNat_ofNat]
  omega

theorem opcodeMap_bounds : ∀ r ∈ opcodeMap, r.opcode < 64 ∧ r.reserved.toNat < 2 ^ 26 := by decide

theorem selects_iff_of_mem {r : OpRow} (hr : r ∈ opcodeMap) (w : Word) :
    r.selects w = true ↔ slice w 31 26 = r.opcode ∧ w &&& r.reserved = 0 :=
  selects_iff (opcodeMap_bounds r hr).1 (opcodeMap_bounds r hr).2 w

theorem opcodeMap_opcodes_nodup : (opcodeMap.map OpRow.opcode).Nodup := by decide

theorem exists_row_of_instr (i : Instr) : ∃ r ∈ opcodeMap, r.opcode = i.opcode :=
  List.mem_map.1 (by cases i <;> exact of_decide_eq_true rfl)

/-- Under a row's opcode, the arm of its command checks the bits that the row's mask reserves. -/
theorem exists_decode_iff_of_mem {r : OpRow} (hr : r ∈ opcodeMap) {w : Word} (hop : slice w 31 26 = r.opcode) :
    (∃ i, decode w = .ok i) ↔ w &&& r.reserved = 0 := by
  simp only [opcodeMap, List.cons_append, List.nil_append, List.mem_cons, List.not_mem_nil, or_false] at hr
  rcases hr with rfl | rfl | rfl | rfl | rfl | rfl | rfl | rfl | rfl | rfl | rfl | rfl | rfl | rfl | rfl | rfl | rfl |
    rfl | rfl | rfl | rfl | rfl | rfl | rfl
  all_goals
    rw [decode, hop]
    exact exists_unlessReserved_iff (by decide)

theorem exists_decode_iff_exists_row (w : Word) :
    (∃ i, decode w = .ok i) ↔ ∃ r ∈ opcodeMap, r.selects w = true := by
  constructor
  · rintro ⟨i, hi⟩
    obtain ⟨r, hr, hop⟩ := exists_row_of_instr i
    have hw : slice w 31 26 = r.opcode := (opcode_of_decode hi).trans hop.symm
    exact ⟨r, hr, (selects_iff_of_mem hr w).2 ⟨hw, (exists_decode_iff_of_mem hr hw).1 ⟨i, hi⟩⟩⟩
  · rintro ⟨r, hr, hsel⟩
    obtain ⟨hw, hres⟩ := (selects_iff_of_mem hr w).1 hsel
    exact (exists_decode_iff_of_mem hr hw).2 hres

theorem decode_error_of_no_row {w : Word} (h : ∀ r ∈ opcodeMap, r.selects w = false) :
    ∃ e, decode w = .error e := by
  cases hd : decode w with
  | error e => exact ⟨e, rfl⟩
  | ok i =>
    obtain ⟨r, hr, hsel⟩ := (exists_decode_iff_exists_row w).1 ⟨i, hd⟩
    simp [h r hr] at hsel

end Sys2Proof
end

section
/-! SUPPORT. The two ends of a command word: the CMD write that latches it, and the executor's turn that finds it does
not decode. -/

namespace Sys2Proof.Machine

/-- A word that is no command records ILLEGAL_COMMAND when it runs (30_encoding.md R84). -/
theorem executorTurn_of_decode_error {s : State} {w : Word} {e : DecodeError} (hpend : s.pend = some w)
    (hd : decode w = .error e) : executorTurn s = .next (erred s w .illegalCommand) := by
  simp only [executorTurn, hpend, hd]
  rw [raise_eq_erred _ s w hpend]

/-- A write to CMD is accepted when the core is idle and no error is recorded. -/
theorem step_write_cmd_accepted {s : State} {w : Word} {rest : List Input} (h : s.inputs = .write 4 0x00C w :: rest)
    (hpend : s.pend = none) (herr : s.err = false) :
    step s = .next { s with inputs := rest, bus := .performed 0, pend := some w, depthSeen := 0 } := by
  have hidle : s.busy = false := by rw [State.busy, hpend]; rfl
  rw [step_write_acts s 4 _ w rest h rfl (.inl hidle), show target 0x00C = .cmd from rfl]
  simp [writeTarget, offer, State.busy, hpend, herr]

end Sys2Proof.Machine
end

section

open Sys2Proof Sys2Proof.Machine

namespace Sys2Proof.Proofs

/-- Settles O2: both directions say that a word decodes to the one command whose word it is. -/
theorem decodingAndEncodingAreInverse : Obligations.DecodingAndEncodingAreInverse :=
  ⟨fun _ hwf => decode_eq_ok_iff.2 ⟨hwf, rfl⟩, fun _ _ h => decode_eq_ok_iff.1 h⟩

/-- Settles O3: a row selects by the opcode and the reserved bits that decoding checks, and no opcode has two rows. -/
theorem legalWordsAreTheTableRows : Obligations.LegalWordsAreTheTableRows := by
  intro w
  refine ⟨exists_decode_iff_exists_row w, fun r₁ h₁ r₂ h₂ hsel₁ hsel₂ => ?_⟩
  obtain ⟨hop₁, -⟩ := (selects_iff_of_mem h₁ w).1 hsel₁
  obtain ⟨hop₂, -⟩ := (selects_iff_of_mem h₂ w).1 hsel₂
  exact List.inj_on_of_nodup_map opcodeMap_opcodes_nodup h₁ h₂ (hop₁.symm.trans hop₂)

/-- Settles O4: the CMD write does not look at the word, and the executor's turn finds that it does not decode. -/
theorem illegalWordIsAcceptedThenRecorded : Obligations.IllegalWordIsAcceptedThenRecorded := by
  intro s w rest hw
  refine ⟨step_write_cmd_accepted, fun h hpend => ?_⟩
  obtain ⟨e, hd⟩ := decode_error_of_no_row hw
  rw [step_input s _ rest h]
  exact executorTurn_of_decode_error hpend hd

/-- Settles O1: each printed word is the word of its command. -/
theorem printedWordsDecode : Obligations.PrintedWordsDecode := by
  refine ⟨?_, ?_, ?_, ?_, ?_, ?_, ?_, ?_, ?_, ?_, ?_, ?_⟩
  all_goals exact decode_eq_ok_iff.2 ⟨rfl, rfl⟩

end Sys2Proof.Proofs
end

section
/-! SUPPORT. The field GF(256) (40_gf.md R100-R105). Multiplication by the primitive element, `xtime`, is additive and
has period 255 at 1; multiplication by a value with log x is x such steps, and the field laws are facts about
iterating `xtime`. -/

namespace Sys2Proof.Machine

/-! ## The logs -/

theorem glog_zero : glog 0 = none := (glog_eq_none 0).2 rfl

theorem glog_of_ne_zero {a : Byte} (ha : a ≠ 0) : glog a = some (logOf a) := by
  cases h : glog a with
  | none => exact absurd ((glog_eq_none a).1 h) ha
  | some x => rw [logOf, h, Option.getD_some]

theorem logOf_lt {a : Byte} (ha : a ≠ 0) : logOf a < 255 := glog_lt a _ (glog_of_ne_zero ha)

theorem alog_logOf {a : Byte} (ha : a ≠ 0) : alog (logOf a) = a := alog_glog a _ (glog_of_ne_zero ha)

/-! ## Multiplication by the primitive element -/

theorem xtime_zero : xtime 0 = 0 := rfl

theorem xtime_xor (a b : Byte) : xtime (a ^^^ b) = xtime a ^^^ xtime b := by
  unfold xtime
  rw [BitVec.getLsbD_xor, BitVec.shiftLeft_xor_distrib]
  cases a.getLsbD 7 <;> cases b.getLsbD 7
  · rfl
  · exact BitVec.xor_assoc ..
  · simp only [if_true, Bool.xor_false, Bool.false_eq_true, if_false]
    ac_rfl
  · have hcancel (x y k : Byte) : x ^^^ k ^^^ (y ^^^ k) = x ^^^ y := by
      rw [BitVec.xor_comm y k, BitVec.xor_assoc, ← BitVec.xor_assoc k k y, BitVec.xor_self, BitVec.zero_xor]
    exact (hcancel ..).symm

theorem xtime_iterate_xor (n : Nat) (a b : Byte) : xtime^[n] (a ^^^ b) = xtime^[n] a ^^^ xtime^[n] b :=
  Function.Semiconj₂.iterate xtime_xor n a b

theorem xtime_iterate_zero (n : Nat) : xtime^[n] 0 = 0 := Function.iterate_fixed xtime_zero n

/-- ALOG is a table of the powers of the primitive element (40_gf.md R100). -/
theorem alog_succ : ∀ i < 255, alog (i + 1) = xtime (alog i) := by decide +kernel

theorem alog_eq_iterate {x : Nat} (hx : x ≤ 255) : alog x = xtime^[x] 1 := by
  induction x with
  | zero => rfl
  | succ x ih => rw [alog_succ x hx, ih (Nat.le_of_succ_le hx), Function.iterate_succ_apply']

/-- The powers of the primitive element have period 255, so an exponent counts modulo 255. -/
theorem alog_mod (n : Nat) : alog (n % 255) = xtime^[n] 1 := by
  have hperiod : Function.IsPeriodicPt xtime 255 1 := (alog_eq_iterate (Nat.le_refl 255)).symm.trans alog_255
  rw [alog_eq_iterate (Nat.mod_lt n (by decide)).le, hperiod.iterate_mod_apply]

theorem iterate_logOf {a : Byte} (ha : a ≠ 0) : xtime^[logOf a] 1 = a := by
  rw [← alog_eq_iterate (logOf_lt ha).le, alog_logOf ha]

/-! ## Multiplication, division and inverse -/

/-- The product through the logs (40_gf.md R102). -/
theorem gmul_eq_ite (a b : Byte) :
    gmul a b = if a = 0 ∨ b = 0 then 0 else alog ((logOf a + logOf b) % 255) := by
  rcases eq_or_ne a 0 with rfl | ha
  · rw [gmul_zero_left, if_pos (.inl rfl)]
  rcases eq_or_ne b 0 with rfl | hb
  · rw [gmul_zero_right, if_pos (.inr rfl)]
  rw [if_neg (not_or.2 ⟨ha, hb⟩), gmul_of_logs a b _ _ (glog_of_ne_zero ha) (glog_of_ne_zero hb)]

/-- Multiplying by a value with log x is multiplying x times by the primitive element. -/
theorem gmul_eq_iterate {a : Byte} (ha : a ≠ 0) (b : Byte) : gmul a b = xtime^[logOf a] b := by
  rcases eq_or_ne b 0 with rfl | hb
  · rw [gmul_zero_right, xtime_iterate_zero]
  rw [gmul_of_logs a b _ _ (glog_of_ne_zero ha) (glog_of_ne_zero hb), alog_mod, Function.iterate_add_apply,
    iterate_logOf hb]

theorem gmul_alog_mod {a : Byte} (ha : a ≠ 0) (n : Nat) : gmul a (alog (n % 255)) = alog ((logOf a + n) % 255) := by
  rw [gmul_eq_iterate ha, alog_mod, alog_mod, Function.iterate_add_apply]

theorem gmul_assoc (a b c : Byte) : gmul (gmul a b) c = gmul a (gmul b c) := by
  rcases eq_or_ne a 0 with rfl | ha
  · simp only [gmul_zero_left]
  rcases eq_or_ne c 0 with rfl | hc
  · simp only [gmul_zero_right]
  calc gmul (gmul a b) c
      = xtime^[logOf c] (xtime^[logOf a] b) := by rw [gmul_comm, gmul_eq_iterate hc, gmul_eq_iterate ha]
    _ = xtime^[logOf a] (xtime^[logOf c] b) := Function.Commute.iterate_iterate_self xtime _ _ b
    _ = gmul a (gmul b c) := by rw [gmul_comm b c, gmul_eq_iterate hc, gmul_eq_iterate ha]

theorem gmul_gadd (a b c : Byte) : gmul a (gadd b c) = gadd (gmul a b) (gmul a c) := by
  rcases eq_or_ne a 0 with rfl | ha
  · simp only [gmul_zero_left, gadd_self]
  simp only [gmul_eq_iterate ha]
  exact xtime_iterate_xor _ b c

theorem gdiv_zero_right (a : Byte) : gdiv a 0 = .error .divisionByZero := by simp only [gdiv, glog_zero]

/-- The quotient through the logs, the difference kept from being negative (40_gf.md R103). -/
theorem gdiv_of_ne_zero (a : Byte) {b : Byte} (hb : b ≠ 0) :
    gdiv a b = .ok (if a = 0 then 0 else alog ((logOf a + 255 - logOf b) % 255)) := by
  by_cases ha : a = 0
  · simp only [ha, gdiv, glog_of_ne_zero hb, glog_zero, if_true]
  · simp only [ha, gdiv, glog_of_ne_zero hb, glog_of_ne_zero ha, if_false]

theorem ginv_zero : ginv 0 = .error .divisionByZero := by simp only [ginv, glog_zero]

theorem ginv_of_ne_zero {a : Byte} (ha : a ≠ 0) : ginv a = .ok (alog (255 - logOf a)) := by
  simp only [ginv, glog_of_ne_zero ha]

theorem gmul_quotient (a : Byte) {b : Byte} (hb : b ≠ 0) :
    gmul (if a = 0 then 0 else alog ((logOf a + 255 - logOf b) % 255)) b = a := by
  split
  · next ha => rw [gmul_zero_left, ha]
  · next ha =>
    have hlog : logOf b + (logOf a + 255 - logOf b) = logOf a + 255 := by have := logOf_lt hb; omega
    rw [gmul_comm, gmul_alog_mod hb, hlog, Nat.add_mod_right, Nat.mod_eq_of_lt (logOf_lt ha), alog_logOf ha]

theorem gmul_inverse {a : Byte} (ha : a ≠ 0) : gmul a (alog (255 - logOf a)) = 1 := by
  rw [gmul_eq_iterate ha, alog_eq_iterate (Nat.sub_le ..), ← Function.iterate_add_apply,
    Nat.add_sub_of_le (logOf_lt ha).le, ← alog_eq_iterate (Nat.le_refl 255), alog_255]

/-! ## The polynomial product -/

theorem shiftAndAdd_zero_left (b : Byte) (n : Nat) : shiftAndAdd 0 b n = 0 := by
  induction n with
  | zero => rfl
  | succ n ih => rw [shiftAndAdd, ih, xtime_iterate_zero, ite_self]; exact gadd_self 0

theorem shiftAndAdd_xtime (b : Byte) (n : Nat) :
    Function.Semiconj (fun a => shiftAndAdd a b n) xtime xtime := by
  intro a
  induction n with
  | zero => exact xtime_zero.symm
  | succ n ih =>
    simp only [shiftAndAdd, ih, xtime_xor, apply_ite xtime, xtime_zero, ← Function.iterate_succ_apply,
      Function.iterate_succ_apply']

/-- The powers of the primitive element below 8 are the single bits, so each bit of `b` adds itself. -/
theorem shiftAndAdd_one (b : Byte) : shiftAndAdd 1 b 8 = b := by
  have key : ∀ b : Byte, shiftAndAdd 1 b 8 = b := by decide +kernel
  exact key b

/-- The polynomial product is the table product (40_gf.md R100, R102): both multiply log times by the primitive
element. -/
theorem gmul_eq_shiftAndAdd (a b : Byte) : gmul a b = shiftAndAdd a b 8 := by
  rcases eq_or_ne a 0 with rfl | ha
  · rw [gmul_zero_left, shiftAndAdd_zero_left]
  calc gmul a b
      = xtime^[logOf a] (shiftAndAdd 1 b 8) := by rw [gmul_eq_iterate ha, shiftAndAdd_one]
    _ = shiftAndAdd (xtime^[logOf a] 1) b 8 := ((shiftAndAdd_xtime b 8).iterate_right _ 1).symm
    _ = shiftAndAdd a b 8 := by rw [iterate_logOf ha]

end Sys2Proof.Machine
end

section
/-! SUPPORT. What the statements of the commands share: a word of an opcode whose arm checks the reserved bits, and
a command that writes one element register. -/

namespace Sys2Proof.Machine

theorem unlessReserved_of_ne_zero {w : Word} {zeros : List (Nat × Nat)} (i : Instr)
    (h : ∃ z ∈ zeros, slice w z.1 z.2 ≠ 0) : unlessReserved w zeros i = .error .reservedBits := by
  obtain ⟨z, hz, hne⟩ := h
  refine if_neg fun hall => hne ?_
  exact beq_iff_eq.1 (List.all_eq_true.1 hall z hz)

/-- An opcode decodes as its arm says: the command when the reserved bits are 0, and else ILLEGAL_COMMAND. -/
theorem decodesAs_of_arm {op : Nat} {zeros : List (Nat × Nat)} {read : Word → Instr}
    (harm : ∀ w, slice w 31 26 = op → decode w = unlessReserved w zeros (read w)) : DecodesAs op zeros read := by
  intro w hop
  rw [harm w hop]
  refine ⟨fun hzero => unlessReserved_eq_ok_iff.2 ⟨hzero, rfl⟩, fun hne s hpend => ?_⟩
  exact executorTurn_of_decode_error hpend ((harm w hop).trans (unlessReserved_of_ne_zero _ hne))

/-- A command whose plan is one write to an element register changes that register and the command cycle. -/
theorem exec_of_plan_greg {i : Instr} {s : State} {rd : Fin 16} {v : Byte} (h : plan i s = .ok [.greg rd v]) :
    exec i s = .next { commandCycle s with g := s.g.set rd v } := exec_of_plan_ok i s _ h

/-! ## The plans of the GF commands that can raise (40_gf.md R109, R110, R112) -/

variable {s : State} {rd ra rb : Fin 16}

theorem plan_gfDiv_zero (h : s.g[rb] = 0) : plan (.gfDiv rd ra rb) s = .error .divisionByZero := by
  show (gdiv s.g[ra] s.g[rb]).map _ = _
  rw [h, gdiv_zero_right]; rfl

theorem plan_gfDiv_of_ne_zero (h : s.g[rb] ≠ 0) : plan (.gfDiv rd ra rb) s =
    .ok [.greg rd (if s.g[ra] = 0 then 0 else alog ((logOf s.g[ra] + 255 - logOf s.g[rb]) % 255))] := by
  show (gdiv s.g[ra] s.g[rb]).map _ = _
  rw [gdiv_of_ne_zero _ h]; rfl

theorem plan_gfInv_zero (h : s.g[ra] = 0) : plan (.gfInv rd ra) s = .error .divisionByZero := by
  show (ginv s.g[ra]).map _ = _
  rw [h, ginv_zero]; rfl

theorem plan_gfInv_of_ne_zero (h : s.g[ra] ≠ 0) :
    plan (.gfInv rd ra) s = .ok [.greg rd (alog (255 - logOf s.g[ra]))] := by
  show (ginv s.g[ra]).map _ = _
  rw [ginv_of_ne_zero h]; rfl

theorem plan_gfLog_zero (h : s.g[ra] = 0) : plan (.gfLog rd ra) s = .error .logOfZero := by
  have hlog : glog (s.reg ra) = none := (glog_eq_none _).2 h
  simp only [plan, planGfLog, hlog]

theorem plan_gfLog_of_ne_zero (h : s.g[ra] ≠ 0) :
    plan (.gfLog rd ra) s = .ok [.greg rd (BitVec.ofNat 8 (logOf s.g[ra]))] := by
  have hlog : glog (s.reg ra) = some (logOf s.g[ra]) := glog_of_ne_zero h
  simp only [plan, planGfLog, hlog]

/-- The remainder the model computes is the non-negative remainder of the difference (40_gf.md R103). -/
theorem log_difference_mod {x y : Nat} (hy : y < 255) : (((x : Int) - y) % 255).toNat = (x + 255 - y) % 255 := by
  omega

end Sys2Proof.Machine
end

section

open Sys2Proof Sys2Proof.Machine

namespace Sys2Proof.Proofs

/-- Settles O11: a product by a value with log x is x multiplications by the primitive element, which are additive
and commute with each other. -/
theorem fieldLaws : Obligations.FieldLaws :=
  ⟨gmul_comm, gmul_assoc, gmul_gadd, gmul_one_right, fun a _ hb => ⟨_, gdiv_of_ne_zero a hb, gmul_quotient a hb⟩,
    fun _ ha => ⟨_, ginv_of_ne_zero ha, gmul_inverse ha⟩⟩

/-- Settles O9: the ROMs satisfy the recurrence and invert each other entry by entry. -/
theorem fieldTablesSatisfyTheirDefinition : Obligations.FieldTablesSatisfyTheirDefinition :=
  ⟨rfl, alog_succ, glog_alog, glog_zero⟩

/-- Settles O10: both products multiply log a times by the primitive element. -/
theorem fieldProductIsPolynomialProduct : Obligations.FieldProductIsPolynomialProduct := gmul_eq_shiftAndAdd

/-- Settles O12: its plan is the one write of the immediate. -/
theorem gfLiWritesTheImmediate : Obligations.GfLiWritesTheImmediate :=
  ⟨decodesAs_of_arm fun w h => by rw [decode, h]; rfl, fun _ _ _ => exec_of_plan_greg rfl⟩

/-- Settles O13: its plan is one write, of a value read from the state it starts in. -/
theorem gfAddWritesTheExclusiveOr : Obligations.GfAddWritesTheExclusiveOr :=
  ⟨decodesAs_of_arm fun w h => by rw [decode, h]; rfl, fun _ _ _ _ => exec_of_plan_greg rfl⟩

/-- Settles O14: its plan writes the table product, here through the logs. -/
theorem gfMulWritesTheProduct : Obligations.GfMulWritesTheProduct := by
  refine ⟨decodesAs_of_arm fun w h => by rw [decode, h]; rfl, fun rd ra rb s => ?_⟩
  rw [← gmul_eq_ite]
  exact exec_of_plan_greg rfl

/-- Settles O15: the divisor is tested first, and the difference of the logs is taken modulo 255. -/
theorem gfDivWritesTheQuotientOrRaises : Obligations.GfDivWritesTheQuotientOrRaises := by
  refine ⟨decodesAs_of_arm fun w h => by rw [decode, h]; rfl, fun rd ra rb s => ⟨fun hb => ?_, fun hb => ?_⟩⟩
  · exact raises_of_plan_error _ s _ (plan_gfDiv_zero hb)
  · rw [log_difference_mod (logOf_lt hb)]
    exact exec_of_plan_greg (plan_gfDiv_of_ne_zero hb)

/-- Settles O16: 0 has no log, and every other value's inverse has the complementary log. -/
theorem gfInvWritesTheInverseOrRaises : Obligations.GfInvWritesTheInverseOrRaises :=
  ⟨decodesAs_of_arm fun w h => by rw [decode, h]; rfl, fun _ _ s =>
    ⟨fun ha => raises_of_plan_error _ s _ (plan_gfInv_zero ha),
      fun ha => exec_of_plan_greg (plan_gfInv_of_ne_zero ha)⟩⟩

/-- Settles O17: its plan is the one write of the antilog. -/
theorem gfExpWritesTheAntilog : Obligations.GfExpWritesTheAntilog :=
  ⟨decodesAs_of_arm fun w h => by rw [decode, h]; rfl, fun _ _ _ => exec_of_plan_greg rfl⟩

/-- Settles O18: 0 has no log, and the plan writes every other value's log. -/
theorem gfLogWritesTheLogOrRaises : Obligations.GfLogWritesTheLogOrRaises :=
  ⟨decodesAs_of_arm fun w h => by rw [decode, h]; rfl, fun _ _ s =>
    ⟨fun ha => raises_of_plan_error _ s _ (plan_gfLog_zero ha),
      fun ha => exec_of_plan_greg (plan_gfLog_of_ne_zero ha)⟩⟩

end Sys2Proof.Proofs
end

section
/-! SUPPORT. The value of a polynomial at a point by Horner's rule (41_rs.md R131), and what the operations on
polynomials do to it. A generator is 0 at each of its roots, division by it keeps the value there, and so a block with
its remainder appended is 0 there too (41_rs.md R125, R127). -/

namespace Sys2Proof.Machine

/-- Horner's rule at the point `x`, from the value `acc` on (41_rs.md R131). -/
def horner (x acc : Byte) (p : List Byte) : Byte := p.foldl (fun a v => gadd (gmul a x) v) acc

theorem syndrome_eq_horner (p : List Byte) (j : Nat) : syndrome p j = horner (alog j) 0 p := rfl

@[simp] theorem horner_nil (x acc : Byte) : horner x acc [] = acc := rfl

@[simp] theorem horner_cons (x acc v : Byte) (p : List Byte) :
    horner x acc (v :: p) = horner x (gadd (gmul acc x) v) p := rfl

theorem horner_append (x acc : Byte) (p q : List Byte) : horner x acc (p ++ q) = horner x (horner x acc p) q :=
  List.foldl_append

@[simp] theorem gadd_zero_right (a : Byte) : gadd a 0 = a := BitVec.xor_zero

@[simp] theorem gadd_zero_left (a : Byte) : gadd 0 a = a := BitVec.zero_xor

theorem gmul_gadd_left (a b c : Byte) : gmul (gadd a b) c = gadd (gmul a c) (gmul b c) := by
  rw [gmul_comm, gmul_gadd, gmul_comm c a, gmul_comm c b]

theorem gadd_gadd_gadd_comm (a b c d : Byte) : gadd (gadd a b) (gadd c d) = gadd (gadd a c) (gadd b d) := by
  unfold gadd
  ac_rfl

/-! ## Linearity -/

theorem horner_zipWith_gadd (x a b : Byte) {p q : List Byte} (h : p.length = q.length) :
    horner x (gadd a b) (List.zipWith gadd p q) = gadd (horner x a p) (horner x b q) := by
  induction p generalizing q a b with
  | nil => obtain rfl := List.length_eq_zero_iff.1 h.symm; rfl
  | cons v p ih =>
    obtain ⟨w, q, rfl⟩ := List.exists_cons_of_length_eq_add_one h.symm
    rw [List.zipWith_cons_cons, horner_cons, gmul_gadd_left, gadd_gadd_gadd_comm, ih _ _ (Nat.succ.inj h)]
    rfl

theorem horner_map_gmul (x acc c : Byte) (p : List Byte) :
    horner x (gmul acc c) (p.map (fun v => gmul v c)) = gmul (horner x acc p) c := by
  induction p generalizing acc with
  | nil => rfl
  | cons v p ih =>
    have hstep : gadd (gmul (gmul acc c) x) (gmul v c) = gmul (gadd (gmul acc x) v) c := by
      rw [gmul_gadd_left, gmul_assoc, gmul_assoc, gmul_comm c x]
    rw [List.map_cons, horner_cons, hstep, ih, horner_cons]

theorem horner_zero_map_gmul (x c : Byte) (p : List Byte) :
    horner x 0 (p.map (fun v => gmul v c)) = gmul (horner x 0 p) c := by
  rw [← horner_map_gmul, gmul_zero_left]

/-! ## The operations on polynomials -/

theorem horner_zero_cons (x : Byte) (p : List Byte) : horner x 0 (0 :: p) = horner x 0 p := by
  rw [horner_cons, gmul_zero_left, gadd_zero_left]

/-- Zeros in front leave the value. -/
theorem horner_replicate_zero_append (x : Byte) (n : Nat) (p : List Byte) :
    horner x 0 (List.replicate n 0 ++ p) = horner x 0 p := by
  induction n with
  | zero => rfl
  | succ n ih => rw [List.replicate_succ, List.cons_append, horner_zero_cons, ih]

theorem horner_replicate_zero (x : Byte) (n : Nat) : horner x 0 (List.replicate n 0) = 0 := by
  simpa using horner_replicate_zero_append x n []

theorem horner_norm (x : Byte) (p : List Byte) : horner x 0 (norm p) = horner x 0 p := by
  induction p with
  | nil => exact horner_zero_cons x []
  | cons a r ih =>
    by_cases ha : a = 0
    · rw [ha, norm_zero_cons, ih, horner_zero_cons]
    · rw [norm_cons_of_ne_zero ha]

theorem horner_padTo (x : Byte) (n : Nat) (p : List Byte) : horner x 0 (padTo n p) = horner x 0 p :=
  horner_replicate_zero_append x _ p

theorem horner_padd (x : Byte) (p q : List Byte) :
    horner x 0 (padd p q) = gadd (horner x 0 p) (horner x 0 q) := by
  have hlen : (padTo (max p.length q.length) p).length = (padTo (max p.length q.length) q).length :=
    (padTo_length (Nat.le_max_left ..)).trans (padTo_length (Nat.le_max_right ..)).symm
  have hsum := horner_zipWith_gadd x 0 0 hlen
  rw [gadd_self, horner_padTo, horner_padTo] at hsum
  rw [padd, horner_norm, hsum]

/-- Multiples of a polynomial are 0 wherever it is 0. -/
theorem horner_pmulmono_of_root {x : Byte} {p : List Byte} (h : horner x 0 p = 0) (k : Nat) (c : Byte) :
    horner x 0 (pmulmono p k c) = 0 := by
  unfold pmulmono
  split
  · exact horner_zero_cons x []
  · rw [horner_norm, horner_append, horner_zero_map_gmul, h, gmul_zero_left, horner_replicate_zero]

/-- Division by a polynomial keeps the value at its roots (41_rs.md R124). -/
theorem horner_pdivLoop_of_root {x : Byte} {d : List Byte} (h : horner x 0 d = 0) (t : Byte) (fuel : Nat)
    (q r : List Byte) : horner x 0 (pdivLoop d t fuel q r).2 = horner x 0 r := by
  induction fuel generalizing q r with
  | zero => rfl
  | succ fuel ih =>
    unfold pdivLoop
    split
    · rfl
    · rw [ih, horner_padd, horner_pmulmono_of_root h, gadd_zero_right]

theorem horner_pdivrem_of_root {x : Byte} {p d q r : List Byte} (h : horner x 0 d = 0)
    (hdiv : pdivrem p d = .ok (q, r)) : horner x 0 r = horner x 0 p := by
  unfold pdivrem at hdiv
  split at hdiv
  · cases hdiv
  · obtain ⟨-, rfl⟩ := Prod.mk.inj (Except.ok.inj hdiv)
    rw [horner_pdivLoop_of_root ((horner_norm x d).trans h), horner_norm]

/-! ## The roots of a generator -/

theorem foldl_gadd_zero (n : Nat) {f : Nat → Byte} (h : ∀ i < n, f i = 0) :
    (List.range n).foldl (fun acc i => gadd acc (f i)) 0 = 0 := by
  induction n with
  | zero => rfl
  | succ n ih =>
    rw [List.range_succ, List.foldl_append, ih fun i hi => h i (Nat.lt_succ_of_lt hi), List.foldl_cons,
      h n n.lt_succ_self, gadd_self, List.foldl_nil]

theorem convCoeff_linear_zero (p : List Byte) (c : Byte) : convCoeff p [1, c] 0 = p.getD 0 0 :=
  (gadd_zero_left _).trans (gmul_one_right _)

/-- A coefficient of the product with x + c: the one below moves up, and the one at its place is multiplied by c. -/
theorem convCoeff_linear_succ (p : List Byte) (c : Byte) (k : Nat) :
    convCoeff p [1, c] (k + 1) = gadd (p.getD (k + 1) 0) (gmul (p.getD k 0) c) := by
  have hlow : ∀ i < k, gmul (p.getD i 0) (([1, c] : List Byte).getD (k + 1 - i) 0) = 0 := fun i hi => by
    have hpast : ([1, c] : List Byte).length ≤ k + 1 - i := by
      show 2 ≤ k + 1 - i
      omega
    rw [List.getD_eq_default _ _ hpast, gmul_zero_right]
  rw [convCoeff, List.range_succ, List.range_succ, List.foldl_append, List.foldl_append, foldl_gadd_zero k hlow]
  simp only [List.foldl_cons, List.foldl_nil, Nat.sub_self, Nat.add_sub_cancel_left, List.getD_cons_zero,
    List.getD_cons_succ, gadd_zero_left, gmul_one_right]
  exact BitVec.xor_comm ..

/-- The product with x + c is the polynomial moved up by one place plus c times the polynomial (41_rs.md R123). -/
theorem pmul_linear (p : List Byte) (c : Byte) :
    pmul p [1, c] = norm (List.zipWith gadd (p ++ [0]) (0 :: p.map (fun v => gmul v c))) := by
  refine congrArg norm (List.ext_getElem (by simp) fun k hk _ => ?_)
  have hkp : k ≤ p.length := by simpa [Nat.lt_succ_iff] using hk
  have hmoved : (p ++ [0])[k]'(by simpa using Nat.lt_succ_of_le hkp) = p.getD k 0 := by
    rcases Nat.lt_or_eq_of_le hkp with hlt | rfl
    · rw [List.getElem_append_left hlt, List.getD_eq_getElem p 0 hlt]
    · rw [List.getElem_concat_length rfl, List.getD_eq_default _ _ (Nat.le_refl _)]
  rw [List.getElem_map, List.getElem_range, List.getElem_zipWith, hmoved]
  cases k with
  | zero => rw [convCoeff_linear_zero]; exact (gadd_zero_right _).symm
  | succ k =>
    rw [convCoeff_linear_succ, List.getElem_cons_succ, List.getElem_map, List.getD_eq_getElem p 0 hkp]

theorem horner_pmul_linear (x : Byte) (p : List Byte) (c : Byte) :
    horner x 0 (pmul p [1, c]) = gmul (horner x 0 p) (gadd x c) := by
  have hsum := horner_zipWith_gadd x 0 0 (p := p ++ [0]) (q := 0 :: p.map (fun v => gmul v c)) (by simp)
  rw [pmul_linear, horner_norm]
  calc horner x 0 (List.zipWith gadd (p ++ [0]) (0 :: p.map (fun v => gmul v c)))
      = gadd (horner x 0 (p ++ [0])) (horner x 0 (0 :: p.map (fun v => gmul v c))) := hsum
    _ = gadd (gmul (horner x 0 p) x) (gmul (horner x 0 p) c) := by
        rw [horner_append, horner_zero_cons, horner_zero_map_gmul, horner_cons, horner_nil, gadd_zero_right]
    _ = gmul (horner x 0 p) (gadd x c) := (gmul_gadd ..).symm

/-- The generator of degree e has the roots 1, α, …, α^(e-1) (41_rs.md R125). -/
theorem horner_generator {j e : Nat} (h : j < e) : horner (alog j) 0 (generator e) = 0 := by
  induction e with
  | zero => cases h
  | succ e ih =>
    rw [generator, horner_pmul_linear]
    rcases Nat.lt_succ_iff_lt_or_eq.1 h with hlt | rfl
    · rw [ih hlt, gmul_zero_left]
    · rw [gadd_self, gmul_zero_right]

/-! ## The code word of a block -/

/-- The dividend of `rs_ecc` is the data moved up by e places (41_rs.md R127). -/
theorem horner_pmulmono_norm_one (x : Byte) (data : List Byte) (e : Nat) :
    horner x 0 (pmulmono (norm data) e 1) = horner x 0 (data ++ List.replicate e 0) := by
  rw [pmulmono, if_neg (by decide), horner_norm, horner_append, horner_append, horner_zero_map_gmul, gmul_one_right,
    horner_norm]

/-- At a root of the generator the ECC bytes have the value of the data moved up by e places (41_rs.md R127). -/
theorem horner_rsEcc {x : Byte} {data gen ecc : List Byte} {e : Nat} (hroot : horner x 0 gen = 0)
    (hecc : rsEcc data e gen = .ok ecc) : horner x 0 ecc = horner x 0 (data ++ List.replicate e 0) := by
  cases hdiv : pdivrem (pmulmono (norm data) e 1) gen with
  | error err => rw [rsEcc, hdiv] at hecc; cases hecc
  | ok qr =>
    rw [rsEcc, hdiv] at hecc
    obtain rfl := Except.ok.inj hecc
    rw [horner_padTo, horner_pdivrem_of_root hroot hdiv, horner_pmulmono_norm_one]

/-- A block with its ECC bytes appended is 0 at every root of the generator. -/
theorem horner_codeword {x : Byte} {data gen ecc : List Byte} {e : Nat} (hroot : horner x 0 gen = 0)
    (hecc : rsEcc data e gen = .ok ecc) (hlen : ecc.length = e) : horner x 0 (data ++ ecc) = 0 := by
  have hsum := horner_zipWith_gadd x (horner x 0 data) 0 (p := List.replicate e 0) (q := ecc) (by simp [hlen])
  have hzip : List.zipWith gadd (List.replicate e 0) ecc = ecc := by
    subst hlen
    exact List.ext_getElem (by simp) fun k _ _ => by
      rw [List.getElem_zipWith, List.getElem_replicate, gadd_zero_left]
  rw [hzip, gadd_zero_right] at hsum
  rw [horner_append, hsum, horner_rsEcc hroot hecc, horner_append, gadd_self]

/-- The syndromes of an encoded block are 0 (41_rs.md R127, R131). -/
theorem syndrome_codeword {data ecc : List Byte} {e j : Nat} (hecc : rsEcc data e (generator e) = .ok ecc)
    (hlen : ecc.length = e) (hj : j < e) : syndrome (data ++ ecc) j = 0 :=
  horner_codeword (horner_generator hj) hecc hlen

/-! ## The power sum -/

theorem gmul_alog_mod_alog (m : Nat) {j : Nat} (hj : j < 255) :
    gmul (alog (m % 255)) (alog j) = alog ((j + m) % 255) := by
  have hlog : logOf (alog j) = j := by rw [logOf, glog_alog j hj, Option.getD_some]
  rw [gmul_comm, gmul_alog_mod (alog_ne_zero j (Nat.lt_succ_of_lt hj)), hlog]

/-- The k-th term of the power sum (41_rs.md R131). -/
def powerTerm (c : List Byte) (j k : Nat) : Byte := gmul (c.getD k 0) (alog (j * (c.length - 1 - k) % 255))

/-- One more coefficient behind: each earlier term has one more factor α^j. -/
theorem powerTerm_append_of_lt (c : List Byte) (v : Byte) {j k : Nat} (hj : j < 255) (hk : k < c.length) :
    powerTerm (c ++ [v]) j k = gmul (powerTerm c j k) (alog j) := by
  have hlen : (c ++ [v]).length - 1 - k = c.length - 1 - k + 1 := by
    rw [List.length_append, List.length_singleton]; omega
  rw [powerTerm, powerTerm, gmul_assoc, gmul_alog_mod_alog _ hj, hlen, List.getD_append _ _ _ _ hk, Nat.mul_succ,
    Nat.add_comm]

theorem powerTerm_append_length (c : List Byte) (v : Byte) (j : Nat) : powerTerm (c ++ [v]) j c.length = v := by
  rw [powerTerm, List.length_append, List.length_singleton, Nat.add_sub_cancel, Nat.sub_self, Nat.mul_zero,
    List.getD_append_right _ _ _ _ (Nat.le_refl _), Nat.sub_self]
  exact gmul_one_right v

/-- Horner's rule gives the sum of the terms (41_rs.md R131). -/
theorem syndrome_eq_powerSum (c : List Byte) {j : Nat} (hj : j < 255) :
    syndrome c j = (List.range c.length).foldl (fun acc k => gadd acc (powerTerm c j k)) 0 := by
  induction c using List.reverseRecOn with
  | nil => rfl
  | append_singleton c v ih =>
    have hshift : (List.range c.length).foldl (fun acc k => gadd acc (powerTerm (c ++ [v]) j k)) 0 =
        gmul (syndrome c j) (alog j) := by
      rw [ih, ← List.foldl_hom (fun a => gmul a (alog j))
        (g₂ := fun acc k => gadd acc (gmul (powerTerm c j k) (alog j))) fun a k => (gmul_gadd_left ..).symm,
        gmul_zero_left]
      exact List.foldl_ext _ _ _ fun acc k hk =>
        congrArg (gadd acc) (powerTerm_append_of_lt c v hj (List.mem_range.1 hk))
    rw [List.length_append, List.length_singleton, List.range_succ, List.foldl_append, hshift, List.foldl_cons,
      List.foldl_nil, powerTerm_append_length, syndrome_eq_horner, horner_append]
    rfl

end Sys2Proof.Machine
end

section
/-! SUPPORT. The operand checks of the RS commands, and the states that their writes leave (41_rs.md R126-R132). -/

namespace Sys2Proof.Machine

/-! ## The operand checks -/

section

variable {n e : Nat} {s : State}

theorem rsCheck_of_degree (h : e < 1 ∨ 30 < e) : rsCheck n e s = some .invalidGeneratorDegree := if_pos h

theorem rsCheck_of_length (he : 1 ≤ e) (he30 : e ≤ 30)
    (h : n = 0 ∨ 4096 < s.rsSrc.toNat + n ∨ 4096 < s.rsDst.toNat + e) : rsCheck n e s = some .invalidLength := by
  rw [rsCheck, if_neg (by omega)]
  split_ifs
  · rfl
  · rfl
  · rfl
  · omega

theorem rsCheck_eq_none (he : 1 ≤ e) (he30 : e ≤ 30) (hn : n ≠ 0) (hsrc : s.rsSrc.toNat + n ≤ 4096)
    (hdst : s.rsDst.toNat + e ≤ 4096) : rsCheck n e s = none := by
  rw [rsCheck, if_neg (by omega), if_neg hn, if_neg (by omega), if_neg (by omega)]

theorem rsEnc_raises_of_rsCheck {err : ErrCode} (h : rsCheck n e s = some err) : Raises (.rsEnc n e) s err :=
  raises_of_plan_error _ s _ (by simp only [plan, planRsEnc, h])

theorem rsSyn_raises_of_rsCheck {err : ErrCode} (h : rsCheck n e s = some err) : Raises (.rsSyn n e) s err :=
  raises_of_plan_error _ s _ (by simp only [plan, planRsSyn, h])

/-- What the check finds both commands raise (41_rs.md R130). -/
theorem raises_of_rsCheck {err : ErrCode} (h : rsCheck n e s = some err) :
    ∀ i ∈ [Instr.rsEnc n e, Instr.rsSyn n e], Raises i s err :=
  List.forall_mem_cons.2 ⟨rsEnc_raises_of_rsCheck h, List.forall_mem_singleton.2 (rsSyn_raises_of_rsCheck h)⟩

theorem plan_rsGen_of_degree {d : Nat} (h : d < 1 ∨ 30 < d) :
    plan (.rsGen d) s = .error .invalidGeneratorDegree := if_pos h

theorem plan_rsGen {d : Nat} (hd : 1 ≤ d) (hd30 : d ≤ 30) :
    plan (.rsGen d) s = .ok [.genCache (extendCache s.genCache d)] := if_neg (by omega)

/-- Past the check, with a coherent cache, RS.ENC stores the remainder by the generator of degree e (41_rs.md R129). -/
theorem plan_rsEnc {ecc : List Byte} (hcache : CacheOk s) (hcheck : rsCheck n e s = none)
    (hecc : rsEcc (s.cells .bitbuf s.rsSrc.toNat n) e (generator e) = .ok ecc) :
    plan (.rsEnc n e) s =
      .ok (.genCache (extendCache s.genCache e) :: putRun .eccbuf s.rsDst.toNat ecc) := by
  simp only [plan, planRsEnc, hcheck, cachedGen_extendCache hcache, hecc, Except.map]

theorem plan_rsSyn (hcheck : rsCheck n e s = none) :
    plan (.rsSyn n e) s = .ok [.syndromes (syndromes (receivedBlock n e s) e),
      .synz (allZero ((List.range e).map (syndrome (receivedBlock n e s))))] := by
  simp only [plan, planRsSyn, hcheck]

end

/-! ## The generator cache -/

/-- Each new entry is computed from the one before (41_rs.md R126). -/
theorem cachedGen_growCache_new (m : Nat) (cache : List (List Byte)) {k : Nat} (hk : cache.length < k)
    (hkm : k ≤ cache.length + m) :
    cachedGen (growCache m cache) k = pmul (cachedGen (growCache m cache) (k - 1)) [1, alog (k - 1)] := by
  induction m generalizing cache with
  | zero => omega
  | succ m ih =>
    rw [growCache]
    generalize hnew : cache ++ [pmul (cachedGen cache cache.length) [1, alog cache.length]] = larger
    have hlen : larger.length = cache.length + 1 := by rw [← hnew, List.length_append, List.length_singleton]
    rcases Nat.lt_or_eq_of_le (Nat.succ_le_of_lt hk) with hlater | rfl
    · exact ih larger (hlen.trans_lt hlater) (by omega)
    · have hprefix : cache <+: larger := hnew ▸ List.prefix_append cache _
      rw [cachedGen_of_prefix (growCache_prefix m larger) hlen.ge, Nat.succ_sub_one,
        cachedGen_of_prefix (hprefix.trans (growCache_prefix m larger)) (Nat.le_refl _), ← hnew, cachedGen,
        List.getD_cons_succ, List.getD_append_right _ _ _ _ (Nat.le_refl _), Nat.sub_self]
      rfl

theorem cachedGen_extendCache_new (cache : List (List Byte)) {d k : Nat} (hk : cache.length < k) (hkd : k ≤ d) :
    cachedGen (extendCache cache d) k = pmul (cachedGen (extendCache cache d) (k - 1)) [1, alog (k - 1)] :=
  cachedGen_growCache_new _ cache hk (by omega)

/-! ## Stores into one buffer -/

theorem buffers_set_get (bs : Buffers) (b : Buf) : bs.set b (bs.get b) = bs := by cases b <;> rfl

theorem buffers_set_set (bs : Buffers) (b : Buf) (m m' : Memory) : (bs.set b m).set b m' = bs.set b m' := by
  cases b <;> rfl

/-- Stores into one buffer change that buffer alone. -/
theorem applyAll_of_putsInto {b : Buf} {ws : List Write} (h : PutsInto b ws) (s : State) :
    ∃ m, applyAll s ws = { s with bufs := s.bufs.set b m } := by
  refine applyAll_induction (P := fun t => ∃ m, t = { s with bufs := s.bufs.set b m }) ws s
    ⟨s.bufs.get b, by rw [buffers_set_get]⟩ fun w hw t ht => ?_
  obtain ⟨k, v, rfl⟩ := h w hw
  obtain ⟨m, rfl⟩ := ht
  exact ⟨_, congrArg (fun bs => { s with bufs := bs }) (buffers_set_set s.bufs b m _)⟩

/-- The elements of a run read back as they were stored, where an element keeps all bits of a byte. -/
theorem cells_applyAll_putRun {b : Buf} (hb : bufMask b = 0xFF) (start : Nat) (vs : List Byte) (s : State) :
    (applyAll s (putRun b start vs)).cells b start vs.length = vs := by
  refine List.ext_getElem (by simp [State.cells]) fun k hk hkv => ?_
  have hin : start ≤ start + k ∧ start + k < start + vs.length :=
    ⟨Nat.le_add_right .., Nat.add_lt_add_left hkv _⟩
  simp only [State.cells, List.getElem_map, List.getElem_range]
  rw [applyAll_putRun_cell, if_pos ⟨rfl, hin⟩, Nat.add_sub_cancel_left, List.getD_eq_getElem vs 0 hkv, hb]
  exact BitVec.and_allOnes

theorem cells_congr {s t : State} {b : Buf} {start n : Nat}
    (h : ∀ i, start ≤ i → i < start + n → t.cell b i = s.cell b i) : t.cells b start n = s.cells b start n :=
  List.map_congr_left fun _ hk => h _ (Nat.le_add_right ..) (Nat.add_lt_add_left (List.mem_range.1 hk) _)

/-! ## The syndrome registers -/

/-- A command whose plan writes the syndrome registers and SYNZ changes those and the command cycle. -/
theorem exec_of_plan_syndromes {i : Instr} {s : State} {v : Vector Byte 32} {b : Bool}
    (h : plan i s = .ok [.syndromes v, .synz b]) : exec i s = .next { commandCycle s with syn := v, synz := b } :=
  exec_of_plan_ok i s _ h

theorem syndromes_get (c : List Byte) (e : Nat) (j : Fin 32) :
    (syndromes c e)[j] = if j.val < e then syndrome c j.val else 0 := Vector.getElem_ofFn j.isLt

theorem allZero_map_range {f : Nat → Byte} {e : Nat} :
    allZero ((List.range e).map f) = true ↔ ∀ j < e, f j = 0 := by
  simp only [allZero, List.all_map, List.all_eq_true, List.mem_range, Function.comp_apply, beq_iff_eq]

/-- SYNZ says that the syndrome registers of the block are 0 (41_rs.md R132). -/
theorem allZero_iff_syndromes {c : List Byte} {e : Nat} (he : e ≤ 32) :
    allZero ((List.range e).map (syndrome c)) = true ↔ ∀ j : Fin 32, j.val < e → (syndromes c e)[j] = 0 := by
  rw [allZero_map_range]
  refine ⟨fun h j hj => ?_, fun h j hj => ?_⟩
  · rw [syndromes_get, if_pos hj]; exact h j hj
  · have hreg := h ⟨j, hj.trans_le he⟩ hj
    rwa [syndromes_get, if_pos hj] at hreg

end Sys2Proof.Machine
end

section

open Sys2Proof Sys2Proof.Machine

namespace Sys2Proof.Proofs

/-- Settles O29: one more coefficient behind is one more factor α^j in each earlier term. -/
theorem syndromeIsThePowerSum : Obligations.SyndromeIsThePowerSum := fun c _ hj => syndrome_eq_powerSum c hj

/-- Settles O26: both commands raise what the shared check finds. -/
theorem rsEncAndSynCheckTheirOperandsInOrder : Obligations.RsEncAndSynCheckTheirOperandsInOrder := fun _ _ _ i hi =>
  ⟨fun h => raises_of_rsCheck (rsCheck_of_degree h) i hi,
    fun he he30 hn => raises_of_rsCheck (rsCheck_of_length he he30 (.inl hn)) i hi,
    fun he he30 _ hsrc => raises_of_rsCheck (rsCheck_of_length he he30 (.inr (.inl hsrc))) i hi,
    fun he he30 _ _ hdst => raises_of_rsCheck (rsCheck_of_length he he30 (.inr (.inr hdst))) i hi⟩

/-- Settles O25: an extension appends entries, each computed from the one before. -/
theorem rsGenExtendsTheCacheOrRaises : Obligations.RsGenExtendsTheCacheOrRaises := by
  refine ⟨decodesAs_of_arm fun w h => by rw [decode, h]; rfl, fun d s =>
    ⟨fun h => raises_of_plan_error _ s _ (plan_rsGen_of_degree h), fun hd hd30 => ?_⟩⟩
  exact ⟨_, exec_of_plan_ok _ s _ (plan_rsGen hd hd30), extendCache_length s.genCache d,
    fun _ hk => cachedGen_of_prefix (extendCache_prefix s.genCache d) hk,
    fun _ hk hkd => cachedGen_extendCache_new s.genCache hk hkd, rfl⟩

/-- Settles O27: past the check the plan extends the cache and stores the remainder as one run of ECCBUF. -/
theorem rsEncWritesTheRemainder : Obligations.RsEncWritesTheRemainder := by
  refine ⟨decodesAs_of_arm fun w h => by rw [decode, h]; rfl, fun n e s =>
    ⟨fun h => rsEnc_raises_of_rsCheck (rsCheck_of_degree h),
      fun he he30 h => rsEnc_raises_of_rsCheck (rsCheck_of_length he he30 h),
      fun hcache he he30 hn hsrc hdst => ?_⟩⟩
  obtain ⟨ecc, hecc, rfl⟩ := rsEcc_generator (s.cells .bitbuf s.rsSrc.toNat n) he
  have hexec := exec_of_plan_ok _ s _ (plan_rsEnc hcache (rsCheck_eq_none he he30 hn hsrc hdst) hecc)
  obtain ⟨m, hm⟩ := applyAll_of_putsInto (putsInto_putRun .eccbuf s.rsDst.toNat ecc)
    { s with genCache := extendCache s.genCache ecc.length }
  refine ⟨_, ecc, hexec, hecc, rfl, cells_applyAll_putRun rfl .., fun b i hout => ?_, ?_, ?_, ?_⟩
  · exact (applyAll_putRun_cell ..).trans (if_neg hout)
  · rw [applyAll_cons, Write.apply, hm]
    exact extendCache_coherent hcache _
  · rw [applyAll_cons, Write.apply, hm]
    exact extendCache_length _ _
  · rw [applyAll_cons, Write.apply, hm]
    rfl

/-- Settles O28: past the check the plan sets the syndrome registers and SYNZ. -/
theorem rsSynWritesTheSyndromes : Obligations.RsSynWritesTheSyndromes := by
  refine ⟨decodesAs_of_arm fun w h => by rw [decode, h]; rfl, fun n e s =>
    ⟨fun h => rsSyn_raises_of_rsCheck (rsCheck_of_degree h),
      fun he he30 h => rsSyn_raises_of_rsCheck (rsCheck_of_length he he30 h),
      fun he he30 hn hsrc hdst => ?_⟩⟩
  exact ⟨_, exec_of_plan_syndromes (plan_rsSyn (rsCheck_eq_none he he30 hn hsrc hdst)),
    syndromes_get (receivedBlock n e s) e, allZero_iff_syndromes (c := receivedBlock n e s) (by omega), rfl⟩

/-- Settles O30: the block that RS.SYN receives is the data with its remainder, which is 0 at every root of the
generator. -/
theorem encodedBlockHasZeroSyndromes : Obligations.EncodedBlockHasZeroSyndromes := by
  intro n e s hcache he he30 hn hsrc hdst
  obtain ⟨t, ecc, henc, hecc, hlen, hstored, hkept, -, -, hframe⟩ :=
    (rsEncWritesTheRemainder.2 n e s).2.2 hcache he he30 hn hsrc hdst
  have hsrcReg : t.rsSrc = s.rsSrc := (congrArg State.rsSrc hframe :)
  have hdstReg : t.rsDst = s.rsDst := (congrArg State.rsDst hframe :)
  have hdata : t.cells .bitbuf s.rsSrc.toNat n = s.cells .bitbuf s.rsSrc.toNat n :=
    cells_congr fun i _ _ => hkept .bitbuf i fun h => nomatch h.1
  obtain ⟨u, hsyn, hvalue, hsynz, -⟩ :=
    (rsSynWritesTheSyndromes.2 n e t).2.2 he he30 hn (hsrcReg ▸ hsrc) (hdstReg ▸ hdst)
  rw [hsrcReg, hdstReg, hdata, hstored] at hvalue
  have hzero : ∀ j : Fin 32, u.syn[j] = 0 := fun j => by
    rw [hvalue]
    split
    · next hj => exact syndrome_codeword hecc hlen hj
    · rfl
  exact ⟨t, u, henc, hsyn, hsynz.2 fun j _ => hzero j, hzero⟩

end Sys2Proof.Proofs
end

section
/-! SUPPORT. The bit buffer bit by bit: what one `setbit`, a run of them and a list of appends leave in
each bit, and a command that appends (42_bitbuf.md R140, R141). -/

namespace Sys2Proof.Machine

/-! ## One bit -/

/-- The one-bit mask that `setMsbBit` shifts into place. -/
theorem getLsbD_msbMask {i k : Nat} (hi : i < 8) (hk : k < 8) :
    (1#8 <<< (7 - i)).getLsbD (7 - k) = decide (k = i) := by
  rw [← BitVec.twoPow_eq, BitVec.getLsbD_twoPow, decide_eq_true (by omega), Bool.true_and]
  exact decide_eq_decide.2 (by omega)

theorem msbBit_setMsbBit (v : Byte) (b : Bool) {i k : Nat} (hi : i < 8) (hk : k < 8) :
    msbBit (setMsbBit v i b) k = if k = i then b else msbBit v k := by
  have hin : 7 - k < 8 := by omega
  cases b
  · simp only [msbBit, setMsbBit, Bool.false_eq_true, if_false, BitVec.getLsbD_and, BitVec.getLsbD_not, hin,
      getLsbD_msbMask hi hk]
    split <;> simp [*]
  · simp only [msbBit, setMsbBit, if_true, BitVec.getLsbD_or, getLsbD_msbMask hi hk]
    split <;> simp [*]

/-- `setbit(i, b)` sets bit `i` and keeps every other bit (42_bitbuf.md R141). -/
theorem bbBit_apply_bit (s : State) (i : Nat) (b : Bool) (k : Nat) :
    ((Write.bit i b).apply (fun _ => true) s).bbBit k = if k = i then b else s.bbBit k := by
  simp only [State.bbBit, Write.apply, if_true, cell_putCell, true_and]
  by_cases hbyte : k / 8 = i / 8
  · have hmask : setMsbBit (s.cell .bitbuf (i / 8)) (i % 8) b &&& bufMask .bitbuf =
        setMsbBit (s.cell .bitbuf (i / 8)) (i % 8) b := BitVec.and_allOnes
    rw [if_pos hbyte, hmask, msbBit_setMsbBit _ _ (Nat.mod_lt _ (by decide)) (Nat.mod_lt _ (by decide)), hbyte]
    exact if_congr (by omega) rfl rfl
  · rw [if_neg hbyte, if_neg fun h => hbyte (congrArg (· / 8) h)]

theorem bbBit_congr {s t : State} (h : ∀ i, t.cell .bitbuf i = s.cell .bitbuf i) (k : Nat) :
    t.bbBit k = s.bbBit k := congrArg (msbBit · (k % 8)) (h (k / 8))

/-! ## Runs of bits -/

/-- A run of `setbit`s leaves the run's bits there, and every other bit as it was. -/
theorem bbBit_applyAll_run (s : State) (f : Nat → Bool) (start n k : Nat) :
    (applyAll s ((List.range n).map fun j => .bit (start + j) (f j))).bbBit k =
      if start ≤ k ∧ k < start + n then f (k - start) else s.bbBit k := by
  induction n with
  | zero => exact (if_neg (by omega)).symm
  | succ n ih =>
    rw [List.range_succ, List.map_append, applyAll_append, List.map_singleton, applyAll_cons, applyAll_nil,
      bbBit_apply_bit, ih]
    by_cases hlast : k = start + n
    · subst hlast
      rw [if_pos rfl, if_pos (by omega), Nat.add_sub_cancel_left]
    · rw [if_neg hlast]
      exact if_congr (by omega) rfl rfl

theorem bbBit_applyAll_valueBits (s : State) (start n v k : Nat) :
    (applyAll s (valueBits start n v)).bbBit k =
      if start ≤ k ∧ k < start + n then v.testBit (n - 1 - (k - start)) else s.bbBit k :=
  bbBit_applyAll_run s _ start n k

theorem bbBit_applyAll_fillBits (s : State) (p k : Nat) :
    (applyAll s (fillBits p)).bbBit k = if p ≤ k ∧ k < 8 * ((p + 7) / 8) then false else s.bbBit k :=
  (bbBit_applyAll_run s (fun _ => false) p _ k).trans (if_congr (by omega) rfl rfl)

/-! ## Appends -/

/-- The bits that a list of appends adds, in order. -/
def bitsOf (vs : List (Nat × Nat)) : List Bool := vs.flatMap fun p => msbFirst p.1 p.2

@[simp] theorem msbFirst_length (n v : Nat) : (msbFirst n v).length = n := (List.length_map _).trans List.length_range

theorem msbFirst_getElem? {n j : Nat} (v : Nat) (h : j < n) : (msbFirst n v)[j]? = some (v.testBit (n - 1 - j)) := by
  rw [msbFirst, List.getElem?_map, List.getElem?_range h]; rfl

theorem msbFirst_lowBits (n v : Nat) : msbFirst n (lowBits n v) = msbFirst n v :=
  List.map_congr_left fun j hj => by
    have hj := List.mem_range.1 hj
    rw [lowBits, Nat.testBit_mod_two_pow, decide_eq_true (by omega), Bool.true_and]

theorem bitsOf_cons (n v : Nat) (vs : List (Nat × Nat)) : bitsOf ((n, v) :: vs) = msbFirst n v ++ bitsOf vs :=
  List.flatMap_cons

theorem bitsOf_singleton (n v : Nat) : bitsOf [(n, v)] = msbFirst n v := List.flatMap_singleton ..

theorem bitsOf_length (vs : List (Nat × Nat)) : (bitsOf vs).length = appendedBits vs := by
  induction vs with
  | nil => rfl
  | cons p vs ih => rw [bitsOf_cons, List.length_append, msbFirst_length, ih, appendedBits]

theorem applyAll_appends_cons (s : State) (len n v : Nat) (vs : List (Nat × Nat)) :
    applyAll s (appends len ((n, v) :: vs)) =
      applyAll (applyAll (applyAll s (valueBits len n v)) (fillBits (len + n))) (appends (len + n) vs) := by
  rw [appends, applyAll_append, applyAll_append]

/-- Appends write bits from the old length up to the byte boundary after the new one, and the new length
(42_bitbuf.md R141). -/
theorem mem_appends {len : Nat} {vs : List (Nat × Nat)} {w : Write} (h : w ∈ appends len vs) :
    w = .bbLen (len + appendedBits vs) ∨ vs ≠ [] ∧ ∃ i b, w = .bit i b ∧ len ≤ i ∧
      i < 8 * ((len + appendedBits vs + 7) / 8) := by
  induction vs generalizing len with
  | nil => exact .inl (List.mem_singleton.1 h)
  | cons p vs ih =>
    obtain ⟨n, v⟩ := p
    simp only [appends, List.mem_append, or_assoc] at h
    rw [appendedBits]
    rcases h with hvalue | hfill | hrest
    · obtain ⟨j, hj, rfl⟩ := List.mem_map.1 hvalue
      have hj := List.mem_range.1 hj
      exact .inr ⟨List.cons_ne_nil _ _, _, _, rfl, by omega, by omega⟩
    · obtain ⟨j, hj, rfl⟩ := List.mem_map.1 hfill
      have hj := List.mem_range.1 hj
      exact .inr ⟨List.cons_ne_nil _ _, _, _, rfl, by omega, by omega⟩
    · rcases ih hrest with rfl | ⟨-, i, b, rfl, hlo, hhi⟩
      · exact .inl (by rw [Nat.add_assoc])
      · exact .inr ⟨List.cons_ne_nil _ _, i, b, rfl, by omega, by omega⟩

theorem bbLen_mem_appends (len : Nat) (vs : List (Nat × Nat)) : .bbLen (len + appendedBits vs) ∈ appends len vs := by
  induction vs generalizing len with
  | nil => exact List.mem_singleton.2 rfl
  | cons p vs ih =>
    rw [appends, appendedBits, ← Nat.add_assoc]
    exact List.mem_append_right _ (ih _)

theorem bbLen_applyAll_appends (s : State) (len : Nat) (vs : List (Nat × Nat)) :
    (applyAll s (appends len vs)).bbLen = BitVec.ofNat 16 (len + appendedBits vs) := by
  induction vs generalizing s len with
  | nil => rfl
  | cons p vs ih => rw [applyAll_appends_cons, ih, appendedBits, Nat.add_assoc]

theorem bbLen_toNat_applyAll_appends (s : State) {len : Nat} {vs : List (Nat × Nat)}
    (h : len + appendedBits vs ≤ 32768) : (applyAll s (appends len vs)).bbLen.toNat = len + appendedBits vs := by
  rw [bbLen_applyAll_appends, BitVec.toNat_ofNat, Nat.mod_eq_of_lt (by omega)]

/-- The bits before the old length are kept. -/
theorem bbBit_applyAll_appends_old (s : State) {len k : Nat} (vs : List (Nat × Nat)) (hk : k < len) :
    (applyAll s (appends len vs)).bbBit k = s.bbBit k := by
  refine applyAll_induction (P := fun t => t.bbBit k = s.bbBit k) _ s rfl fun w hw t ht => ?_
  rcases mem_appends hw with rfl | ⟨-, i, b, rfl, hlo, -⟩
  · exact ht
  · rw [bbBit_apply_bit, if_neg (by omega), ht]

/-- From the old length on stand the appended bits, in order. -/
theorem bbBit_applyAll_appends_new (s : State) {len j : Nat} {vs : List (Nat × Nat)} (hj : j < appendedBits vs) :
    (bitsOf vs)[j]? = some ((applyAll s (appends len vs)).bbBit (len + j)) := by
  induction vs generalizing s len j with
  | nil => exact absurd hj (Nat.not_lt_zero j)
  | cons p vs ih =>
    obtain ⟨n, v⟩ := p
    rw [appendedBits] at hj
    rw [bitsOf_cons, applyAll_appends_cons]
    by_cases hhead : j < n
    · rw [List.getElem?_append_left (by rwa [msbFirst_length]), msbFirst_getElem? v hhead,
        bbBit_applyAll_appends_old _ vs (by omega), bbBit_applyAll_fillBits, if_neg (by omega),
        bbBit_applyAll_valueBits, if_pos (by omega), Nat.add_sub_cancel_left]
    · rw [List.getElem?_append_right (by rw [msbFirst_length]; omega), msbFirst_length, ih _ (by omega)]
      congr 2
      omega

/-- After the last appended bit the byte is filled with zeros. -/
theorem bbBit_applyAll_appends_fill (s : State) {len k : Nat} {vs : List (Nat × Nat)} (hvs : vs ≠ [])
    (hlo : len + appendedBits vs ≤ k) (hhi : k < 8 * ((len + appendedBits vs + 7) / 8)) :
    (applyAll s (appends len vs)).bbBit k = false := by
  induction vs generalizing s len with
  | nil => exact absurd rfl hvs
  | cons p vs ih =>
    obtain ⟨n, v⟩ := p
    rw [appendedBits, ← Nat.add_assoc] at hlo hhi
    rw [applyAll_appends_cons]
    cases vs with
    | nil =>
      exact (bbBit_applyAll_fillBits _ (len + n) k).trans (if_pos ⟨hlo, hhi⟩)
    | cons q vs => exact ih _ (List.cons_ne_nil q vs) hlo hhi

/-- Appends keep every byte but those from the old length's to the one that holds the last new bit. -/
theorem cell_applyAll_appends (s : State) {len : Nat} {vs : List (Nat × Nat)} {b : Buf} {i : Nat}
    (h : ¬ (b = .bitbuf ∧ vs ≠ [] ∧ len / 8 ≤ i ∧ i < (len + appendedBits vs + 7) / 8)) :
    (applyAll s (appends len vs)).cell b i = s.cell b i := by
  refine applyAll_cell_untouched _ s b i fun w hw => ?_
  rcases mem_appends hw with rfl | ⟨hvs, k, v, rfl, hlo, hhi⟩
  · rfl
  · refine Bool.eq_false_iff.2 fun htouch => h ?_
    simp only [Write.touches, Bool.and_eq_true, decide_eq_true_eq, beq_iff_eq] at htouch
    obtain ⟨rfl, rfl⟩ := htouch
    exact ⟨rfl, hvs, by omega, by omega⟩

/-- `t` differs from `s` at most in BITBUF and BB_LEN. -/
def SameOutsideBitBuf (s t : State) : Prop :=
  t = { s with bbLen := t.bbLen, bufs := { s.bufs with bitbuf := t.bufs.bitbuf } }

theorem applyAll_appends_frame (s : State) (len : Nat) (vs : List (Nat × Nat)) :
    SameOutsideBitBuf s (applyAll s (appends len vs)) := by
  refine applyAll_induction (P := SameOutsideBitBuf s) _ s rfl fun w hw t (ht : t = _) => ?_
  rw [ht]
  rcases mem_appends hw with rfl | ⟨-, i, b, rfl, -, -⟩
  · rfl
  · rfl

/-- A command whose plan is a list of appends that fits appends their bits (42_bitbuf.md R141). -/
theorem exec_appends {i : Instr} {s : State} {vs : List (Nat × Nat)}
    (hplan : plan i s = .ok (appends s.bbLen.toNat vs)) (hfit : s.bbLen.toNat + appendedBits vs ≤ 32768)
    (hbits : vs ≠ [] → bitsOf vs ≠ []) : ∃ t, exec i s = .next t ∧ Appended s t (bitsOf vs) := by
  refine ⟨_, exec_of_plan_ok i s _ hplan, ?_⟩
  have hnonempty : bitsOf vs ≠ [] → vs ≠ [] := fun h hvs => h (hvs ▸ rfl)
  constructor
  case len => rw [bitsOf_length]; exact bbLen_toNat_applyAll_appends s hfit
  case new => exact fun j hj => bbBit_applyAll_appends_new s (bitsOf_length vs ▸ hj)
  case fill =>
    rw [bitsOf_length]
    exact fun h _ hlo hhi => bbBit_applyAll_appends_fill s (hnonempty h) hlo hhi
  case old => exact fun _ hk => bbBit_applyAll_appends_old s vs hk
  case frame =>
    rw [bitsOf_length]
    exact fun _ _ h => cell_applyAll_appends s fun ⟨hb, hvs, hrange⟩ => h ⟨hb, hbits hvs, hrange⟩
  case rest => exact congrArg complete (applyAll_appends_frame s s.bbLen.toNat vs)

end Sys2Proof.Machine
end

section
/-! SUPPORT. The plans of the BB commands, the number that BB.RD reads, and which commands append
(42_bitbuf.md R143-R146, 43_serializer.md R165-R167). -/

namespace Sys2Proof.Machine

/-! ## The plans, check by check -/

section

variable {n : Nat} {s : State}

theorem plan_bbApp_of_count {imm16 : BitVec 16} (h : n < 1 ∨ 16 < n) :
    plan (.bbApp n imm16) s = .error .illegalCommand := if_pos h

theorem plan_bbApp_of_overflow {imm16 : BitVec 16} (hn : 1 ≤ n) (hn16 : n ≤ 16) (h : 32768 < s.bbLen.toNat + n) :
    plan (.bbApp n imm16) s = .error .bitBufferOverflow := (if_neg (by omega)).trans (if_pos h)

theorem plan_bbApp {imm16 : BitVec 16} (hn : 1 ≤ n) (hn16 : n ≤ 16) (h : s.bbLen.toNat + n ≤ 32768) :
    plan (.bbApp n imm16) s = .ok (appends s.bbLen.toNat [(n, lowBits n imm16.toNat)]) :=
  (if_neg (by omega)).trans (if_neg (by omega))

theorem plan_bbAppr_of_count {ra : Fin 16} (h : n < 1 ∨ 8 < n) :
    plan (.bbAppr n ra) s = .error .illegalCommand := if_pos h

theorem plan_bbAppr_of_overflow {ra : Fin 16} (hn : 1 ≤ n) (hn8 : n ≤ 8) (h : 32768 < s.bbLen.toNat + n) :
    plan (.bbAppr n ra) s = .error .bitBufferOverflow := (if_neg (by omega)).trans (if_pos h)

theorem plan_bbAppr {ra : Fin 16} (hn : 1 ≤ n) (hn8 : n ≤ 8) (h : s.bbLen.toNat + n ≤ 32768) :
    plan (.bbAppr n ra) s = .ok (appends s.bbLen.toNat [(n, lowBits n s.g[ra].toNat)]) :=
  (if_neg (by omega)).trans (if_neg (by omega))

theorem plan_bbRd_of_count {pos : Nat} (h : n < 1 ∨ 16 < n) :
    plan (.bbRd n pos) s = .error .illegalCommand := if_pos h

theorem plan_bbRd_of_range {pos : Nat} (hn : 1 ≤ n) (hn16 : n ≤ 16) (h : s.bbLen.toNat < pos + n) :
    plan (.bbRd n pos) s = .error .bitBufferRange := (if_neg (by omega)).trans (if_pos h)

theorem plan_bbRd {pos : Nat} (hn : 1 ≤ n) (hn16 : n ≤ 16) (h : pos + n ≤ s.bbLen.toNat) :
    plan (.bbRd n pos) s = .ok [.result (BitVec.ofNat 16 (s.bbBits pos n))] :=
  (if_neg (by omega)).trans (if_neg (by omega))

/-- A command whose plan is to append the low bits of one value appends them, most significant first. -/
theorem exec_append_one {i : Instr} {v : Nat} (hn : 1 ≤ n) (hfit : s.bbLen.toNat + n ≤ 32768)
    (hplan : plan i s = .ok (appends s.bbLen.toNat [(n, lowBits n v)])) :
    ∃ t, exec i s = .next t ∧ Appended s t (msbFirst n v) := by
  have hbits : bitsOf [(n, lowBits n v)] = msbFirst n v := (bitsOf_singleton _ _).trans (msbFirst_lowBits n v)
  have hne : msbFirst n v ≠ [] := List.ne_nil_of_length_pos (by rwa [msbFirst_length])
  exact hbits ▸ exec_appends hplan hfit fun _ => hbits.symm ▸ hne

end

/-! ## Reading bits -/

/-- The number read from the buffer, bit by bit: the first bit read is the most significant one
(42_bitbuf.md R146). -/
theorem bbBits_testBit (s : State) (pos n k : Nat) :
    (s.bbBits pos n).testBit k = (decide (k < n) && s.bbBit (pos + (n - 1 - k))) := by
  induction n generalizing k with
  | zero => exact Nat.zero_testBit k
  | succ n ih =>
    have hbit : s.bbBits pos (n + 1) = Nat.bit (s.bbBit (pos + n)) (s.bbBits pos n) := (Nat.bit_val ..).symm
    cases k with
    | zero => rw [hbit, Nat.testBit_bit_zero]; rfl
    | succ k =>
      have hindex : n + 1 - 1 - (k + 1) = n - 1 - k := by omega
      rw [hbit, Nat.testBit_bit_succ, ih, hindex]
      simp only [Nat.add_lt_add_iff_right]

/-- The bits read back are those a value was appended as (42_bitbuf.md R141, R146). -/
theorem bbBits_eq_mod {s : State} {pos n v : Nat} (h : ∀ j < n, s.bbBit (pos + j) = v.testBit (n - 1 - j)) :
    s.bbBits pos n = v % 2 ^ n := by
  refine Nat.eq_of_testBit_eq fun k => ?_
  rw [bbBits_testBit, Nat.testBit_mod_two_pow]
  by_cases hk : k < n
  · rw [h _ (by omega), show n - 1 - (n - 1 - k) = k by omega]
  · rw [decide_eq_false hk, Bool.false_and, Bool.false_and]

/-! ## The commands that append -/

theorem exec_bbClr (s : State) : exec .bbClr s =
    .next (complete { s.clearBuf .bitbuf (fun _ => true) with bbLen := 0 }) := rfl

theorem writesBbLen_of_outputBuffer {i : Instr} (h : outputBuffer i = some .bitbuf) : writesBbLen i = true := by
  cases i <;> cases h <;> rfl

/-- Appends whose writes are in range end inside the bit buffer. -/
theorem appendedBits_le_of_inRange {depth len : Nat} {vs : List (Nat × Nat)}
    (h : ∀ w ∈ appends len vs, w.InRange depth) : len + appendedBits vs ≤ 32768 := h _ (bbLen_mem_appends len vs)

theorem inRange_of_planSound_ok {depth : Nat} {codes : List ErrCode} {r : Except ErrCode (List Write)}
    {ws : List Write} (h : PlanSound depth codes r) (hr : r = .ok ws) : ∀ w ∈ ws, w.InRange depth := by
  subst hr; exact h

/-- Every command but BB.CLR that may write BB_LEN has a list of appends that fits as its plan, or an error. -/
theorem plan_appends {i : Instr} {s : State} {ws : List Write} (hlen : writesBbLen i = true) (hclr : i ≠ .bbClr)
    (h : plan i s = .ok ws) :
    ∃ vs, ws = appends s.bbLen.toNat vs ∧ s.bbLen.toNat + appendedBits vs ≤ 32768 := by
  cases i with
  | bbClr => exact absurd rfl hclr
  | bbApp | bbAppr =>
    simp only [plan, planBbApp, planBbAppr, guard_eq_ok] at h
    obtain ⟨-, hfit, hws⟩ := h
    cases hws; exact ⟨_, rfl, Nat.le_of_not_lt hfit⟩
  | serHdr mode =>
    have hrange := inRange_of_planSound_ok (planSerHdr_sound mode s) h
    simp only [plan, planSerHdr, guard_eq_ok] at h
    obtain ⟨-, -, -, -, hws⟩ := h
    cases hws; exact ⟨_, rfl, appendedBits_le_of_inRange hrange⟩
  | serAln =>
    have hrange := inRange_of_planSound_ok (planSerAln_sound s) h
    obtain ⟨-, h⟩ := guard_eq_ok.1 h
    split at h
    · cases h
    · obtain ⟨-, hws⟩ := guard_eq_ok.1 h
      cases hws; exact ⟨_, rfl, appendedBits_le_of_inRange hrange⟩
  | serPad =>
    have hrange := inRange_of_planSound_ok (planSerPad_sound s) h
    simp only [plan, planSerPad, guard_eq_ok] at h
    obtain ⟨-, -, hws⟩ := h
    cases hws; exact ⟨_, rfl, appendedBits_le_of_inRange hrange⟩
  | _ => cases hlen

/-- A command that does not write BB_LEN keeps it and every bit. -/
theorem exec_keeps_bits {i : Instr} {s t : State} (hlen : writesBbLen i = false) (h : exec i s = .next t) :
    t.bbLen = s.bbLen ∧ ∀ k, t.bbBit k = s.bbBit k :=
  have hbuf : outputBuffer i ≠ some .bitbuf := fun hb =>
    Bool.false_ne_true (hlen.symm.trans (writesBbLen_of_outputBuffer hb))
  ⟨(exec_keeps h).bbLen hlen, bbBit_congr fun j => (exec_keeps h).cell .bitbuf j hbuf⟩

end Sys2Proof.Machine
end

section

open Sys2Proof Sys2Proof.Machine

namespace Sys2Proof.Proofs

/-- Settles O20: past its two checks the plan is one append. -/
theorem bbAppAppendsOrRaises : Obligations.BbAppAppendsOrRaises :=
  ⟨decodesAs_of_arm fun w h => by rw [decode, h]; rfl, fun _ _ s =>
    ⟨fun h => raises_of_plan_error _ s _ (plan_bbApp_of_count h),
      fun hn hn16 h => raises_of_plan_error _ s _ (plan_bbApp_of_overflow hn hn16 h),
      fun hn hn16 hfit => exec_append_one hn hfit (plan_bbApp hn hn16 hfit)⟩⟩

/-- Settles O21: past its two checks the plan is one append. -/
theorem bbApprAppendsOrRaises : Obligations.BbApprAppendsOrRaises :=
  ⟨decodesAs_of_arm fun w h => by rw [decode, h]; rfl, fun _ _ s =>
    ⟨fun h => raises_of_plan_error _ s _ (plan_bbAppr_of_count h),
      fun hn hn8 h => raises_of_plan_error _ s _ (plan_bbAppr_of_overflow hn hn8 h),
      fun hn hn8 hfit => exec_append_one hn hfit (plan_bbAppr hn hn8 hfit)⟩⟩

/-- Settles O22: past its two checks the plan is the one write of the number read. -/
theorem bbRdReadsOrRaises : Obligations.BbRdReadsOrRaises := by
  refine ⟨decodesAs_of_arm fun w h => by rw [decode, h]; rfl, fun n pos s =>
    ⟨fun h => raises_of_plan_error _ s _ (plan_bbRd_of_count h),
      fun hn hn16 h => raises_of_plan_error _ s _ (plan_bbRd_of_range hn hn16 h), fun hn hn16 h => ?_⟩⟩
  refine ⟨_, exec_of_plan_ok _ s _ (plan_bbRd hn hn16 h), fun k hk => ?_, rfl⟩
  show (BitVec.ofNat 16 (s.bbBits pos n)).getLsbD k = _
  rw [BitVec.getLsbD_ofNat, decide_eq_true hk, Bool.true_and, bbBits_testBit]

/-- Settles O23: the bits read are the appended ones, which determine the value's low bits. -/
theorem appendThenReadReturnsTheValue : Obligations.AppendThenReadReturnsTheValue := by
  intro n imm16 s hn hn16 hfit
  obtain ⟨t, happ, happended⟩ := (bbAppAppendsOrRaises.2 n imm16 s).2.2 hn hn16 hfit
  have hread : s.bbLen.toNat + n ≤ t.bbLen.toNat := by rw [happended.len, msbFirst_length]
  refine ⟨t, _, happ, exec_of_plan_ok _ t _ (plan_bbRd hn hn16 hread), ?_⟩
  have hvalue : t.bbBits s.bbLen.toNat n = imm16.toNat % 2 ^ n := bbBits_eq_mod fun j hj =>
    Option.some.inj ((happended.new j (by rwa [msbFirst_length])).symm.trans (msbFirst_getElem? _ hj))
  show (BitVec.ofNat 16 (t.bbBits s.bbLen.toNat n)).toNat = _
  rw [hvalue, BitVec.toNat_ofNat, Nat.mod_eq_of_lt ((Nat.mod_le _ _).trans_lt imm16.isLt)]

/-- Settles O24: the other commands that write BB_LEN only append, and an append writes no bit before the old
length. -/
theorem onlyBbClrShortensTheBitBuffer : Obligations.OnlyBbClrShortensTheBitBuffer := by
  intro i s t hclr h
  cases hlen : writesBbLen i with
  | false =>
    obtain ⟨hsame, hbits⟩ := exec_keeps_bits hlen h
    exact ⟨hsame ▸ Nat.le_refl _, fun k _ => hbits k⟩
  | true =>
    rcases exec_cases i s t h with ⟨ws, hws, rfl⟩ | ⟨e, -, rfl⟩
    · obtain ⟨vs, rfl, hfit⟩ := plan_appends hlen hclr hws
      exact ⟨(bbLen_toNat_applyAll_appends s hfit).symm ▸ Nat.le_add_right ..,
        fun k hk => bbBit_applyAll_appends_old s vs hk⟩
    · exact ⟨Nat.le_refl _, fun _ _ => rfl⟩

/-- Settles O19: its plan clears the buffer and the length. -/
theorem bbClrEmptiesTheBitBuffer : Obligations.BbClrEmptiesTheBitBuffer := by
  refine ⟨decodesAs_of_arm fun w h => by rw [decode, h]; rfl, fun s => ?_⟩
  refine ⟨_, exec_bbClr s, rfl, fun i _ => ?_, fun b i hb => ?_, rfl⟩
  · exact (cell_clearBuf s .bitbuf .bitbuf _ i).trans (if_pos ⟨rfl, rfl⟩)
  · exact (cell_clearBuf s .bitbuf b _ i).trans (if_neg fun h => hb h.1)

end Sys2Proof.Proofs
end

section
/-! SUPPORT. The plans of the serializer's commands check by check, and the bits that their appends add
(43_serializer.md R160-R167). -/

namespace Sys2Proof.Machine

variable {s : State}

/-! ## Appends with a width -/

theorem bitsOf_append (vs ws : List (Nat × Nat)) : bitsOf (vs ++ ws) = bitsOf vs ++ bitsOf ws := List.flatMap_append

theorem bitsOf_ne_nil {vs : List (Nat × Nat)} (hwidth : ∀ p ∈ vs, 0 < p.1) (hvs : vs ≠ []) : bitsOf vs ≠ [] := by
  obtain ⟨p, vs, rfl⟩ := List.exists_cons_of_ne_nil hvs
  have hhead : msbFirst p.1 p.2 ≠ [] :=
    List.ne_nil_of_length_pos (by rw [msbFirst_length]; exact hwidth p List.mem_cons_self)
  rw [bitsOf_cons]
  exact List.append_ne_nil_of_left_ne_nil hhead _

/-- A command whose plan is sound and a list of appends, none of them empty, appends their bits. -/
theorem exec_appends_of_planSound {i : Instr} {depth : Nat} {codes : List ErrCode} {vs : List (Nat × Nat)}
    (hsound : PlanSound depth codes (plan i s)) (hplan : plan i s = .ok (appends s.bbLen.toNat vs))
    (hwidth : ∀ p ∈ vs, 0 < p.1) : ∃ t, exec i s = .next t ∧ Appended s t (bitsOf vs) :=
  exec_appends hplan (appendedBits_le_of_inRange (inRange_of_planSound_ok hsound hplan)) (bitsOf_ne_nil hwidth)

/-! ## SER.HDR (43_serializer.md R165). For the literal mode alphaNumeric the check of the mode computes away. -/

theorem plan_serHdr_of_mode {mode : EncMode} (h : mode ≠ .alphaNumeric) :
    plan (.serHdr mode) s = .error .unimplemented := if_pos h

theorem plan_serHdr_of_record (hv : s.vrecOk = false) :
    plan (.serHdr .alphaNumeric) s = .error .invalidVersionRecord := if_pos hv

/-- The count's field and the record's capacity are checked one after the other, and raise the same error. -/
theorem plan_serHdr_of_capacity (hv : s.vrecOk = true)
    (h : 2 ^ ccbits s.V ≤ s.charLen.toNat ∨ s.CAPBITS < s.bbLen.toNat + 4 + ccbits s.V) :
    plan (.serHdr .alphaNumeric) s = .error .capacityExceeded := by
  refine (if_neg (ne_false_of_eq_true hv)).trans ?_
  split
  · rfl
  · next hcount => exact if_pos (h.resolve_left hcount)

theorem plan_serHdr (hv : s.vrecOk = true) (hcount : s.charLen.toNat < 2 ^ ccbits s.V)
    (hfit : s.bbLen.toNat + 4 + ccbits s.V ≤ s.CAPBITS) : plan (.serHdr .alphaNumeric) s =
      .ok (appends s.bbLen.toNat [(4, alnumIndicator), (ccbits s.V, s.charLen.toNat)]) :=
  (if_neg (ne_false_of_eq_true hv)).trans
    ((if_neg (Nat.not_le_of_lt hcount)).trans (if_neg (Nat.not_lt_of_le hfit)))

theorem ccbits_pos (V : Nat) : 0 < ccbits V := by unfold ccbits; split_ifs <;> decide

/-- The mode indicator and the count, bit by bit (43_serializer.md R162, R163). -/
theorem bitsOf_header (n v : Nat) :
    bitsOf [(4, alnumIndicator), (n, v)] = [false, false, true, false] ++ msbFirst n v := by
  rw [bitsOf_cons, bitsOf_singleton]; rfl

/-! ## SER.ALN (43_serializer.md R166) -/

theorem cells_zero (s : State) (b : Buf) (n : Nat) : s.cells b 0 n = (List.range n).map (s.cell b) := by
  simp only [State.cells, Nat.zero_add]

theorem alnumIndexes_eq_none {c : Byte} {cs : List Byte} (hc : c ∈ cs) (h : alnumIndex c = none) :
    alnumIndexes cs = none := by
  induction cs with
  | nil => cases hc
  | cons d cs ih =>
    unfold alnumIndexes
    rcases List.mem_cons.1 hc with rfl | hc
    · rw [h]
    · rw [ih hc]; cases alnumIndex d <;> rfl

theorem alnumIndexes_eq_some {cs : List Byte} (h : ∀ c ∈ cs, alnumIndex c ≠ none) :
    alnumIndexes cs = some (cs.map fun c => (alnumIndex c).getD 0) := by
  induction cs with
  | nil => rfl
  | cons c cs ih =>
    obtain ⟨hc, hcs⟩ := List.forall_mem_cons.1 h
    obtain ⟨k, hk⟩ := Option.ne_none_iff_exists'.1 hc
    simp only [alnumIndexes, ih hcs, hk, List.map_cons, Option.getD_some]

/-- The indexes of the first CHARLEN characters, each 0 where the character has none. -/
def State.charIndexes (s : State) : List Nat :=
  (List.range s.charLen.toNat).map fun k => (alnumIndex (s.cell .charbuf k)).getD 0

theorem alnumIndexes_charbuf_eq_none (h : ∃ k < s.charLen.toNat, alnumIndex (s.cell .charbuf k) = none) :
    alnumIndexes (s.cells .charbuf 0 s.charLen.toNat) = none := by
  obtain ⟨k, hk, hnone⟩ := h
  rw [cells_zero]
  exact alnumIndexes_eq_none (List.mem_map_of_mem (List.mem_range.2 hk)) hnone

theorem alnumIndexes_charbuf_eq_some (h : ∀ k < s.charLen.toNat, alnumIndex (s.cell .charbuf k) ≠ none) :
    alnumIndexes (s.cells .charbuf 0 s.charLen.toNat) = some s.charIndexes := by
  rw [cells_zero, alnumIndexes_eq_some (List.forall_mem_map.2 fun k hk => h k (List.mem_range.1 hk)), List.map_map]
  rfl

theorem plan_serAln_of_record (hv : s.vrecOk = false) : plan .serAln s = .error .invalidVersionRecord := if_pos hv

theorem plan_serAln_of_character (hv : s.vrecOk = true)
    (h : ∃ k < s.charLen.toNat, alnumIndex (s.cell .charbuf k) = none) : plan .serAln s = .error .invalidCharacter := by
  refine (if_neg (ne_false_of_eq_true hv)).trans ?_
  rw [alnumIndexes_charbuf_eq_none h]

/-- Past the character check only the capacity is left. -/
theorem plan_serAln_of_legal (hv : s.vrecOk = true)
    (h : ∀ k < s.charLen.toNat, alnumIndex (s.cell .charbuf k) ≠ none) : plan .serAln s =
      if s.CAPBITS < s.bbLen.toNat + payloadSize s.charLen.toNat then .error .capacityExceeded
      else .ok (appends s.bbLen.toNat (payload s.charIndexes)) := by
  refine (if_neg (ne_false_of_eq_true hv)).trans ?_
  rw [alnumIndexes_charbuf_eq_some h]

theorem bitsOf_payload (ks : List Nat) : bitsOf (payload ks) = payloadBits ks := by
  induction ks using payload.induct with
  | case1 a b rest ih => rw [payload, payloadBits, bitsOf_cons, ih]
  | case2 a => exact bitsOf_singleton 6 a
  | case3 => rfl

theorem payload_width_pos (ks : List Nat) : ∀ p ∈ payload ks, 0 < p.1 := by
  induction ks using payload.induct with
  | case1 a b rest ih => exact List.forall_mem_cons.2 ⟨Nat.zero_lt_succ _, ih⟩
  | case2 a => exact List.forall_mem_singleton.2 (Nat.zero_lt_succ _)
  | case3 => exact fun _ hp => nomatch hp

/-! ## SER.PAD (43_serializer.md R167) -/

theorem plan_serPad_of_record (hv : s.vrecOk = false) : plan .serPad s = .error .invalidVersionRecord := if_pos hv

theorem plan_serPad_of_capacity (hv : s.vrecOk = true) (h : s.CAPBITS < s.bbLen.toNat) :
    plan .serPad s = .error .capacityExceeded := (if_neg (ne_false_of_eq_true hv)).trans (if_pos h)

theorem plan_serPad (hv : s.vrecOk = true) (h : s.bbLen.toNat ≤ s.CAPBITS) :
    plan .serPad s = .ok (appends s.bbLen.toNat (padding s.bbLen.toNat s.CAPBITS)) :=
  (if_neg (ne_false_of_eq_true hv)).trans (if_neg (Nat.not_lt_of_le h))

theorem msbFirst_zero (n : Nat) : msbFirst n 0 = List.replicate n false := by
  simp only [msbFirst, Nat.zero_testBit, List.map_const', List.length_range]

/-- An append of zeros that is left out when there are none. -/
theorem bitsOf_zeros {c : Prop} [Decidable c] {n : Nat} (h : ¬ c → n = 0) :
    bitsOf (if c then [(n, 0)] else []) = List.replicate n false := by
  split
  · rw [bitsOf_singleton, msbFirst_zero]
  · next hc => rw [h hc]; rfl

/-- From the k-th pad byte on they alternate with the parity of their number. -/
theorem bitsOf_padBytes (k count : Nat) : bitsOf (padBytes (decide (k % 2 = 0)) count) =
    (List.range' k count).flatMap fun j => msbFirst 8 (padByte j) := by
  induction count generalizing k with
  | zero => rfl
  | succ count ih =>
    have hparity : (!decide (k % 2 = 0)) = decide ((k + 1) % 2 = 0) := by
      rw [← decide_not]; exact decide_eq_decide.2 (by omega)
    rw [padBytes, bitsOf_cons, hparity, ih, List.range'_succ, List.flatMap_cons]
    simp only [padByte, decide_eq_true_eq]

/-- The zeros of the terminator and of the alignment are one run up to a byte boundary, or to the capacity when the
terminator is cut short. -/
theorem bitsOf_padding {len cap : Nat} (hcap : cap % 8 = 0) (h : len ≤ cap) :
    bitsOf (padding len cap) = padBits len cap := by
  have hzeros : min 4 (cap - len) + (8 - (len + min 4 (cap - len)) % 8) % 8 =
      if len + 4 ≤ cap then (len + 4 + 7) / 8 * 8 - len else cap - len := by
    split <;> omega
  simp only [padding, padBits, bitsOf_append, ← hzeros, List.replicate_add, Nat.add_assoc]
  rw [bitsOf_zeros Nat.eq_zero_of_not_pos, bitsOf_zeros not_not.1, List.range_eq_range',
    ← bitsOf_padBytes 0]
  rfl

theorem padBytes_width_pos (even : Bool) (count : Nat) : ∀ p ∈ padBytes even count, 0 < p.1 := by
  induction count generalizing even with
  | zero => exact fun _ hp => nomatch hp
  | succ count ih => exact List.forall_mem_cons.2 ⟨Nat.zero_lt_succ _, ih _⟩

theorem zeros_width_pos {c : Prop} [Decidable c] {n : Nat} (h : c → 0 < n) :
    ∀ p ∈ (if c then [(n, 0)] else []), 0 < p.1 := by
  split
  · next hc => exact List.forall_mem_singleton.2 (h hc)
  · exact fun _ hp => nomatch hp

theorem padding_width_pos (len cap : Nat) : ∀ p ∈ padding len cap, 0 < p.1 :=
  List.forall_mem_append.2
    ⟨List.forall_mem_append.2 ⟨zeros_width_pos id, zeros_width_pos Nat.pos_of_ne_zero⟩, padBytes_width_pos _ _⟩

end Sys2Proof.Machine
end

section

open Sys2Proof Sys2Proof.Machine

namespace Sys2Proof.Proofs

/-- Settles O31: past its checks the plan is two appends, the indicator and the count. -/
theorem serHdrAppendsTheHeaderOrRaises : Obligations.SerHdrAppendsTheHeaderOrRaises := by
  refine ⟨decodesAs_of_arm fun w h => by rw [decode, h]; rfl, fun mode s =>
    ⟨fun hmode => raises_of_plan_error _ s _ (plan_serHdr_of_mode hmode),
      fun hv => raises_of_plan_error _ s _ (plan_serHdr_of_record hv),
      fun hv hcount => raises_of_plan_error _ s _ (plan_serHdr_of_capacity hv (.inl hcount)),
      fun hv hfull => raises_of_plan_error _ s _ (plan_serHdr_of_capacity hv (.inr hfull)),
      fun hv hcount hfit => ?_⟩⟩
  have hwidth : ∀ p ∈ [(4, alnumIndicator), (ccbits s.V, s.charLen.toNat)], 0 < p.1 :=
    List.forall_mem_cons.2 ⟨by decide, List.forall_mem_singleton.2 (ccbits_pos s.V)⟩
  rw [← bitsOf_header]
  exact exec_appends_of_planSound (planSerHdr_sound _ s) (plan_serHdr hv hcount hfit) hwidth

/-- Settles O32: the plan looks up every character, then appends the payload of their indexes. -/
theorem serAlnAppendsThePayloadOrRaises : Obligations.SerAlnAppendsThePayloadOrRaises := by
  refine ⟨decodesAs_of_arm fun w h => by rw [decode, h]; rfl, fun s =>
    ⟨fun hv => raises_of_plan_error _ s _ (plan_serAln_of_record hv),
      fun hv hchar => raises_of_plan_error _ s _ (plan_serAln_of_character hv hchar),
      fun hv hlegal hfull => raises_of_plan_error _ s _ ((plan_serAln_of_legal hv hlegal).trans (if_pos hfull)),
      fun hv hlegal hfit => ?_⟩⟩
  have hplan := (plan_serAln_of_legal hv hlegal).trans (if_neg (Nat.not_lt_of_le hfit))
  have happend := exec_appends_of_planSound (planSerAln_sound s) hplan (payload_width_pos _)
  rwa [bitsOf_payload] at happend

/-- Settles O33: the plan appends the padding, which fills a capacity of whole bytes exactly. -/
theorem serPadFillsToCapacityOrRaises : Obligations.SerPadFillsToCapacityOrRaises := by
  refine ⟨decodesAs_of_arm fun w h => by rw [decode, h]; rfl, fun s =>
    ⟨fun hv => raises_of_plan_error _ s _ (plan_serPad_of_record hv),
      fun hv hfull => raises_of_plan_error _ s _ (plan_serPad_of_capacity hv hfull), fun hv hfit => ?_⟩⟩
  have hcap : s.CAPBITS % 8 = 0 := Nat.mul_mod_right 8 _
  obtain ⟨t, hexec, happended⟩ :=
    exec_appends_of_planSound (planSerPad_sound s) (plan_serPad hv hfit) (padding_width_pos _ _)
  refine ⟨t, hexec, bitsOf_padding hcap hfit ▸ happended, ?_⟩
  rw [happended.len, bitsOf_length, appendedBits_padding hcap hfit]

end Sys2Proof.Proofs
end

section
/-! SUPPORT. The plans of the BLK commands, the runs of ECCBUF that belong to the blocks, and the interleaving read
block by block instead of column by column (44_blocks.md R183-R187). -/

namespace Sys2Proof.Machine

variable {s : State}

/-! ## Runs of elements, block after block -/

theorem cells_add (s : State) (b : Buf) (start m n : Nat) :
    s.cells b start (m + n) = s.cells b start m ++ s.cells b (start + m) n := by
  simp only [State.cells, List.range_add, List.map_append, List.map_map, Function.comp_def, Nat.add_assoc]

@[simp] theorem cells_length (s : State) (b : Buf) (start n : Nat) : (s.cells b start n).length = n := by
  rw [State.cells, List.length_map, List.length_range]

/-- A run of `n` blocks of `e` elements. -/
theorem cells_mul (s : State) (b : Buf) (n e : Nat) :
    s.cells b 0 (n * e) = (List.range n).flatMap fun k => s.cells b (k * e) e := by
  induction n with
  | zero => rw [Nat.zero_mul]; rfl
  | succ n ih => rw [Nat.succ_mul, cells_add, ih, List.range_succ, List.flatMap_append, List.flatMap_singleton,
      Nat.zero_add]

/-- A run of the blocks' sizes (10_state.md R47). -/
theorem cells_OFF (s : State) (b : Buf) (n : Nat) :
    s.cells b 0 (s.OFF n) = (List.range n).flatMap fun k => s.cells b (s.OFF k) (s.SIZE k) := by
  induction n with
  | zero => rfl
  | succ n ih => rw [State.OFF, cells_add, ih, List.range_succ, List.flatMap_append, List.flatMap_singleton,
      Nat.zero_add]

/-- Blocks of one length are told apart by their concatenation. -/
theorem cells_block_of_cells_mul {b : Buf} {n e : Nat} {f : Nat → List Byte} (hlen : ∀ k, (f k).length = e)
    (h : s.cells b 0 (n * e) = (List.range n).flatMap f) {k : Nat} (hk : k < n) : s.cells b (k * e) e = f k := by
  have hblocks : (List.range n).map (fun k => s.cells b (k * e) e) = (List.range n).map f :=
    List.eq_iff_flatten_eq.2 ⟨by rw [← List.flatMap_def, ← List.flatMap_def, ← cells_mul, h],
      by simp only [List.map_map, Function.comp_def, cells_length, hlen]⟩
  exact List.map_inj_left.1 hblocks k (List.mem_range.2 hk)

/-- A run stored from the start of a buffer of bytes on: that buffer alone changes, it starts with the run, and its
elements past the run are kept. -/
theorem exists_applyAll_putRun_zero {b : Buf} (hb : bufMask b = 0xFF) (vs : List Byte) (s : State) :
    ∃ t m, applyAll s (putRun b 0 vs) = t ∧ t = { s with bufs := s.bufs.set b m } ∧ t.cells b 0 vs.length = vs ∧
      ∀ c i, ¬ (c = b ∧ i < vs.length) → t.cell c i = s.cell c i := by
  obtain ⟨m, hm⟩ := applyAll_of_putsInto (putsInto_putRun b 0 vs) s
  refine ⟨_, m, rfl, hm, cells_applyAll_putRun hb 0 vs s, fun c i hout => ?_⟩
  rw [applyAll_putRun_cell, Nat.zero_add]
  exact if_neg fun ⟨hc, _, hi⟩ => hout ⟨hc, hi⟩

/-! ## BLK.ECC (44_blocks.md R184) -/

theorem putRun_append (b : Buf) (start : Nat) (us vs : List Byte) :
    putRun b start (us ++ vs) = putRun b start us ++ putRun b (start + us.length) vs := by
  induction us generalizing start with
  | nil => rfl
  | cons u us ih =>
    rw [List.cons_append, putRun, putRun, ih, List.length_cons, List.cons_append, Nat.add_right_comm, Nat.add_assoc]

/-- The ECC of consecutive blocks is one run of writes. -/
theorem blockEccWrites_range' {gen : List Byte} {ecc : Nat → List Byte}
    (hecc : ∀ b, rsEcc (blockData s b) s.ECCPB gen = .ok (ecc b)) (hlen : ∀ b, (ecc b).length = s.ECCPB)
    (b n : Nat) : blockEccWrites s gen (List.range' b n) =
      .ok (putRun .eccbuf (b * s.ECCPB) ((List.range' b n).flatMap ecc)) := by
  induction n generalizing b with
  | zero => rfl
  | succ n ih =>
    rw [List.range'_succ, blockEccWrites, hecc, ih, List.flatMap_cons, putRun_append, hlen, Nat.succ_mul]

theorem plan_blkEcc_of_record (hv : s.vrecOk = false) : plan .blkEcc s = .error .invalidVersionRecord := if_pos hv

theorem plan_blkEcc_of_length (hv : s.vrecOk = true) (h : s.bbLen.toNat ≠ s.CAPBITS) :
    plan .blkEcc s = .error .sequenceError := (if_neg (ne_false_of_eq_true hv)).trans (if_pos h)

/-- Past the checks, with a coherent cache, the blocks' ECC is one run from the start of ECCBUF. -/
theorem plan_blkEcc (hcache : CacheOk s) (hv : s.vrecOk = true) (h : s.bbLen.toNat = s.CAPBITS)
    {ecc : Nat → List Byte} (hecc : ∀ b, rsEcc (blockData s b) s.ECCPB (generator s.ECCPB) = .ok (ecc b))
    (hlen : ∀ b, (ecc b).length = s.ECCPB) : plan .blkEcc s =
      .ok (.genCache (extendCache s.genCache s.ECCPB) :: putRun .eccbuf 0 ((List.range s.NBLK).flatMap ecc)) := by
  refine (if_neg (ne_false_of_eq_true hv)).trans ((if_neg (not_not.2 h)).trans ?_)
  simp only [cachedGen_extendCache hcache, List.range_eq_range', blockEccWrites_range' hecc hlen, Nat.zero_mul,
    Except.map]

/-! ## BLK.WEAVE (44_blocks.md R185) -/

theorem plan_blkWeave_of_record (hv : s.vrecOk = false) : plan .blkWeave s = .error .invalidVersionRecord := if_pos hv

theorem plan_blkWeave_of_length (hv : s.vrecOk = true) (h : s.bbLen.toNat ≠ s.CAPBITS) :
    plan .blkWeave s = .error .sequenceError := (if_neg (ne_false_of_eq_true hv)).trans (if_pos h)

theorem plan_blkWeave (hv : s.vrecOk = true) (h : s.bbLen.toNat = s.CAPBITS) :
    plan .blkWeave s = .ok (putRun .cwbuf 0 (interleave s) ++ [.cwLen (rawCw s.V)]) := by
  rw [← interleave_length_of_vrecOk s hv]
  exact (if_neg (ne_false_of_eq_true hv)).trans (if_neg (not_not.2 h))

/-! ## The order of the interleaving (44_blocks.md R186) -/

/-- Column by column or block by block, the elements are the same. -/
theorem flatMap_flatMap_perm_comm {α β γ : Type} (l : List α) (m : List β) (f : α → β → List γ) :
    (l.flatMap fun a => m.flatMap fun b => f a b).Perm (m.flatMap fun b => l.flatMap fun a => f a b) := by
  have hswap := Multiset.bind_bind (l : Multiset α) (m : Multiset β) (f := fun a b => (f a b : Multiset γ))
  simp only [Multiset.coe_bind] at hswap
  exact Multiset.coe_eq_coe.1 hswap

/-- The columns that a block of size `k` takes part in are the first `k`. -/
theorem flatMap_columns_below {α : Type} (f : Nat → α) {k m : Nat} (h : k ≤ m) :
    ((List.range m).flatMap fun col => if col < k then [f col] else []) = (List.range k).map f := by
  obtain ⟨d, rfl⟩ := Nat.exists_eq_add_of_le h
  have hbelow : ((List.range k).flatMap fun col => if col < k then [f col] else []) = (List.range k).map f := by
    rw [List.map_eq_flatMap]
    exact List.flatMap_congr fun col hcol => if_pos (List.mem_range.1 hcol)
  have habove : (((List.range d).map (k + ·)).flatMap fun col => if col < k then [f col] else []) = [] :=
    List.flatMap_eq_nil_iff.2 (List.forall_mem_map.2 fun _ _ => if_neg (Nat.not_lt_of_le (Nat.le_add_right ..)))
  rw [List.range_add, List.flatMap_append, hbelow, habove, List.append_nil]

/-- The data part of the interleaving holds the data bytes. -/
theorem dataColumns_perm (s : State) :
    ((List.range (maxSize s)).flatMap fun col =>
      (List.range s.NBLK).flatMap fun b => if col < s.SIZE b then [s.cell .bitbuf (s.OFF b + col)] else []).Perm
      (s.cells .bitbuf 0 s.DATA_TOTAL) := by
  rw [← OFF_NBLK, cells_OFF]
  refine (flatMap_flatMap_perm_comm ..).trans (.of_eq (List.flatMap_congr fun b hb => ?_))
  exact flatMap_columns_below _ (le_foldl_max_range s.SIZE s.NBLK b (List.mem_range.1 hb))

/-- The ECC part of the interleaving holds the ECC bytes. -/
theorem eccColumns_perm (s : State) :
    ((List.range s.ECCPB).flatMap fun col =>
      (List.range s.NBLK).map fun b => s.cell .eccbuf (b * s.ECCPB + col)).Perm
      (s.cells .eccbuf 0 (s.NBLK * s.ECCPB)) := by
  simp only [cells_mul]
  simp only [State.cells, List.map_eq_flatMap]
  exact flatMap_flatMap_perm_comm ..

end Sys2Proof.Machine
end

section

open Sys2Proof Sys2Proof.Machine

namespace Sys2Proof.Proofs

/-- Settles O36: the data part and the ECC part are each read block by block instead of column by column. -/
theorem interleaveIsAPermutation : Obligations.InterleaveIsAPermutation := fun s _ =>
  (dataColumns_perm s).append (eccColumns_perm s)

/-- Settles O34: past the checks the plan extends the cache and stores the blocks' ECC as one run of ECCBUF. -/
theorem blkEccWritesEveryBlocksEccOrRaises : Obligations.BlkEccWritesEveryBlocksEccOrRaises := by
  refine ⟨decodesAs_of_arm fun w h => by rw [decode, h]; rfl, fun s =>
    ⟨fun hv => raises_of_plan_error _ s _ (plan_blkEcc_of_record hv),
      fun hv hlen => raises_of_plan_error _ s _ (plan_blkEcc_of_length hv hlen), fun hcache hv hcap => ?_⟩⟩
  obtain ⟨-, -, he, -⟩ := (vrecOk_iff s).1 hv
  choose ecc hecc hlen using fun b => rsEcc_generator (blockData s b) he
  have hexec := exec_of_plan_ok _ s _ (plan_blkEcc hcache hv hcap hecc hlen)
  obtain ⟨t, m, happly, rfl, hrun, hkept⟩ := exists_applyAll_putRun_zero (b := .eccbuf) rfl
    ((List.range s.NBLK).flatMap ecc) { s with genCache := extendCache s.genCache s.ECCPB }
  have htotal : ((List.range s.NBLK).flatMap ecc).length = s.NBLK * s.ECCPB := by
    simp only [List.length_flatMap, hlen, List.map_const', List.length_range, List.sum_replicate, smul_eq_mul]
  rw [htotal] at hrun hkept
  rw [applyAll_cons, Write.apply, happly] at hexec
  exact ⟨_, hexec, fun b hb => (hecc b).trans (congrArg Except.ok (cells_block_of_cells_mul hlen hrun hb).symm),
    hkept, extendCache_coherent hcache _, extendCache_length _ _, rfl⟩

/-- Settles O35: past the checks the plan stores the interleaving as one run of CWBUF, then its length. -/
theorem blkWeaveWritesTheInterleavedCodewordsOrRaises :
    Obligations.BlkWeaveWritesTheInterleavedCodewordsOrRaises := by
  refine ⟨decodesAs_of_arm fun w h => by rw [decode, h]; rfl, fun s =>
    ⟨fun hv => raises_of_plan_error _ s _ (plan_blkWeave_of_record hv),
      fun hv hlen => raises_of_plan_error _ s _ (plan_blkWeave_of_length hv hlen), fun hv hcap => ?_⟩⟩
  obtain ⟨-, hV, -⟩ := (vrecOk_iff s).1 hv
  have hlen := interleave_length_of_vrecOk s hv
  have hexec := exec_of_plan_ok _ s _ (plan_blkWeave hv hcap)
  obtain ⟨t, m, happly, rfl, hrun, hkept⟩ := exists_applyAll_putRun_zero (b := .cwbuf) rfl (interleave s) s
  rw [hlen] at hrun hkept
  rw [applyAll_append, happly] at hexec
  exact ⟨_, hexec, Nat.mod_eq_of_lt ((rawCw_le s.V hV).trans_lt (by decide)), hrun, hkept, rfl⟩

end Sys2Proof.Proofs
end

section
/-! SUPPORT. What stores into the matrix leave in its cells: one cell after a list of stores, and the lists that store
each cell at most one value (45_placement.md R201). -/

namespace Sys2Proof.Machine

variable {N r c : Nat} {ws : List Write} {p : Nat → Nat → Option Byte}

/-! ## One cell after a list of stores -/

theorem matIndex_inj {r' c' : Nat} (hc : c < 256) (hc' : c' < 256) :
    matIndex r c = matIndex r' c' ↔ r = r' ∧ c = c' := by unfold matIndex; omega

theorem putMat_inj {r' c' : Nat} {v v' : Byte} (hc : c < 256) (hc' : c' < 256) :
    putMat r c v = putMat r' c' v' ↔ r = r' ∧ c = c' ∧ v = v' := by
  simp only [putMat, Write.put.injEq, matIndex_inj hc hc', true_and, and_assoc]

theorem matCell_apply_putMat (s : State) {r' c' : Nat} (v : Byte) (hc : c < 256) (hc' : c' < 256) :
    ((putMat r' c' v).apply (fun _ => true) s).matCell r c = if r = r' ∧ c = c' then v &&& 7 else s.matCell r c := by
  simp only [putMat, Write.apply, State.matCell, if_true, cell_putCell, matIndex_inj hc hc', true_and, bufMask]

/-- After a list of stores, a cell holds the value of one of them, or none of them was to it and it is kept. -/
theorem matCell_applyAll_cases (hws : ∀ w ∈ ws, ∃ r c v, c < 256 ∧ w = putMat r c v) (hc : c < 256) (s : State) :
    (∃ v, putMat r c v ∈ ws ∧ (applyAll s ws).matCell r c = v &&& 7) ∨
    ((∀ v, putMat r c v ∉ ws) ∧ (applyAll s ws).matCell r c = s.matCell r c) := by
  induction ws generalizing s with
  | nil => exact .inr ⟨fun _ => List.not_mem_nil, rfl⟩
  | cons w ws ih =>
    obtain ⟨⟨r', c', v', hc', rfl⟩, htail⟩ := List.forall_mem_cons.1 hws
    rcases ih htail ((putMat r' c' v').apply (fun _ => true) s) with ⟨v, hmem, hcell⟩ | ⟨hnone, hcell⟩
    · exact .inl ⟨v, List.mem_cons_of_mem _ hmem, hcell⟩
    · rw [matCell_apply_putMat s v' hc hc'] at hcell
      by_cases hrc : r = r' ∧ c = c'
      · obtain ⟨rfl, rfl⟩ := hrc
        exact .inl ⟨v', List.mem_cons_self, hcell.trans (if_pos ⟨rfl, rfl⟩)⟩
      · refine .inr ⟨fun v hmem => ?_, hcell.trans (if_neg hrc)⟩
        rcases List.mem_cons.1 hmem with heq | hmem
        · obtain ⟨rfl, rfl, -⟩ := (putMat_inj hc hc').1 heq
          exact hrc ⟨rfl, rfl⟩
        · exact hnone v hmem

theorem matCell_and_seven (s : State) (r c : Nat) : s.matCell r c &&& 7 = s.matCell r c :=
  BitVec.and_assoc .. |>.trans rfl

/-! ## Lists that store each cell at most one value -/

/-- The list stores `v` in cell (r, c) of the symbol of side `N` when `p r c` is `some v`, and makes no other write. -/
structure Draws (N : Nat) (p : Nat → Nat → Option Byte) (ws : List Write) : Prop where
  mem_iff : ∀ w, w ∈ ws ↔ ∃ r c v, p r c = some v ∧ w = putMat r c v
  legal : ∀ r c v, p r c = some v → (r < N ∧ c < N) ∧ v &&& 7 = v

/-- Nothing is drawn outside the symbol (45_placement.md R200). -/
theorem Draws.eq_none (h : Draws N p ws) (hout : ¬ (r < N ∧ c < N)) : p r c = none :=
  Option.eq_none_iff_forall_ne_some.2 fun v hv => hout (h.legal r c v hv).1

theorem Draws.putsInto (h : Draws N p ws) : PutsInto .mat ws := fun w hw =>
  let ⟨r, c, v, _, hw⟩ := (h.mem_iff w).1 hw
  ⟨matIndex r c, v, hw⟩

/-- A drawn cell holds what was drawn, and every other cell is kept. -/
theorem Draws.matCell (h : Draws N p ws) (hN : N ≤ 256) (hc : c < 256) (s : State) :
    (applyAll s ws).matCell r c = (p r c).getD (s.matCell r c) := by
  have hws : ∀ w ∈ ws, ∃ r c v, c < 256 ∧ w = putMat r c v := fun w hw => by
    obtain ⟨r', c', v, hv, hw⟩ := (h.mem_iff w).1 hw
    exact ⟨r', c', v, (h.legal r' c' v hv).1.2.trans_le hN, hw⟩
  rcases matCell_applyAll_cases hws hc s with ⟨v, hmem, hcell⟩ | ⟨hnone, hcell⟩
  · obtain ⟨r', c', v', hv, heq⟩ := (h.mem_iff _).1 hmem
    obtain ⟨⟨-, hc'⟩, hlegal⟩ := h.legal r' c' v' hv
    obtain ⟨rfl, rfl, rfl⟩ := (putMat_inj hc (hc'.trans_le hN)).1 heq
    rw [hcell, hv, hlegal, Option.getD_some]
  · have hp : p r c = none := Option.eq_none_iff_forall_ne_some.2 fun v hv =>
      hnone v ((h.mem_iff _).2 ⟨r, c, v, hv, rfl⟩)
    rw [hcell, hp, Option.getD_none]

/-- A list that stores one value in each cell of a region of the symbol. -/
theorem draws_region {region : Nat → Nat → Prop} [∀ r c, Decidable (region r c)] {v : Nat → Nat → Byte}
    (hmem : ∀ w, w ∈ ws ↔ ∃ r c, region r c ∧ w = putMat r c (v r c))
    (hlegal : ∀ r c, region r c → (r < N ∧ c < N) ∧ v r c &&& 7 = v r c) :
    Draws N (fun r c => if region r c then some (v r c) else none) ws where
  mem_iff w := by
    simp only [hmem, Option.ite_none_right_eq_some, Option.some.injEq]
    exact exists_congr fun r => exists_congr fun c =>
      ⟨fun ⟨hrc, hw⟩ => ⟨_, ⟨hrc, rfl⟩, hw⟩, fun ⟨_, ⟨hrc, hv⟩, hw⟩ => ⟨hrc, hv ▸ hw⟩⟩
  legal r c u hu := by
    obtain ⟨hrc, rfl⟩ := Option.ite_none_right_eq_some.1 hu |>.imp_right Option.some.inj
    exact hlegal r c hrc

/-- A search finds the only element that it can find. -/
theorem find?_eq_some_iff_of_unique {α : Type} {l : List α} {q : α → Bool} {a : α}
    (huniq : ∀ a ∈ l, ∀ b ∈ l, q a = true → q b = true → a = b) : l.find? q = some a ↔ a ∈ l ∧ q a = true := by
  refine ⟨fun h => ⟨List.mem_of_find?_eq_some h, List.find?_some h⟩, fun ⟨ha, hq⟩ => ?_⟩
  obtain ⟨b, hb⟩ := Option.isSome_iff_exists.1 (List.find?_isSome.2 ⟨a, ha, hq⟩)
  rw [hb, huniq b (List.mem_of_find?_eq_some hb) a ha (List.find?_some hb) hq]

/-- A list that draws figures which do not overlap: the figure of `a` has the cells that `a` covers. -/
theorem draws_find? {α : Type} {l : List α} {covers : α → Nat → Nat → Bool} {v : α → Nat → Nat → Byte}
    (hmem : ∀ w, w ∈ ws ↔ ∃ a ∈ l, ∃ r c, covers a r c = true ∧ w = putMat r c (v a r c))
    (hlegal : ∀ a ∈ l, ∀ r c, covers a r c = true → (r < N ∧ c < N) ∧ v a r c &&& 7 = v a r c)
    (huniq : ∀ r c, ∀ a ∈ l, ∀ b ∈ l, covers a r c = true → covers b r c = true → a = b) :
    Draws N (fun r c => (l.find? (covers · r c)).map (v · r c)) ws where
  mem_iff w := by
    simp only [hmem, Option.map_eq_some_iff, find?_eq_some_iff_of_unique (huniq _ _)]
    exact ⟨fun ⟨a, ha, r, c, hrc, hw⟩ => ⟨r, c, _, ⟨a, ⟨ha, hrc⟩, rfl⟩, hw⟩,
      fun ⟨r, c, _, ⟨a, ⟨ha, hrc⟩, hv⟩, hw⟩ => ⟨a, ha, r, c, hrc, hv ▸ hw⟩⟩
  legal r c u hu := by
    obtain ⟨a, ha, rfl⟩ := Option.map_eq_some_iff.1 hu
    exact hlegal a (List.mem_of_find?_eq_some ha) r c (List.find?_some (p := (covers · r c)) ha)

end Sys2Proof.Machine
end

section
/-! SUPPORT. The function patterns, each as the cells that it draws (45_placement.md R201-R208). -/

namespace Sys2Proof.Machine

variable {N V r c : Nat}

theorem moduleCell_and_seven (dark : Bool) : moduleCell dark &&& 7 = moduleCell dark := by cases dark <;> rfl

theorem moduleCell_not_reserved (dark : Bool) : (moduleCell dark).getLsbD 2 = false := by cases dark <;> rfl

theorem drawModule_eq (r c : Nat) (dark : Bool) : drawModule r c dark = putMat r c (moduleCell dark) := by
  cases dark <;> rfl

/-! ## The timing patterns (45_placement.md R203) -/

theorem draws_timing (hN : 6 < N) : Draws N (fun r c => if r = 6 ∧ c < N ∨ c = 6 ∧ r < N then
      some (if r = 6 then moduleCell (c % 2 == 0) else moduleCell (r % 2 == 0)) else none) (drawTiming N) := by
  refine draws_region (fun w => ?_) fun r c hrc => ⟨by omega, by split <;> exact moduleCell_and_seven _⟩
  have hcolumn : ∀ i, (if i = 6 then moduleCell (6 % 2 == 0) else moduleCell (i % 2 == 0)) = moduleCell (i % 2 == 0) :=
    fun i => ite_eq_right_iff.2 fun h => by rw [h]
  simp only [drawTiming, List.mem_flatMap, List.mem_range, List.mem_cons, List.not_mem_nil, or_false, drawModule_eq]
  constructor
  · rintro ⟨i, hi, rfl | rfl⟩
    · exact ⟨6, i, .inl ⟨rfl, hi⟩, rfl⟩
    · exact ⟨i, 6, .inr ⟨rfl, hi⟩, by rw [hcolumn]⟩
  · rintro ⟨r, c, ⟨rfl, hc⟩ | ⟨rfl, hr⟩, rfl⟩
    · exact ⟨c, hc, .inl rfl⟩
    · exact ⟨r, hr, .inr (by rw [hcolumn])⟩

/-! ## Squares around a centre -/

theorem near_iff {d cr cc : Nat} : near d cr cc r c = true ↔
    ∃ i < 2 * d + 1, ∃ j < 2 * d + 1, r + d = cr + i ∧ c + d = cc + j := by
  simp only [near, Bool.and_eq_true, decide_eq_true_eq]
  unfold dist
  exact ⟨fun h => ⟨r + d - cr, by omega, c + d - cc, by omega, by omega, by omega⟩,
    fun ⟨i, hi, j, hj, hr, hc⟩ => by omega⟩

/-- The centres of two squares that share a cell are at most twice their radius apart. -/
theorem centres_close {d : Nat} {p q : Nat × Nat} (hp : near d p.1 p.2 r c = true) (hq : near d q.1 q.2 r c = true) :
    (p.1 ≤ q.1 + 2 * d ∧ q.1 ≤ p.1 + 2 * d) ∧ p.2 ≤ q.2 + 2 * d ∧ q.2 ≤ p.2 + 2 * d := by
  obtain ⟨i, hi, j, hj, hr, hc⟩ := near_iff.1 hp
  obtain ⟨i', hi', j', hj', hr', hc'⟩ := near_iff.1 hq
  omega

theorem max_sub_min_eq_dist {d i k x : Nat} (h : x + d = k + i) : max i d - min i d = dist k x := by
  unfold dist; omega

/-- The model's distance between offsets is the distance of the cells. -/
theorem chebyshev_eq {d cr cc i j : Nat} (hr : r + d = cr + i) (hc : c + d = cc + j) :
    chebyshev d i j = max (dist cr r) (dist cc c) := by
  rw [chebyshev, max_sub_min_eq_dist hr, max_sub_min_eq_dist hc]

/-! ## The finders (45_placement.md R204) -/

/-- The finder at centre `p` has cell (r, c) of the symbol. -/
def finderCovers (N : Nat) (p : Nat × Nat) (r c : Nat) : Bool :=
  decide (r < N ∧ c < N) && near 4 p.1 p.2 r c

/-- A cell of the finder at centre `p`. -/
def finderCell (p : Nat × Nat) (r c : Nat) : Byte :=
  moduleCell (max (dist p.1 r) (dist p.2 c) != 2 && max (dist p.1 r) (dist p.2 c) != 4)

theorem mem_drawFinder (N : Nat) (p : Nat × Nat) (w : Write) : w ∈ drawFinder N p.1 p.2 ↔
    ∃ r c, finderCovers N p r c = true ∧ w = putMat r c (finderCell p r c) := by
  simp only [drawFinder, List.mem_flatMap, List.mem_range, List.mem_ite_nil_right, List.mem_singleton, finderCovers,
    Bool.and_eq_true, decide_eq_true_eq, near_iff, drawModule_eq]
  constructor
  · rintro ⟨i, hi, j, hj, ⟨hr, hrN, hc, hcN⟩, rfl⟩
    refine ⟨_, _, ⟨⟨hrN, hcN⟩, i, hi, j, hj, Nat.sub_add_cancel hr, Nat.sub_add_cancel hc⟩, ?_⟩
    rw [chebyshev_eq (Nat.sub_add_cancel hr) (Nat.sub_add_cancel hc), finderCell]
  · rintro ⟨r, c, ⟨⟨hrN, hcN⟩, i, hi, j, hj, hr, hc⟩, rfl⟩
    have hri : p.1 + i - 4 = r := by omega
    have hcj : p.2 + j - 4 = c := by omega
    refine ⟨i, hi, j, hj, ⟨by omega, hri ▸ hrN, by omega, hcj ▸ hcN⟩, ?_⟩
    rw [chebyshev_eq hr hc, hri, hcj, finderCell]

theorem draws_finders (hN : 21 ≤ N) : Draws N (fun r c =>
      ([(3, 3), (3, N - 4), (N - 4, 3)].find? (finderCovers N · r c)).map (finderCell · r c)) (drawFinders N) := by
  refine draws_find? (fun w => ?_) (fun p _ r c hrc => ⟨?_, moduleCell_and_seven _⟩) fun r c p hp q hq hrp hrq => ?_
  · simp only [drawFinders, List.mem_append, mem_drawFinder N (_, _), List.exists_mem_cons_iff, List.not_mem_nil,
      false_and, exists_false, or_false, or_assoc]
  · exact of_decide_eq_true (Bool.and_eq_true_iff.1 hrc).1
  · obtain ⟨h1, h2⟩ := centres_close (Bool.and_eq_true_iff.1 hrp).2 (Bool.and_eq_true_iff.1 hrq).2
    simp only [List.mem_cons, List.not_mem_nil, or_false, Prod.ext_iff] at hp hq
    exact Prod.ext (by omega) (by omega)

/-- Inside the symbol the finder of a cell is the one of its square. -/
theorem find?_finderCovers (h : r < N ∧ c < N) :
    [(3, 3), (3, N - 4), (N - 4, 3)].find? (finderCovers N · r c) = finderAt N r c := by
  simp only [finderCovers, h, and_self, decide_true, Bool.true_and, finderAt]

/-! ## The alignment patterns (45_placement.md R202, R205) -/

/-- Only the first coordinate is 6, only the last is N - 7, and patterns at different coordinates do not touch. -/
theorem alignPos_separated : ∀ V ∈ List.range' 1 40,
    (∀ a < (alignPos V).length, ((alignPos V).getD a 0 = 6 ↔ a = 0) ∧
      ((alignPos V).getD a 0 = sideOf V - 7 ↔ a = (alignPos V).length - 1)) ∧
    ∀ p ∈ alignPos V, (6 ≤ p ∧ p + 7 ≤ sideOf V) ∧ ∀ q ∈ alignPos V, p = q ∨ p + 5 ≤ q ∨ q + 5 ≤ p := by
  decide +kernel

/-- The centres of the alignment patterns: all pairs of coordinates but the three that fall on finders. -/
def alignCentres (V : Nat) : List (Nat × Nat) :=
  ((alignPos V).product (alignPos V)).filter fun p =>
    p != (6, 6) && p != (6, sideOf V - 7) && p != (sideOf V - 7, 6)

theorem mem_alignCentres {p : Nat × Nat} : p ∈ alignCentres V ↔ (p.1 ∈ alignPos V ∧ p.2 ∈ alignPos V) ∧
    ¬ (p.1 = 6 ∧ p.2 = 6 ∨ p.1 = 6 ∧ p.2 = sideOf V - 7 ∨ p.1 = sideOf V - 7 ∧ p.2 = 6) := by
  obtain ⟨x, y⟩ := p
  simp only [alignCentres, List.mem_filter, List.pair_mem_product, Bool.and_eq_true, bne_iff_ne, ne_eq,
    Prod.mk.injEq, not_or, and_assoc]

/-- A cell of the alignment pattern at centre `p`. -/
def alignmentCell (p : Nat × Nat) (r c : Nat) : Byte := moduleCell (max (dist p.1 r) (dist p.2 c) != 1)

theorem mem_drawAlignment {p : Nat × Nat} (hr : 2 ≤ p.1) (hc : 2 ≤ p.2) (w : Write) : w ∈ drawAlignment p.1 p.2 ↔
    ∃ r c, near 2 p.1 p.2 r c = true ∧ w = putMat r c (alignmentCell p r c) := by
  simp only [drawAlignment, List.mem_flatMap, List.mem_map, List.mem_range, near_iff, drawModule_eq]
  constructor
  · rintro ⟨i, hi, j, hj, rfl⟩
    have hri : p.1 + i - 2 + 2 = p.1 + i := Nat.sub_add_cancel (by omega)
    have hcj : p.2 + j - 2 + 2 = p.2 + j := Nat.sub_add_cancel (by omega)
    exact ⟨_, _, ⟨i, hi, j, hj, hri, hcj⟩, by rw [chebyshev_eq hri hcj, alignmentCell]⟩
  · rintro ⟨r, c, ⟨i, hi, j, hj, hri, hcj⟩, rfl⟩
    refine ⟨i, hi, j, hj, ?_⟩
    rw [chebyshev_eq hri hcj, ← hri, ← hcj, Nat.add_sub_cancel, Nat.add_sub_cancel, alignmentCell]

/-- The model skips the corner pairs by their number, which are the pairs that fall on finders. -/
theorem mem_drawAlignments (hV : 1 ≤ V) (hV40 : V ≤ 40) (w : Write) :
    w ∈ drawAlignments V ↔ ∃ p ∈ alignCentres V, w ∈ drawAlignment p.1 p.2 := by
  obtain ⟨hends, -⟩ := alignPos_separated V (List.mem_range'_1.2 ⟨hV, by omega⟩)
  simp only [drawAlignments, List.mem_flatMap, List.mem_range, List.mem_ite_nil_left, mem_alignCentres]
  constructor
  · rintro ⟨a, ha, b, hb, hcorner, hw⟩
    refine ⟨((alignPos V).getD a 0, (alignPos V).getD b 0), ⟨⟨?_, ?_⟩, ?_⟩, hw⟩
    · rw [List.getD_eq_getElem _ 0 ha]; exact List.getElem_mem ha
    · rw [List.getD_eq_getElem _ 0 hb]; exact List.getElem_mem hb
    · simpa only [(hends a ha).1, (hends a ha).2, (hends b hb).1, (hends b hb).2] using hcorner
  · rintro ⟨⟨x, y⟩, ⟨⟨hx, hy⟩, hcorner⟩, hw⟩
    obtain ⟨a, ha, rfl⟩ := List.getElem_of_mem hx
    obtain ⟨b, hb, rfl⟩ := List.getElem_of_mem hy
    simp only [← List.getD_eq_getElem _ 0] at hcorner hw
    refine ⟨a, ha, b, hb, ?_, hw⟩
    simpa only [(hends a ha).1, (hends a ha).2, (hends b hb).1, (hends b hb).2] using hcorner

theorem draws_alignments (hV : 1 ≤ V) (hV40 : V ≤ 40) : Draws (sideOf V)
    (fun r c => (alignmentAt V r c).map (alignmentCell · r c)) (drawAlignments V) := by
  obtain ⟨-, hpos⟩ := alignPos_separated V (List.mem_range'_1.2 ⟨hV, by omega⟩)
  refine draws_find? (l := alignCentres V) (fun w => ?_) (fun p hp r c hrc => ⟨?_, moduleCell_and_seven _⟩)
    fun r c p hp q hq hrp hrq => ?_
  · rw [mem_drawAlignments hV hV40]
    refine exists_congr fun p => and_congr_right fun hp => mem_drawAlignment ?_ ?_ w
    · exact le_trans (by decide) (hpos _ (mem_alignCentres.1 hp).1.1).1.1
    · exact le_trans (by decide) (hpos _ (mem_alignCentres.1 hp).1.2).1.1
  · obtain ⟨⟨h1, h2⟩, -⟩ := mem_alignCentres.1 hp
    obtain ⟨⟨-, h1⟩, -⟩ := hpos _ h1
    obtain ⟨⟨-, h2⟩, -⟩ := hpos _ h2
    obtain ⟨i, hi, j, hj, hr, hc⟩ := near_iff.1 hrc
    omega
  · obtain ⟨⟨hp1, hp2⟩, -⟩ := mem_alignCentres.1 hp
    obtain ⟨⟨hq1, hq2⟩, -⟩ := mem_alignCentres.1 hq
    obtain ⟨h1, h2⟩ := centres_close hrp hrq
    exact Prod.ext (((hpos _ hp1).2 _ hq1).resolve_right (by omega)) (((hpos _ hp2).2 _ hq2).resolve_right (by omega))

/-! ## The format and version information (45_placement.md R206, R208) -/

/-- The two places of bit `i` of the format word. -/
def formatPlaces (N i : Nat) : List (Nat × Nat) := [copyA i, copyB N i]

/-- The two places of bit `i` of the version word. -/
def versionPlaces (N i : Nat) : List (Nat × Nat) := [verA N i, verB N i]

theorem eq_copyA_iff {i : Nat} : (r, c) = copyA i ↔ i ≤ 5 ∧ r = i ∧ c = 8 ∨ i = 6 ∧ r = 7 ∧ c = 8 ∨
    i = 7 ∧ r = 8 ∧ c = 8 ∨ i = 8 ∧ r = 8 ∧ c = 7 ∨ 9 ≤ i ∧ r = 8 ∧ c = 14 - i := by
  unfold copyA
  split_ifs <;> rw [Prod.mk.injEq] <;> omega

theorem eq_copyB_iff {i : Nat} : (r, c) = copyB N i ↔
    i ≤ 7 ∧ r = 8 ∧ c = N - 1 - i ∨ 8 ≤ i ∧ r = N - 15 + i ∧ c = 8 := by
  unfold copyB
  split <;> rw [Prod.mk.injEq] <;> omega

theorem mem_formatPlaces {i : Nat} : (r, c) ∈ formatPlaces N i ↔ (r, c) = copyA i ∨ (r, c) = copyB N i := by
  simp only [formatPlaces, List.mem_cons, List.not_mem_nil, or_false]

theorem mem_versionPlaces {i : Nat} : (r, c) ∈ versionPlaces N i ↔
    r = i / 3 ∧ c = N - 11 + i % 3 ∨ r = N - 11 + i % 3 ∧ c = i / 3 := by
  simp only [versionPlaces, verA, verB, List.mem_cons, List.not_mem_nil, or_false, Prod.mk.injEq]

theorem copyA_inj {i j : Nat} (hi : i < 15) (hj : j < 15) (hri : (r, c) = copyA i) (hrj : (r, c) = copyA j) :
    i = j := by
  rw [eq_copyA_iff] at hri hrj
  rcases hri with h | h | h | h | h <;> omega

theorem copyB_inj (hN : 21 ≤ N) {i j : Nat} (hri : (r, c) = copyB N i) (hrj : (r, c) = copyB N j) : i = j := by
  rw [eq_copyB_iff] at hri hrj
  omega

theorem copyA_ne_copyB (hN : 21 ≤ N) {i j : Nat} (hi : i < 15) (hri : (r, c) = copyA i) : (r, c) ≠ copyB N j := by
  intro hrj
  have hcorner : r ≤ 8 ∧ c ≤ 8 := by rw [eq_copyA_iff] at hri; omega
  rw [eq_copyB_iff] at hrj
  omega

/-- No cell has two bits of the format word. -/
theorem formatPlaces_disjoint (hN : 21 ≤ N) {i j : Nat} (hi : i < 15) (hj : j < 15)
    (hri : (r, c) ∈ formatPlaces N i) (hrj : (r, c) ∈ formatPlaces N j) : i = j := by
  rcases mem_formatPlaces.1 hri with hri | hri <;> rcases mem_formatPlaces.1 hrj with hrj | hrj
  · exact copyA_inj hi hj hri hrj
  · exact absurd hrj (copyA_ne_copyB hN hi hri)
  · exact absurd hri (copyA_ne_copyB hN hj hrj)
  · exact copyB_inj hN hri hrj

/-- No cell has two bits of the version word. -/
theorem versionPlaces_disjoint (hN : 45 ≤ N) {i j : Nat} (hj : j < 18)
    (hri : (r, c) ∈ versionPlaces N i) (hrj : (r, c) ∈ versionPlaces N j) : i = j := by
  rw [mem_versionPlaces] at hri hrj
  omega

theorem formatPlaces_lt (hN : 21 ≤ N) {i : Nat} (hi : i < 15) (h : (r, c) ∈ formatPlaces N i) : r < N ∧ c < N := by
  rw [mem_formatPlaces, eq_copyA_iff, eq_copyB_iff] at h
  omega

theorem versionPlaces_lt (hN : 45 ≤ N) {i : Nat} (hi : i < 18) (h : (r, c) ∈ versionPlaces N i) : r < N ∧ c < N := by
  rw [mem_versionPlaces] at h
  omega

/-- The format information modules are the places of the format word's bits. -/
theorem isFormat_iff (hN : 21 ≤ N) : isFormat N r c = true ↔ ∃ i < 15, (r, c) ∈ formatPlaces N i := by
  simp only [isFormat, Bool.or_eq_true, Bool.and_eq_true, beq_iff_eq, bne_iff_ne, decide_eq_true_eq]
  constructor
  · simp only [mem_formatPlaces, eq_copyA_iff, eq_copyB_iff]
    rintro (⟨hc, ⟨hr, hr6⟩ | hr⟩ | ⟨hr, ⟨hc, hc6⟩ | hc⟩)
    · rcases (by omega : r ≤ 5 ∨ r = 7 ∨ r = 8) with h | h | h
      · exact ⟨r, by omega, .inl (.inl ⟨h, rfl, hc⟩)⟩
      · exact ⟨6, by omega, .inl (.inr (.inl ⟨rfl, h, hc⟩))⟩
      · exact ⟨7, by omega, .inl (.inr (.inr (.inl ⟨rfl, h, hc⟩)))⟩
    · exact ⟨r + 15 - N, by omega, .inr (.inr (by omega))⟩
    · rcases (by omega : c ≤ 5 ∨ c = 7 ∨ c = 8) with h | h | h
      · exact ⟨14 - c, by omega, .inl (.inr (.inr (.inr (.inr (by omega)))))⟩
      · exact ⟨8, by omega, .inl (.inr (.inr (.inr (.inl ⟨rfl, hr, h⟩))))⟩
      · exact ⟨7, by omega, .inl (.inr (.inr (.inl ⟨rfl, hr, h⟩)))⟩
    · exact ⟨N - 1 - c, by omega, .inr (.inl (by omega))⟩
  · rintro ⟨i, hi, h⟩
    rw [mem_formatPlaces, eq_copyA_iff, eq_copyB_iff] at h
    rcases h with (⟨h, hr, hc⟩ | ⟨h, hr, hc⟩ | ⟨h, hr, hc⟩ | ⟨h, hr, hc⟩ | ⟨h, hr, hc⟩) | ⟨h, hr, hc⟩ | ⟨h, hr, hc⟩
    · exact .inl ⟨hc, .inl (by omega)⟩
    · exact .inl ⟨hc, .inl (by omega)⟩
    · exact .inl ⟨hc, .inl (by omega)⟩
    · exact .inr ⟨hr, .inl (by omega)⟩
    · exact .inr ⟨hr, .inl (by omega)⟩
    · exact .inr ⟨hr, .inr (by omega)⟩
    · exact .inl ⟨hc, .inr (by omega)⟩

theorem isVersionArea_iff (hV : 7 ≤ V) : isVersionArea V (sideOf V) r c = true ↔
    ∃ i < 18, (r, c) ∈ versionPlaces (sideOf V) i := by
  simp only [isVersionArea, Bool.or_eq_true, Bool.and_eq_true, decide_eq_true_eq]
  unfold sideOf
  constructor
  · rintro ⟨-, ⟨⟨hr, hc⟩, hc'⟩ | ⟨⟨hr, hc⟩, hc'⟩⟩
    · exact ⟨3 * r + (c - (4 * V + 17 - 11)), by omega, by rw [mem_versionPlaces]; omega⟩
    · exact ⟨3 * c + (r - (4 * V + 17 - 11)), by omega, by rw [mem_versionPlaces]; omega⟩
  · rintro ⟨i, hi, h⟩
    rw [mem_versionPlaces] at h
    omega

/-- One value for each of `n` bits, stored at all the places of the bit. -/
theorem draws_places {n : Nat} {places : Nat → List (Nat × Nat)} {v : Nat → Byte}
    (hlt : ∀ i < n, ∀ r c, (r, c) ∈ places i → r < N ∧ c < N) (hv : ∀ i, v i &&& 7 = v i)
    (hdisjoint : ∀ i < n, ∀ j < n, ∀ r c, (r, c) ∈ places i → (r, c) ∈ places j → i = j) :
    Draws N (fun r c => ((List.range n).find? fun i => decide ((r, c) ∈ places i)).map v)
      ((List.range n).flatMap fun i => (places i).map fun rc => putMat rc.1 rc.2 (v i)) := by
  refine draws_find? (covers := fun i r c => decide ((r, c) ∈ places i)) (v := fun i _ _ => v i)
    (fun w => ?_) (fun i hi r c h => ?_) fun r c i hi j hj hri hrj => ?_
  · simp only [List.mem_flatMap, List.mem_map, decide_eq_true_eq, Prod.exists, eq_comm (a := w)]
  · exact ⟨hlt i (List.mem_range.1 hi) r c (of_decide_eq_true h), hv i⟩
  · exact hdisjoint i (List.mem_range.1 hi) j (List.mem_range.1 hj) r c (of_decide_eq_true hri) (of_decide_eq_true hrj)

end Sys2Proof.Machine
end

section
/-! SUPPORT. The symbol that PL.INIT and PL.FMT draw: the bits of the format and version words by cell, and the
function patterns one over the other (45_placement.md R206-R210, R217). -/

namespace Sys2Proof.Machine

variable {N V r c : Nat}

/-! ## Which bit of the format or version word a cell has -/

/-- The bit of the format word at (r, c), if there is one. -/
def formatBitAt (N r c : Nat) : Option Nat := (List.range 15).find? fun i => decide ((r, c) ∈ formatPlaces N i)

/-- The bit of the version word at (r, c), if there is one. -/
def versionBitAt (V r c : Nat) : Option Nat :=
  if 7 ≤ V then (List.range 18).find? fun i => decide ((r, c) ∈ versionPlaces (sideOf V) i) else none

theorem formatBitAt_isSome (hN : 21 ≤ N) : (formatBitAt N r c).isSome = isFormat N r c := by
  rw [Bool.eq_iff_iff, isFormat_iff hN, formatBitAt, List.find?_isSome]
  simp only [List.mem_range, decide_eq_true_eq]

theorem versionBitAt_isSome : (versionBitAt V r c).isSome = isVersionArea V (sideOf V) r c := by
  by_cases hV : 7 ≤ V
  · rw [Bool.eq_iff_iff, isVersionArea_iff hV, versionBitAt, if_pos hV, List.find?_isSome]
    simp only [List.mem_range, decide_eq_true_eq]
  · simp only [versionBitAt, isVersionArea, hV, if_false, Option.isSome_none, decide_false, Bool.false_and]

theorem formatBitAt_of_mem (hN : 21 ≤ N) {i : Nat} (hi : i < 15) (h : (r, c) ∈ formatPlaces N i) :
    formatBitAt N r c = some i :=
  (find?_eq_some_iff_of_unique fun _ ha _ hb hra hrb => formatPlaces_disjoint hN (List.mem_range.1 ha)
    (List.mem_range.1 hb) (of_decide_eq_true hra) (of_decide_eq_true hrb)).2 ⟨List.mem_range.2 hi, decide_eq_true h⟩

theorem versionBitAt_of_mem (hV : 7 ≤ V) {i : Nat} (hi : i < 18) (h : (r, c) ∈ versionPlaces (sideOf V) i) :
    versionBitAt V r c = some i :=
  have hN : 45 ≤ sideOf V := by unfold sideOf; omega
  (if_pos hV).trans <| (find?_eq_some_iff_of_unique fun _ _ _ hb hra hrb => versionPlaces_disjoint hN
    (List.mem_range.1 hb) (of_decide_eq_true hra) (of_decide_eq_true hrb)).2 ⟨List.mem_range.2 hi, decide_eq_true h⟩

/-- Format and version information do not overlap: only the former has cells in row or column 8. -/
theorem isVersionArea_eq_false_of_isFormat (h : isFormat (sideOf V) r c = true) :
    isVersionArea V (sideOf V) r c = false := by
  simp only [isFormat, Bool.or_eq_true, Bool.and_eq_true, beq_iff_eq] at h
  refine Bool.eq_false_iff.2 fun hversion => ?_
  simp only [isVersionArea, Bool.or_eq_true, Bool.and_eq_true, decide_eq_true_eq] at hversion
  unfold sideOf at hversion
  rcases h with ⟨h, -⟩ | ⟨h, -⟩ <;> omega

theorem versionBitAt_eq_none_of_format {i : Nat} (h : formatBitAt (sideOf V) r c = some i) (hN : 21 ≤ sideOf V) :
    versionBitAt V r c = none := by
  have hformat : isFormat (sideOf V) r c = true := by rw [← formatBitAt_isSome hN, h, Option.isSome_some]
  rw [← Option.isNone_iff_eq_none, ← Option.isSome_eq_false_iff, versionBitAt_isSome,
    isVersionArea_eq_false_of_isFormat hformat]

theorem draws_format (hN : 21 ≤ N) {v : Nat → Byte} (hv : ∀ i, v i &&& 7 = v i) :
    Draws N (fun r c => (formatBitAt N r c).map v)
      ((List.range 15).flatMap fun i => (formatPlaces N i).map fun rc => putMat rc.1 rc.2 (v i)) :=
  draws_places (fun _ hi _ _ => formatPlaces_lt hN hi) hv fun _ hi _ hj _ _ => formatPlaces_disjoint hN hi hj

theorem draws_nil : Draws N (fun _ _ => none) [] where
  mem_iff _ := ⟨fun h => absurd h List.not_mem_nil, fun ⟨_, _, _, h, _⟩ => nomatch h⟩
  legal _ _ _ h := nomatch h

/-- The version information is drawn for V ≥ 7 only. -/
theorem draws_version {v : Nat → Byte} (hv : ∀ i, v i &&& 7 = v i) :
    Draws (sideOf V) (fun r c => (versionBitAt V r c).map v) (if 7 ≤ V then (List.range 18).flatMap fun i =>
      (versionPlaces (sideOf V) i).map fun rc => putMat rc.1 rc.2 (v i) else []) := by
  unfold versionBitAt
  split
  · next hV =>
    have hN : 45 ≤ sideOf V := by unfold sideOf; omega
    exact draws_places (fun _ hi _ _ => versionPlaces_lt hN hi) hv fun _ _ _ hj _ _ => versionPlaces_disjoint hN hj
  · exact draws_nil

theorem draws_reserveFormat (hN : 21 ≤ N) :
    Draws N (fun r c => (formatBitAt N r c).map fun _ => 6) (reserveFormat N) := draws_format hN fun _ => rfl

theorem draws_reserveVersion : Draws (sideOf V) (fun r c => (versionBitAt V r c).map fun _ => 6)
    (if 7 ≤ V then reserveVersion (sideOf V) else []) := draws_version fun _ => rfl

/-! ## The function patterns together (45_placement.md R210) -/

theorem draws_darkModule (hN : 21 ≤ N) : Draws N (fun r c => if r = N - 8 ∧ c = 8 then some 3 else none)
    [drawModule (N - 8) 8 true] := by
  refine draws_region (fun w => ?_) fun r c h => ⟨by omega, rfl⟩
  rw [List.mem_singleton]
  exact ⟨fun h => ⟨_, _, ⟨rfl, rfl⟩, h⟩, fun ⟨_, _, ⟨hr, hc⟩, h⟩ => hr ▸ hc ▸ h⟩

/-- The last pattern drawn over a cell is the one it shows. -/
theorem matCell_functionPatterns (hV : 1 ≤ V) (hV40 : V ≤ 40) (hc : c < 256) {s : State} (hs : s.matCell r c = 0) :
    (applyAll s (functionPatterns V)).matCell r c = initCell V r c := by
  have hN : 21 ≤ sideOf V ∧ sideOf V ≤ 256 := by unfold sideOf; omega
  have htiming := draws_timing (N := sideOf V) (by omega)
  have hfinders := draws_finders hN.1
  have halign := draws_alignments hV hV40
  have hformat := draws_reserveFormat hN.1
  have hdark := draws_darkModule hN.1
  have hversion := draws_reserveVersion (V := V)
  rw [functionPatterns, applyAll_append, applyAll_append, applyAll_append, applyAll_append, applyAll_append,
    hversion.matCell hN.2 hc, hdark.matCell hN.2 hc, hformat.matCell hN.2 hc, halign.matCell hN.2 hc,
    hfinders.matCell hN.2 hc, htiming.matCell hN.2 hc, hs]
  by_cases hin : r < sideOf V ∧ c < sideOf V
  · rw [find?_finderCovers hin, initCell, if_neg (not_not.2 hin)]
    simp only [← versionBitAt_isSome, ← formatBitAt_isSome hN.1]
    cases versionBitAt V r c with
    | some i => rfl
    | none =>
      by_cases hdark : r = sideOf V - 8 ∧ c = 8
      · simp only [hdark, and_self, if_true]; rfl
      simp only [hdark, if_false]
      cases formatBitAt (sideOf V) r c with
      | some i => rfl
      | none =>
        cases alignmentAt V r c with
        | some p => rfl
        | none =>
          cases finderAt (sideOf V) r c with
          | some p => rfl
          | none =>
            by_cases hr : r = 6
            · simp only [hr, hin.2, and_self, true_or, if_true]; rfl
            · by_cases hc : c = 6
              · simp only [hr, hc, hin.1, and_self, or_true, if_true, if_false]; rfl
              · simp only [hr, hc, false_and, or_self, if_false]; rfl
  · rw [hversion.eq_none hin, hdark.eq_none hin, hformat.eq_none hin, halign.eq_none hin, hfinders.eq_none hin,
      htiming.eq_none hin, initCell, if_pos hin]
    rfl

end Sys2Proof.Machine
end

section
/-! SUPPORT. The zig-zag sweep and the codeword bits that it places (45_placement.md R211, R213). -/

namespace Sys2Proof.Machine

variable {s : State} {N right r c : Nat}

/-! ## The sweep (45_placement.md R211) -/

theorem mem_zigzagPair : (r, c) ∈ zigzagPair s N right ↔
    (r < N ∧ (c = right ∨ c = right - 1)) ∧ s.isFunc r c = false := by
  simp only [zigzagPair, List.mem_flatMap, List.mem_range, List.mem_filter, List.mem_cons, List.not_mem_nil, or_false,
    Prod.mk.injEq, Bool.not_eq_true']
  constructor
  · rintro ⟨vert, hvert, hrc, hfunc⟩
    refine ⟨?_, hfunc⟩
    split at hrc <;> omega
  · rintro ⟨⟨hr, hc⟩, hfunc⟩
    refine ⟨if (right + 1) / 2 % 2 = 0 then N - 1 - r else r, ?_, ?_, hfunc⟩
    · split <;> omega
    · split <;> omega

/-- The cells of a pair lie in different rows, or in one row in its two columns. -/
theorem zigzagPair_nodup (hright : 1 ≤ right) : (zigzagPair s N right).Nodup := by
  refine List.nodup_flatMap.2 ⟨fun vert _ => List.Nodup.filter _ ?_, ?_⟩
  · simp only [List.nodup_cons, List.mem_singleton, Prod.mk.injEq, true_and, List.not_mem_nil, not_false_eq_true,
      List.nodup_nil, and_true]
    omega
  · refine List.Pairwise.imp_of_mem (fun {u v} hu hv hne => ?_) List.nodup_range
    rintro ⟨r, c⟩ hru hrv
    have hu := List.mem_range.1 hu
    have hv := List.mem_range.1 hv
    simp only [List.mem_filter, List.mem_cons, List.not_mem_nil, or_false, Prod.mk.injEq] at hru hrv
    refine hne ?_
    obtain ⟨hru, -⟩ := hru
    obtain ⟨hrv, -⟩ := hrv
    split at hru <;> split at hrv <;> omega

/-- Where the right column of a pair may stand: the columns right of the timing column in pairs from N - 1 = 4V + 16
down, those left of it from 5 down, and 0 after the last pair. -/
def SweepColumn (right : Nat) : Prop := right = 0 ∨ right % 2 = if right < 6 then 1 else 0

/-- From a column on, the sweep visits the data cells of that column and those left of it but column 6, each once. -/
theorem zigzagFrom_spec (fuel : Nat) (hcol : SweepColumn right) (hfuel : right ≤ 2 * fuel) :
    (zigzagFrom s N fuel right).Nodup ∧ ∀ r c, (r, c) ∈ zigzagFrom s N fuel right ↔
      (r < N ∧ 1 ≤ right ∧ c ≤ right ∧ c ≠ 6) ∧ s.isFunc r c = false := by
  induction fuel generalizing right with
  | zero =>
    exact ⟨List.nodup_nil, fun r c => ⟨fun h => absurd h List.not_mem_nil, fun h => by omega⟩⟩
  | succ fuel ih =>
    unfold zigzagFrom
    split
    · exact ⟨List.nodup_nil, fun r c => ⟨fun h => absurd h List.not_mem_nil, fun h => by omega⟩⟩
    · dsimp only
      generalize hpair : (if right = 6 then 5 else right) = pair
      have hcases : right = 6 ∧ pair = 5 ∨ right ≠ 6 ∧ pair = right := by split at hpair <;> omega
      have hcol' : SweepColumn (pair - 2) := by
        unfold SweepColumn at hcol ⊢
        split at hcol <;> split <;> omega
      obtain ⟨hnodup, hmem⟩ := ih hcol' (by omega)
      refine ⟨List.nodup_append.2 ⟨zigzagPair_nodup (by omega), hnodup, ?_⟩, fun r c => ?_⟩
      · rintro ⟨r, c⟩ hrc _ hrc' rfl
        rw [mem_zigzagPair] at hrc
        rw [hmem] at hrc'
        omega
      · rw [List.mem_append, mem_zigzagPair, hmem, ← or_and_right]
        refine and_congr_left fun _ => ?_
        unfold SweepColumn at hcol
        split at hcol <;> omega

/-- The sweep from the right edge of the symbol visits each data cell off column 6 once (45_placement.md R211). -/
theorem zigzag_spec (s : State) : (zigzag s s.N).Nodup ∧ ∀ r c, (r, c) ∈ zigzag s s.N ↔
    (r < s.N ∧ c < s.N ∧ c ≠ 6) ∧ s.isFunc r c = false := by
  have hside : s.N = 4 * s.V + 17 := rfl
  have hcol : SweepColumn (s.N - 1) := .inr (by split <;> omega)
  obtain ⟨hnodup, hmem⟩ := zigzagFrom_spec (s := s) (N := s.N) s.N hcol (by omega)
  refine ⟨hnodup, fun r c => (hmem r c).trans (and_congr_left fun _ => ?_)⟩
  omega

theorem zigzag_lt (s : State) {r c : Nat} (h : (r, c) ∈ zigzag s s.N) : r < s.N ∧ c < s.N := by
  obtain ⟨⟨hr, hc, -⟩, -⟩ := ((zigzag_spec s).2 r c).1 h
  exact ⟨hr, hc⟩

/-! ## The codeword bits (20_memory.md R67, 45_placement.md R213) -/

theorem codewordBits_length (cw : List Byte) : (codewordBits cw).length = 8 * cw.length := by
  simp only [codewordBits, List.length_flatMap, List.length_map, List.length_range, List.map_const', List.sum_replicate,
    smul_eq_mul, Nat.mul_comm]

/-- Bit `k` is bit `k % 8` of codeword `k / 8`, most significant first. -/
theorem codewordBits_getElem? (cw : List Byte) (k : Nat) :
    (codewordBits cw)[k]? = cw[k / 8]?.map fun v => msbBit v (k % 8) := by
  induction cw generalizing k with
  | nil => rfl
  | cons v cw ih =>
    rw [codewordBits, List.flatMap_cons]
    by_cases hk : k < 8
    · rw [List.getElem?_append_left (by simpa using hk), List.getElem?_map, List.getElem?_range hk,
        Nat.div_eq_of_lt hk, Nat.mod_eq_of_lt hk]
      rfl
    · obtain ⟨j, rfl⟩ := Nat.exists_eq_add_of_le' (Nat.le_of_not_lt hk)
      rw [List.getElem?_append_right (by simp), List.length_map, List.length_range, Nat.add_sub_cancel,
        Nat.add_div_right j (by decide), Nat.add_mod_right, List.getElem?_cons_succ]
      exact ih j

theorem cells_getElem? (s : State) (b : Buf) {n k : Nat} (hk : k < n) :
    (s.cells b 0 n)[k]? = some (s.cell b k) := by
  rw [State.cells, List.getElem?_map, List.getElem?_range hk, Option.map_some, Nat.zero_add]

/-- The cell that shows a codeword bit. -/
def bitCell (b : Bool) : Byte := if b then DARK else 0

theorem idxOf_eq_of_getElem? {α : Type} [BEq α] [LawfulBEq α] {l : List α} (hl : l.Nodup) {k : Nat} {a : α}
    (h : l[k]? = some a) : l.idxOf a = k := by
  obtain ⟨hk, rfl⟩ := List.getElem?_eq_some_iff.1 h
  exact hl.idxOf_getElem k hk

theorem draws_lightCells {cells : List (Nat × Nat)} (hin : ∀ r c, (r, c) ∈ cells → r < N ∧ c < N) :
    Draws N (fun r c => if (r, c) ∈ cells then some 0 else none) (cells.map fun rc => putMat rc.1 rc.2 0) :=
  draws_region (fun w => by simp only [List.mem_map, Prod.exists, eq_comm (a := w)])
    fun r c h => ⟨hin r c h, rfl⟩

/-- Bits placed in distinct cells: the cell of number `k` takes bit `k`. -/
theorem draws_bits {cells : List (Nat × Nat)} {bits : List Bool} (hnodup : cells.Nodup)
    (hin : ∀ r c, (r, c) ∈ cells → r < N ∧ c < N) (hlen : bits.length ≤ cells.length) :
    Draws N (fun r c => bits[cells.idxOf (r, c)]?.map bitCell)
      (List.zipWith (fun rc b => putMat rc.1 rc.2 (if b then DARK else 0)) cells bits) where
  mem_iff w := by
    simp only [List.mem_iff_getElem?, List.getElem?_zipWith_eq_some, Option.map_eq_some_iff]
    constructor
    · rintro ⟨k, ⟨r, c⟩, b, hrc, hb, rfl⟩
      exact ⟨r, c, bitCell b, ⟨b, by rw [idxOf_eq_of_getElem? hnodup hrc]; exact hb, rfl⟩, rfl⟩
    · rintro ⟨r, c, _, ⟨b, hb, rfl⟩, rfl⟩
      have hk := (List.getElem?_eq_some_iff.1 hb).1.trans_le hlen
      exact ⟨_, (r, c), b, List.getElem?_idxOf (List.idxOf_lt_length_iff.1 hk), hb, rfl⟩
  legal r c v hv := by
    obtain ⟨b, hb, rfl⟩ := Option.map_eq_some_iff.1 hv
    have hk := (List.getElem?_eq_some_iff.1 hb).1
    exact ⟨hin r c (List.idxOf_lt_length_iff.1 (hk.trans_le hlen)), by cases b <;> rfl⟩

end Sys2Proof.Machine
end

section
/-! SUPPORT. The plans of the PL commands check by check, and what they leave in the matrix
(45_placement.md R210, R213, R214, R217, R218). -/

namespace Sys2Proof.Machine

variable {s : State} {m : Fin 8}

/-! ## What the commands share -/

theorem cell_set_other (s : State) {b c : Buf} (h : c ≠ b) (mem : Memory) (i : Nat) :
    State.cell { s with bufs := s.bufs.set b mem } c i = s.cell c i := by
  rw [State.cell, get_set_other _ _ _ _ h, State.cell]

/-- A command whose plan stores into the matrix alone changes that and the command cycle. -/
theorem exec_of_plan_matrix {i : Instr} {ws : List Write} (hplan : plan i s = .ok ws) (hputs : PutsInto .mat ws) :
    ∃ t, exec i s = .next t ∧ (∀ r c, t.matCell r c = (applyAll s ws).matCell r c) ∧
      (∀ b i, b ≠ .mat → t.cell b i = s.cell b i) ∧
      t = { commandCycle s with bufs := { s.bufs with mat := t.bufs.mat } } := by
  obtain ⟨mem, happly⟩ := applyAll_of_putsInto hputs s
  refine ⟨_, exec_of_plan_ok i s ws hplan, fun _ _ => rfl, fun b k hb => ?_, by rw [happly]; rfl⟩
  rw [complete_cell, happly, cell_set_other s hb]

/-- The symbol lies inside the matrix (45_placement.md R200). -/
theorem N_bounds (hv : s.vrecOk = true) : 21 ≤ s.N ∧ s.N ≤ 256 := by
  obtain ⟨hV, hV40, -⟩ := (vrecOk_iff s).1 hv
  unfold State.N sideOf
  omega

/-! ## PL.INIT (45_placement.md R210) -/

theorem plan_plInit_of_record (hv : s.vrecOk = false) : plan .plInit s = .error .invalidVersionRecord := if_pos hv

theorem plan_plInit (hv : s.vrecOk = true) :
    plan .plInit s = .ok (.clear .mat :: functionPatterns s.V ++ [.matVer s.V]) := if_neg (ne_false_of_eq_true hv)

/-- PL.INIT sets the matrix, which shows the function patterns of the version cell by cell, and MATVER. -/
theorem exec_plInit (hv : s.vrecOk = true) : ∃ mem,
    exec .plInit s = .next { commandCycle s with
      matVer := BitVec.ofNat 6 s.V, bufs := s.bufs.set .mat mem } ∧
    ∀ r, ∀ c < 256, State.matCell { s with bufs := s.bufs.set .mat mem } r c = initCell s.V r c := by
  obtain ⟨hV, hV40, -⟩ := (vrecOk_iff s).1 hv
  obtain ⟨mem, happly⟩ := applyAll_of_putsInto (putsInto_functionPatterns s.V) (s.clearBuf .mat fun _ => true)
  have hclear : ∀ r c, (s.clearBuf .mat fun _ => true).matCell r c = 0 := fun r c =>
    (cell_clearBuf ..).trans (if_pos ⟨rfl, rfl⟩)
  refine ⟨mem, (exec_of_plan_ok _ s _ (plan_plInit hv)).trans ?_, fun r c hc => ?_⟩
  · rw [applyAll_append]
    change Host.Outcome.next (complete (applyAll (applyAll (s.clearBuf .mat fun _ => true) _) _)) = _
    rw [happly]
    rfl
  · rw [← matCell_functionPatterns hV hV40 hc (hclear r c), happly]
    rfl

/-- The symbol that PL.INIT draws has no module reserved but for the format and version information. -/
theorem initCell_not_reserved {V r c : Nat} (hformat : isFormat (sideOf V) r c = false)
    (hversion : isVersionArea V (sideOf V) r c = false) : (initCell V r c).getLsbD 2 = false := by
  simp only [initCell, hformat, hversion, Bool.false_eq_true, if_false]
  split
  · rfl
  split
  · rfl
  cases alignmentAt V r c with
  | some p => exact moduleCell_not_reserved _
  | none =>
    cases finderAt (sideOf V) r c with
    | some p => exact moduleCell_not_reserved _
    | none =>
      dsimp only
      split
      · exact moduleCell_not_reserved _
      split
      · exact moduleCell_not_reserved _
      · rfl

/-! ## PL.PLACE (45_placement.md R213) -/

theorem plan_plPlace_of_record (hv : s.vrecOk = false) : plan .plPlace s = .error .invalidVersionRecord := if_pos hv

theorem plan_plPlace_of_sequence (hv : s.vrecOk = true) (hm : s.matVer.toNat ≠ s.V) :
    plan .plPlace s = .error .sequenceError := (if_neg (ne_false_of_eq_true hv)).trans (if_pos hm)

theorem plan_plPlace_of_length (hv : s.vrecOk = true) (hm : s.matVer.toNat = s.V)
    (h : (zigzag s s.N).length < 8 * s.cwLen.toNat) : plan .plPlace s = .error .invalidLength :=
  (if_neg (ne_false_of_eq_true hv)).trans ((if_neg (not_not.2 hm)).trans (if_pos h))

theorem plan_plPlace (hv : s.vrecOk = true) (hm : s.matVer.toNat = s.V)
    (h : 8 * s.cwLen.toNat ≤ (zigzag s s.N).length) : plan .plPlace s =
      .ok ((zigzag s s.N).map (fun rc => putMat rc.1 rc.2 0) ++
        List.zipWith (fun rc b => putMat rc.1 rc.2 (if b then DARK else 0)) (zigzag s s.N)
          (codewordBits (s.cells .cwbuf 0 s.cwLen.toNat))) :=
  (if_neg (ne_false_of_eq_true hv)).trans ((if_neg (not_not.2 hm)).trans (if_neg (Nat.not_lt_of_le h)))

/-! ## PL.MASK (45_placement.md R214) -/

theorem plan_plMask_of_record (hv : s.vrecOk = false) : plan (.plMask m) s = .error .invalidVersionRecord := if_pos hv

theorem plan_plMask_of_sequence (hv : s.vrecOk = true) (hm : s.matVer.toNat ≠ s.V) :
    plan (.plMask m) s = .error .sequenceError := (if_neg (ne_false_of_eq_true hv)).trans (if_pos hm)

/-- The writes of PL.MASK. -/
def maskWrites (m : Fin 8) (s : State) : List Write :=
  (List.range s.N).flatMap fun r => (List.range s.N).flatMap fun c =>
    if !s.isFunc r c && maskCond m r c then [putMat r c (s.matCell r c ^^^ DARK)] else []

theorem plan_plMask (hv : s.vrecOk = true) (hm : s.matVer.toNat = s.V) :
    plan (.plMask m) s = .ok (maskWrites m s) :=
  (if_neg (ne_false_of_eq_true hv)).trans (if_neg (not_not.2 hm))

theorem xor_and_distrib (x y z : Byte) : (x ^^^ y) &&& z = x &&& z ^^^ y &&& z := by
  ext i
  simp only [BitVec.getElem_and, BitVec.getElem_xor, Bool.and_xor_distrib_right]

theorem draws_mask (m : Fin 8) (s : State) : Draws s.N
    (fun r c => if r < s.N ∧ c < s.N ∧ s.isFunc r c = false ∧ maskCond m r c = true
      then some (s.matCell r c ^^^ DARK) else none) (maskWrites m s) := by
  refine draws_region (fun w => ?_) fun r c h => ⟨⟨h.1, h.2.1⟩, ?_⟩
  · simp only [maskWrites, List.mem_flatMap, List.mem_range, List.mem_ite_nil_right, List.mem_singleton,
      Bool.and_eq_true, Bool.not_eq_true']
    exact ⟨fun ⟨r, hr, c, hc, ⟨hf, hmask⟩, hw⟩ => ⟨r, c, ⟨hr, hc, hf, hmask⟩, hw⟩,
      fun ⟨r, c, ⟨hr, hc, hf, hmask⟩, hw⟩ => ⟨r, hr, c, hc, ⟨hf, hmask⟩, hw⟩⟩
  · rw [xor_and_distrib, matCell_and_seven]
    rfl

/-! ## PL.FMT (45_placement.md R217) -/

theorem plan_plFmt_of_record (hv : s.vrecOk = false) : plan (.plFmt m) s = .error .invalidVersionRecord := if_pos hv

theorem plan_plFmt_of_sequence (hv : s.vrecOk = true) (hm : s.matVer.toNat ≠ s.V) :
    plan (.plFmt m) s = .error .sequenceError := (if_neg (ne_false_of_eq_true hv)).trans (if_pos hm)

/-- The writes of PL.FMT for the format word. -/
def formatWrites (m : Fin 8) (s : State) : List Write :=
  (List.range 15).flatMap fun i => (formatPlaces s.N i).map fun rc =>
    putMat rc.1 rc.2 (moduleCell ((fmtWord s.level m).testBit i))

/-- The writes of PL.FMT for the version word. -/
def versionWrites (s : State) : List Write :=
  if 7 ≤ s.V then (List.range 18).flatMap fun i => (versionPlaces s.N i).map fun rc =>
    putMat rc.1 rc.2 (moduleCell ((verWord s.V).testBit i)) else []

theorem plan_plFmt (hv : s.vrecOk = true) (hm : s.matVer.toNat = s.V) :
    plan (.plFmt m) s = .ok (formatWrites m s ++ versionWrites s) := by
  refine ((if_neg (ne_false_of_eq_true hv)).trans (if_neg (not_not.2 hm))).trans ?_
  simp only [writeInfoBit, drawModule_eq, formatWrites, versionWrites, formatPlaces, versionPlaces, List.map_cons,
    List.map_nil]

theorem matCell_fmtWrites (hv : s.vrecOk = true) {c : Nat} (hc : c < 256) (r : Nat) :
    (applyAll s (formatWrites m s ++ versionWrites s)).matCell r c =
      ((versionBitAt s.V r c).map fun i => moduleCell ((verWord s.V).testBit i)).getD
        (((formatBitAt s.N r c).map fun i => moduleCell ((fmtWord s.level m).testBit i)).getD (s.matCell r c)) := by
  obtain ⟨hN, hN256⟩ := N_bounds hv
  have hformat : Draws s.N _ (formatWrites m s) := draws_format hN fun _ => moduleCell_and_seven _
  have hversion : Draws s.N _ (versionWrites s) := draws_version fun _ => moduleCell_and_seven _
  rw [applyAll_append, hversion.matCell hN256 hc, hformat.matCell hN256 hc]

theorem putsInto_fmtWrites (hv : s.vrecOk = true) : PutsInto .mat (formatWrites m s ++ versionWrites s) :=
  putsInto_append (draws_format (N_bounds hv).1 fun _ => moduleCell_and_seven _).putsInto
    (draws_version fun _ => moduleCell_and_seven _).putsInto

end Sys2Proof.Machine
end

section

open Sys2Proof Sys2Proof.Machine

namespace Sys2Proof.Proofs

/-- Settles O39: from its right edge on, each column pair adds the data cells of its two columns. -/
theorem zigzagVisitsEachDataCellOnce : Obligations.ZigzagVisitsEachDataCellOnce := fun s _ _ => by
  obtain ⟨hnodup, hmem⟩ := zigzag_spec s
  exact ⟨hnodup, fun r c => (hmem r c).trans (by simp only [and_assoc])⟩

/-- Settles O37: a cell shows the last pattern drawn over it. -/
theorem plInitDrawsTheFunctionPatternsOrRaises : Obligations.PlInitDrawsTheFunctionPatternsOrRaises := by
  refine ⟨decodesAs_of_arm fun w h => by rw [decode, h]; rfl, fun s =>
    ⟨fun hv => raises_of_plan_error _ s _ (plan_plInit_of_record hv), fun hv => ?_⟩⟩
  obtain ⟨mem, hexec, hcells⟩ := exec_plInit hv
  exact ⟨_, hexec, Nat.mod_eq_of_lt s.version.isLt, fun r _ c hc => hcells r c hc,
    fun b i hb => cell_set_other s hb mem i, rfl⟩

/-- Settles O38: the sweep's cells are distinct, so each takes its own bit. -/
theorem plPlacePlacesTheCodewordBitsOrRaises : Obligations.PlPlacePlacesTheCodewordBitsOrRaises := by
  refine ⟨decodesAs_of_arm fun w h => by rw [decode, h]; rfl, fun s =>
    ⟨fun hv => raises_of_plan_error _ s _ (plan_plPlace_of_record hv),
      fun hv hm => raises_of_plan_error _ s _ (plan_plPlace_of_sequence hv hm),
      fun hv hm hlen => raises_of_plan_error _ s _ (plan_plPlace_of_length hv hm hlen), fun hv hm hlen => ?_⟩⟩
  have hN := (N_bounds hv).2
  obtain ⟨hnodup, -⟩ := zigzag_spec s
  have hin : ∀ r c, (r, c) ∈ zigzag s s.N → r < s.N ∧ c < s.N := fun _ _ => zigzag_lt s
  have hbits : (codewordBits (s.cells .cwbuf 0 s.cwLen.toNat)).length ≤ (zigzag s s.N).length := by
    rwa [codewordBits_length, cells_length]
  have hlight := draws_lightCells hin
  have hplace := draws_bits hnodup hin hbits
  obtain ⟨t, hexec, hcells, hkept, hframe⟩ :=
    exec_of_plan_matrix (plan_plPlace hv hm hlen) (putsInto_append hlight.putsInto hplace.putsInto)
  refine ⟨t, hexec, fun k r c hk => ?_, fun r c hc hout => ?_, hkept, hframe⟩
  · have hrc := List.mem_of_getElem? hk
    have hc := (hin r c hrc).2.trans_le hN
    rw [hcells, applyAll_append, hplace.matCell hN hc, hlight.matCell hN hc, idxOf_eq_of_getElem? hnodup hk,
      if_pos hrc, codewordBits_getElem?]
    by_cases hbit : k < 8 * s.cwLen.toNat
    · rw [cells_getElem? s .cwbuf (Nat.div_lt_of_lt_mul hbit)]
      simp only [hbit, true_and]
      rfl
    · rw [List.getElem?_eq_none (by rw [cells_length]; omega), if_neg fun h => hbit h.1]
      rfl
  · have hidx : (codewordBits (s.cells .cwbuf 0 s.cwLen.toNat))[(zigzag s s.N).idxOf (r, c)]? = none := by
      rw [List.idxOf_eq_length hout]
      exact List.getElem?_eq_none hbits
    rw [hcells, applyAll_append, hplace.matCell hN hc, hlight.matCell hN hc, hidx, if_neg hout]
    rfl

/-- Settles O40: the plan stores the inverted value of each masked data cell. -/
theorem plMaskInvertsTheMaskedDataCellsOrRaises : Obligations.PlMaskInvertsTheMaskedDataCellsOrRaises := by
  refine ⟨decodesAs_of_arm fun w h => by rw [decode, h]; rfl, fun m s =>
    ⟨fun hv => raises_of_plan_error _ s _ (plan_plMask_of_record hv),
      fun hv hm => raises_of_plan_error _ s _ (plan_plMask_of_sequence hv hm), fun hv hm => ?_⟩⟩
  have hmask := draws_mask m s
  obtain ⟨t, hexec, hcells, hkept, hframe⟩ := exec_of_plan_matrix (plan_plMask hv hm) hmask.putsInto
  refine ⟨t, hexec, fun r c hc => ?_, hkept, hframe⟩
  rw [hcells, hmask.matCell (N_bounds hv).2 hc]
  split <;> rfl

/-- Settles O41: no cell is a place of two bits, so each shows its own. -/
theorem plFmtWritesTheFormatAndVersionBitsOrRaises : Obligations.PlFmtWritesTheFormatAndVersionBitsOrRaises := by
  refine ⟨decodesAs_of_arm fun w h => by rw [decode, h]; rfl, fun m s =>
    ⟨fun hv => raises_of_plan_error _ s _ (plan_plFmt_of_record hv),
      fun hv hm => raises_of_plan_error _ s _ (plan_plFmt_of_sequence hv hm), fun hv hm => ?_⟩⟩
  obtain ⟨hN, hN256⟩ := N_bounds hv
  obtain ⟨t, hexec, hcells, hkept, hframe⟩ := exec_of_plan_matrix (plan_plFmt hv hm) (putsInto_fmtWrites hv)
  refine ⟨t, hexec, fun i hi rc hrc => ?_, fun hV i hi rc hrc => ?_, fun r c hc hformat hversion => ?_, hkept, hframe⟩
  · have hc := (formatPlaces_lt hN hi hrc).2.trans_le hN256
    have hbit := formatBitAt_of_mem hN hi hrc
    rw [hcells, matCell_fmtWrites hv hc, versionBitAt_eq_none_of_format hbit hN, hbit]
    rfl
  · have hside : 45 ≤ s.N := by unfold State.N sideOf; omega
    have hc := (versionPlaces_lt hside hi hrc).2.trans_le hN256
    rw [hcells, matCell_fmtWrites hv hc, versionBitAt_of_mem hV hi hrc]
    rfl
  · rw [← formatBitAt_isSome hN, Option.isSome_eq_false_iff, Option.isNone_iff_eq_none] at hformat
    rw [State.N, ← versionBitAt_isSome, Option.isSome_eq_false_iff, Option.isNone_iff_eq_none] at hversion
    rw [hcells, matCell_fmtWrites hv hc, hformat, hversion]
    rfl

/-- Settles O42: PL.FMT draws over every module that PL.INIT reserves. -/
theorem noModuleStaysReservedAfterPlFmt : Obligations.NoModuleStaysReservedAfterPlFmt := by
  intro m s hv
  obtain ⟨t, hinit, hmatVer, hcells, -, hframe⟩ := (plInitDrawsTheFunctionPatternsOrRaises.2 s).2 hv
  have hvt : t.vrecOk = true := by rw [hframe]; exact hv
  have hV : t.V = s.V := by rw [hframe]; rfl
  obtain ⟨u, hfmt, hformat, hversion, hrest, -⟩ :=
    (plFmtWritesTheFormatAndVersionBitsOrRaises.2 m t).2.2 hvt (hmatVer.trans hV.symm)
  refine ⟨t, u, hinit, hfmt, fun r hr c hc => ?_⟩
  have hN := (N_bounds hvt).1
  cases hisFormat : isFormat t.N r c with
  | true =>
    obtain ⟨i, hi, hrc⟩ := (isFormat_iff hN).1 hisFormat
    rw [hformat i hi (r, c) hrc]
    exact moduleCell_not_reserved _
  | false =>
    cases hisVersion : isVersionArea t.V t.N r c with
    | true =>
      have hV7 : 7 ≤ t.V := of_decide_eq_true (Bool.and_eq_true_iff.1 hisVersion).1
      obtain ⟨i, hi, hrc⟩ := (isVersionArea_iff hV7).1 hisVersion
      rw [hversion hV7 i hi (r, c) hrc]
      exact moduleCell_not_reserved _
    | false =>
      rw [hrest r c hc hisFormat hisVersion, hcells r hr c hc, ← hV]
      exact initCell_not_reserved hisFormat hisVersion

end Sys2Proof.Proofs
end

section
/-! SUPPORT. The command cycle (46_control.md R241, R242): the executor's turn with a command and with none, and the CMD
write that a recorded error discards. -/

namespace Sys2Proof.Machine

theorem step_executor {s : State} {rest : List Input} (h : s.inputs = .executor :: rest) :
    step s = executorTurn { s with inputs := rest } := step_input s _ rest h

theorem executorTurn_of_pend_none {s : State} (hpend : s.pend = none) : executorTurn s = .next s := by
  simp only [executorTurn, hpend]

theorem executorTurn_of_decode_ok {s : State} {w : Word} {i : Instr} (hpend : s.pend = some w)
    (hd : decode w = .ok i) : executorTurn s = exec i s := by
  simp only [executorTurn, hpend, hd]

/-- A write to CMD is discarded with DROP when the core is idle and an error is recorded. -/
theorem step_write_cmd_dropped {s : State} {w : Word} {rest : List Input} (h : s.inputs = .write 4 0x00C w :: rest)
    (hpend : s.pend = none) (herr : s.err = true) :
    step s = .next { s with inputs := rest, bus := .performed 0, drop := true } := by
  have hidle : s.busy = false := by rw [State.busy, hpend]; rfl
  rw [step_write_acts s 4 _ w rest h rfl (.inl hidle), show target 0x00C = .cmd from rfl]
  simp [writeTarget, offer, State.busy, hpend, herr]

end Sys2Proof.Machine
end

section

open Sys2Proof Sys2Proof.Machine

namespace Sys2Proof.Proofs

/-- Settles O5: with either way of giving the turn, a step is the executor's turn. -/
theorem stepRunsTheDecodedCommand : Obligations.StepRunsTheDecodedCommand := by
  intro s w i rest hpend hd
  refine ⟨fun h => ?_, fun h => ?_, fun h => ?_⟩
  · exact (step_executor h).trans (executorTurn_of_decode_ok hpend hd)
  · exact (step_idle s h).trans (executorTurn_of_decode_ok hpend hd)
  · exact (step_executor (s := { s with pend := none }) h).trans (executorTurn_of_pend_none rfl)

/-- Settles O8: its plan has no writes. -/
theorem nopOnlyRunsTheCommandCycle : Obligations.NopOnlyRunsTheCommandCycle :=
  ⟨decodesAs_of_arm fun w h => by rw [decode, h]; rfl, fun s => exec_of_plan_ok .nop s [] rfl⟩

/-- Settles O48: BUSY is tested first, as at every offset but CTRL and STATUS, then ERR. -/
theorem cmdWriteIsAcceptedOrDiscarded : Obligations.CmdWriteIsAcceptedOrDiscarded := by
  intro s w rest h
  split
  case isTrue hbusy => exact step_write_discarded s 4 _ w rest h rfl hbusy rfl
  case isFalse hidle =>
    have hpend : s.pend = none := Option.not_isSome_iff_eq_none.1 hidle
    split
    case isTrue herr => exact step_write_cmd_dropped h hpend herr
    case isFalse herr => exact step_write_cmd_accepted h hpend (Bool.eq_false_of_not_eq_true herr)

end Sys2Proof.Proofs
end

section
/-! SUPPORT. The error record: a command that fails records an error, never the code 0, whatever the generator cache
holds (60_exceptions.md R250, R252), and a STATUS write clears the record (R255). -/

namespace Sys2Proof.Machine

/-- A computed value's writes fail as the computation does. -/
theorem map_eq_error {α β : Type} {r : Except ErrCode α} {f : α → β} {err : ErrCode} :
    r.map f = .error err ↔ r = .error err := by cases r <;> simp [Except.map]

/-- The ECC by any polynomial fails only in the inverse of its leading coefficient (41_rs.md R124). -/
theorem rsEcc_error {data gen : List Byte} {n : Nat} {err : ErrCode} (h : rsEcc data n gen = .error err) :
    err = .divisionByZero := by
  rw [rsEcc, map_eq_error, pdivrem] at h
  by_cases hlead : (norm gen).headD 0 = 0
  · rw [hlead, ginv_zero] at h
    cases h; rfl
  · rw [ginv_of_ne_zero hlead] at h
    cases h

theorem blockEccWrites_error {s : State} {gen : List Byte} {err : ErrCode} {bs : List Nat}
    (h : blockEccWrites s gen bs = .error err) : err = .divisionByZero := by
  induction bs with
  | nil => cases h
  | cons b bs ih =>
    rw [blockEccWrites] at h
    split at h
    · cases h
    · next herr => cases h; exact rsEcc_error herr
    · next herr _ => cases h; exact ih herr

theorem error_mem_of_planSound {depth : Nat} {codes : List ErrCode} {r : Except ErrCode (List Write)} {e : ErrCode}
    (h : PlanSound depth codes r) (hr : r = .error e) : e ∈ codes := by
  subst hr
  exact h

/-- No cache premise is needed here: with any cache, RS.ENC and BLK.ECC past their checks can fail only with
DIVISION_BY_ZERO. -/
theorem plan_ne_error_none (i : Instr) (s : State) : plan i s ≠ .error .none := by
  intro h
  cases i with
  | nop | gfLi | gfAdd | gfMul | gfExp | bbClr => cases h
  | gfDiv rd ra rb => exact absurd (error_mem_of_planSound (planGfDiv_sound rd ra rb s) h) (by decide)
  | gfInv rd ra => exact absurd (error_mem_of_planSound (planGfInv_sound rd ra s) h) (by decide)
  | gfLog rd ra => exact absurd (error_mem_of_planSound (planGfLog_sound rd ra s) h) (by decide)
  | rsSyn n d => exact absurd (error_mem_of_planSound (planRsSyn_sound n d s) h) (by decide)
  | serAln => exact absurd (error_mem_of_planSound (planSerAln_sound s) h) (by decide)
  | bbApp | bbAppr | bbRd | rsGen | serHdr | serPad | blkWeave | plInit | plPlace | plMask | plFmt =>
    simp only [plan, planBbApp, planBbAppr, planBbRd, planRsGen, planSerHdr, planSerPad, planBlkWeave, planPlInit,
      planPlPlace, planPlMask, planPlFmt, ite_eq_iff, Except.error.injEq, reduceCtorEq, and_false, or_false] at h
  | rsEnc n d =>
    simp only [plan, planRsEnc] at h
    rcases rsCheck_cases n d s with ⟨err, hcheck, herr⟩ | ⟨hcheck, -⟩
    · rw [hcheck] at h
      cases h
      exact absurd herr (by decide)
    · rw [hcheck] at h
      cases rsEcc_error (map_eq_error.1 h)
  | blkEcc =>
    simp only [plan, planBlkEcc, ite_eq_iff, Except.error.injEq, map_eq_error, reduceCtorEq, and_false, false_or] at h
    obtain ⟨-, -, hwrites⟩ := h
    cases blockEccWrites_error hwrites

/-- A write to STATUS clears the bits that it writes as 1, and with bit 2 the error record (60_exceptions.md R255). -/
theorem writeStatus_eq (v : Word) (s : State) : writeStatus v s = { s with
    done := s.done && !v.getLsbD 1, drop := s.drop && !v.getLsbD 13, ovr := s.ovr && !v.getLsbD 14,
    err := s.err && !v.getLsbD 2,
    errcode := if v.getLsbD 2 then .none else s.errcode,
    errcmd := if v.getLsbD 2 then 0 else s.errcmd } := by
  unfold writeStatus
  cases v.getLsbD 2 <;> simp [clearError]

theorem step_write_status {s : State} {v : Word} {rest : List Input} (h : s.inputs = .write 4 0x008 v :: rest) :
    step s = .next { writeStatus v { s with inputs := rest } with bus := .performed 0 } :=
  step_write_acts s 4 _ v rest h rfl (.inr rfl)

end Sys2Proof.Machine
end

section
/-! PROOFS. Error recording and clearing (60_exceptions.md R251, R252, R255). -/

open Sys2Proof Sys2Proof.Machine

namespace Sys2Proof.Proofs

/-- Settles O6: a command ends as its plan says, and no plan fails with the code 0, whatever the cache holds. -/
theorem commandCompletesOrRecordsOneError : Obligations.CommandCompletesOrRecordsOneError := by
  intro i s w hpend
  cases hplan : plan i s with
  | error e =>
    exact .inl ⟨e, fun he => plan_ne_error_none i s (he ▸ hplan), raises_of_plan_error i s e hplan w hpend⟩
  | ok ws =>
    have hsame := applyAll_sameOuter ws s
    exact .inr ⟨_, exec_of_plan_ok i s ws hplan, hsame.err, hsame.errcode, hsame.errcmd, rfl, rfl,
      congrArg (· + 1) hsame.cmdcnt⟩

/-- Settles O7: with ERR = 0 before, the recorded error is the plan's, and a plan's error is in the command's table
row. -/
theorem recordedErrorIsOneOfTheCommandsCodes : Obligations.RecordedErrorIsOneOfTheCommandsCodes := by
  intro i s w e hcache _ hexec herr
  rcases exec_cases i s _ hexec with ⟨ws, -, hend⟩ | ⟨err, hplan, hend⟩
  · have hkept : true = s.err := (congrArg State.err hend).trans (applyAll_sameOuter ws s).err
    rw [herr] at hkept
    cases hkept
  · have hcode : e = err := congrArg State.errcode hend
    exact hcode ▸ plan_error_mem hcache hplan

/-- Settles O49: the write acts whether BUSY is 0 or 1, and with ERR cleared the core takes the next command. -/
theorem statusWriteClearsTheErrorRecord : Obligations.StatusWriteClearsTheErrorRecord := by
  refine ⟨fun s v rest h => ?_, fun s v w rest h hclear hidle => ?_⟩
  · rw [step_write_status h, writeStatus_eq]
  · have hwrite := step_write_status h
    rw [writeStatus_eq] at hwrite
    have hpend : s.pend = none := Option.not_isSome_iff_eq_none.1 (Bool.eq_false_iff.1 hidle)
    have hcleared : (s.err && !v.getLsbD 2) = false := by rw [hclear, Bool.not_true, Bool.and_false]
    exact ⟨_, _, hwrite, step_write_cmd_accepted rfl hpend hcleared, rfl, rfl⟩

end Sys2Proof.Proofs
end

section
/-! SUPPORT. Reset (70_reset_and_hazards.md R280-R283): what a write to CTRL with SRST leaves, which elements an
abandoned command keeps whatever part of it happened, and how the content that hard reset takes reads. -/

namespace Sys2Proof.Machine

variable {s t : State} {b : Buf}

theorem step_write_ctrl {v : Word} {rest : List Input} (h : s.inputs = .write 4 0x004 v :: rest) :
    step s = .next { writeCtrl v { s with inputs := rest } with bus := .performed 0 } :=
  step_write_acts s 4 _ v rest h rfl (.inr rfl)

/-- Soft reset acts whether BUSY is 0 or 1 (70_reset_and_hazards.md R281). -/
theorem step_softReset {v : Word} {rest : List Input} (h : s.inputs = .write 4 0x004 v :: rest)
    (hv : v.getLsbD 0 = true) :
    step s = .next { State.reset with
      inputs := rest, bus := .performed 0, draws := s.draws + 1,
      bufs := abandonedBuffers { s with inputs := rest } } := by
  rw [step_write_ctrl h, writeCtrl, if_pos hv]; rfl

theorem step_hardReset {content : Buffers} {rest : List Input} (h : s.inputs = .hardReset content :: rest) :
    step s = .next { State.reset with
      inputs := rest, bus := s.bus, draws := s.draws, bufs := canonBuffers content } := step_input s _ rest h

/-! ## The abandoned command -/

/-- The writes in flight are the plan of the accepted command; there are none without a command, or if it will fail. -/
theorem inFlightWrites_cases (s : State) : inFlightWrites s = [] ∨
    ∃ w i, s.pend = some w ∧ decode w = .ok i ∧ plan i s = .ok (inFlightWrites s) := by
  cases hp : s.pend with
  | none => exact .inl (by simp only [inFlightWrites, hp])
  | some w =>
    cases hd : decode w with
    | error e => exact .inl (by simp only [inFlightWrites, hp, hd])
    | ok i =>
      cases hplan : plan i s with
      | error e => exact .inl (by simp only [inFlightWrites, hp, hd, hplan])
      | ok ws => exact .inr ⟨w, i, rfl, hd, by simp only [inFlightWrites, hp, hd, hplan]⟩

/-- Whatever part of a command's plan happens, what the command does not own is kept. -/
theorem applySome_plan_keeps {i : Instr} {ws : List Write} (h : plan i s = .ok ws) (took : Nat → Nat → Bool)
    (k : Nat) : Keeps i s (applySome took s k ws) :=
  applySome_induction (P := Keeps i s) took k ws s (keeps_refl i s) fun w hw _ _ ht =>
    apply_keeps _ w (plan_owned i s ws h w hw) ht

/-- With no command in flight a reset abandons nothing. -/
theorem abandonedBuffers_of_pend_none (h : s.pend = none) : abandonedBuffers s = s.bufs := by
  rcases inFlightWrites_cases s with hnil | ⟨w, i, hp, -⟩
  · rw [abandonedBuffers, hnil]; rfl
  · rw [h] at hp; cases hp

/-- An abandoned command keeps the buffers that it does not write (70_reset_and_hazards.md R283). -/
theorem cell_of_abandonedBuffers (ht : t.bufs = abandonedBuffers s)
    (hout : ∀ w i, s.pend = some w → decode w = .ok i → outputBuffer i ≠ some b) (k : Nat) :
    t.cell b k = s.cell b k := by
  rcases inFlightWrites_cases s with hnil | ⟨w, i, hp, hd, hplan⟩
  · exact bufs_get_cell s t b k (by rw [ht, abandonedBuffers, hnil]; rfl)
  · exact (bufs_get_cell _ t b k ht).trans ((applySome_plan_keeps hplan _ 0).cell b k (hout w i hp hd))

/-! ## The content that hard reset takes -/

theorem canonBuffers_get (bs : Buffers) (b : Buf) : (canonBuffers bs).get b = canonMemory b (bs.get b) := by
  cases b <;> rfl

/-- Inside the buffer the canonical form reads as the content's first entry, cut to the element's width (log 15). -/
theorem read_canonMemory (m : Memory) {i : Nat} (hi : i < bufSize b) :
    Memory.read (canonMemory b m) i = Memory.read m i &&& bufMask b := by
  induction m with
  | nil => exact BitVec.zero_and.symm
  | cons c m ih =>
    have hcons : canonMemory b (c :: m) =
        if c.1 < bufSize b then Memory.write (canonMemory b m) c.1 (c.2 &&& bufMask b) else canonMemory b m := rfl
    rw [hcons, read_cons]
    by_cases hci : c.1 = i
    · rw [if_pos (hci ▸ hi), read_write, if_pos hci, if_pos hci]
    · rw [if_neg hci, ← ih]
      split
      · rw [read_write, if_neg hci]
      · rfl

/-- The buffers after hard reset show the content that it takes (70_reset_and_hazards.md R282). -/
theorem cell_of_canonBuffers {content : Buffers} (ht : t.bufs = canonBuffers content) {i : Nat} (hi : i < bufSize b) :
    t.cell b i = Memory.read (content.get b) i &&& bufMask b := by
  rw [State.cell, ht, canonBuffers_get, read_canonMemory _ hi, BitVec.and_assoc, BitVec.and_self]

end Sys2Proof.Machine
end

section
/-! PROOFS. Reset and hazards (70_reset_and_hazards.md R280-R283, R288). -/

open Sys2Proof Sys2Proof.Machine

namespace Sys2Proof.Proofs

/-- Settles O58: the abandoned command's part that happened is among the writes of its plan, which stay in its output
buffer. -/
theorem softResetResetsTheRegistersAndKeepsTheBuffers :
    Obligations.SoftResetResetsTheRegistersAndKeepsTheBuffers := by
  intro s v rest h hv
  refine ⟨_, step_softReset h hv, rfl, fun hp => ?_, fun w hp b hw k => ?_⟩
  · exact abandonedBuffers_of_pend_none (s := { s with inputs := rest }) hp
  · refine cell_of_abandonedBuffers (s := { s with inputs := rest }) rfl (fun w' i hp' hd => ?_) k
    obtain rfl : w = w' := Option.some.inj (hp.symm.trans hp')
    rcases hw with ⟨e, he⟩ | ⟨j, hj, hout⟩
    · rw [he] at hd; cases hd
    · rw [hj] at hd; cases hd; exact hout

/-- Settles O59: the content in canonical form reads as the content does. -/
theorem hardResetTakesAnyMemoryContent : Obligations.HardResetTakesAnyMemoryContent := by
  intro s content rest h
  exact ⟨_, step_hardReset h, canonBuffers_wf content, rfl, fun b i hi => cell_of_canonBuffers rfl hi⟩

/-- Settles O50: BUSY is tested before a write acts, at every offset but CTRL and STATUS. -/
theorem writesWhileBusyAreDiscarded : Obligations.WritesWhileBusyAreDiscarded := by
  intro s off v rest h hb
  refine ⟨fun hword hlt hctrl hstatus => ?_, ?_, ?_⟩
  · exact step_write_discarded s 4 off v rest h (accessOk_word off hword hlt) hb
      (writableBusy_target off hctrl hstatus)
  · rintro rfl hv
    rw [step_write_ctrl h, writeCtrl_enables v _ hv]
  · rintro rfl
    refine ⟨_, step_write_status h, ?_⟩
    rw [writeStatus_eq]
    exact ⟨rfl, rfl, rfl, rfl, rfl⟩

end Sys2Proof.Proofs
end
